-- ==== Sys2Proof/Word.lean ====
section
/-! DEFINITION. The word types of the block: 32-bit registers and commands, 8-bit samples, 26-bit block offsets. -/

namespace Sys2Proof

/-- A register value or a command word (00_scope.md R6: register width 32, bus data width 32). -/
abbrev Word := BitVec 32

/-- A buffer byte, one 8-bit unsigned sample (10_state.md R30). -/
abbrev Byte := BitVec 8

/-- A block-relative byte offset; the offset space has 2^26 bytes (20_memory.md R50). -/
abbrev Offset := BitVec 26

/-- The two sentinel samples (40_dither_engine.md R101). -/
def white : Byte := 255#8

/-- The lower sentinel sample (40_dither_engine.md R101). -/
def black : Byte := 0#8

end Sys2Proof
end

