-- ==== Sys2Proof/Syntax.lean ====
section
/-! DEFINITION. The instructions of the block: its commands, one constructor per row of spec/opcode_table.json. -/

namespace Sys2Proof

/-- A command of the block (30_encoding.md R82, R83). A command has no operand fields (R81): its operands are
the registers latched at acceptance (R84). -/
inductive Instr where
  /-- DITHER, word 0x00000001 (40_dither_engine.md R100). -/
  | dither
  /-- PACK, word 0x00000002 (41_bit_packer.md R140). -/
  | pack
  /-- DITHER_PACK, word 0x00000003 (42_command_sequencing.md R162). -/
  | ditherPack
  /-- ILLEGAL: any other word (30_encoding.md R85, 42_command_sequencing.md R168), which it carries whole. -/
  | illegal (word : Word)
  deriving DecidableEq, Repr

end Sys2Proof
end

