-- ==== Sys2Proof/WellFormed.lean ====
section
/-! DEFINITION. Which terms of `Instr` stand for a command word: an ILLEGAL command carries a word that is none of the three legal ones. -/

namespace Sys2Proof

/-- The three words that are not ILLEGAL (30_encoding.md R83: "exactly three words are not ILLEGAL"). -/
def legalWords : List Word := [0x00000001#32, 0x00000002#32, 0x00000003#32]

/-- A well-formed command: the word an ILLEGAL command carries is not a legal command's word. -/
def Instr.wf : Instr → Bool
  | .dither => true
  | .pack => true
  | .ditherPack => true
  | .illegal w => !legalWords.contains w

end Sys2Proof
end

