-- ==== Sys2Proof/Decode.lean ====
section
/-! DEFINITION. The decoder of command words, total on every 32-bit word, and the encoder written from the same table. -/

namespace Sys2Proof

/-- The field OP, bits 3:0 (30_encoding.md R81). -/
def opField (w : Word) : BitVec 4 := w.extractLsb' 0 4

/-- The field RSVD, bits 31:4, "must be zero" (30_encoding.md R81). -/
def rsvdField (w : Word) : BitVec 28 := w.extractLsb' 4 28

/-- Decoding, "a total function of the 32-bit word" (30_encoding.md R83). Reserved words are rejected by
name: they are the command ILLEGAL (R85). -/
def decode (w : Word) : Instr :=
  if rsvdField w ≠ 0#28 then .illegal w
  else if opField w = 0x1#4 then .dither
  else if opField w = 0x2#4 then .pack
  else if opField w = 0x3#4 then .ditherPack
  else .illegal w

/-- A command word from its two fields (format CMD32, R81). -/
def cmdWord (rsvd : BitVec 28) (op : BitVec 4) : Word := rsvd ++ op

/-- The word of a command (the OP table of 30_encoding.md R82). -/
def encode : Instr → Word
  | .dither => cmdWord 0#28 0x1#4
  | .pack => cmdWord 0#28 0x2#4
  | .ditherPack => cmdWord 0#28 0x3#4
  | .illegal w => w

/-- The command the decoder reads from an instruction whose bits are `w`, numbered as spec/opcode_table.json
numbers them. A command is one 32-bit word (R80): bits above `nbits` are zero, and a row of more than 32 bits
is no command of this block. -/
def decodeTableWord (nbits w : Nat) : Option Instr :=
  if nbits ≤ 32 then some (decode (BitVec.ofNat 32 (w % 2 ^ nbits))) else none

end Sys2Proof
end

