-- ==== Sys2Proof/Config.lean ====
section
/-! DEFINITION. What the spec leaves to an implementation, and the free values. The uninterpreted constants have no body: no proof can learn what they are. -/

namespace Sys2Proof

/-- Which legal capacity this block was built with: uninterpreted.
DESIGN CHOICE (log 4): safe; every capacity the spec allows is one value of it. -/
opaque Config.capacityIndex : Nat

/-- `MAX_PIXELS` (00_scope.md R6, OPEN): 8 to 2^24 and a multiple of 8; every such number is
`8 * (1 + k)` for one `k < 2^21`. DESIGN CHOICE (log 4). -/
def Config.maxPixels : Nat := 8 * (1 + Config.capacityIndex % 2 ^ 21)

/-- `MAX_OUT` for a capacity `cap`: the size in bytes of the OUT buffer (R6). -/
def Config.outSize (cap : Nat) : Nat := cap / 8

/-- Which multiple of 2^26 the block is placed at: uninterpreted. DESIGN CHOICE (log 8): safe. -/
opaque Config.baseIndex : Nat

/-- `BASE` (00_scope.md R6, 20_memory.md R51, OPEN): a multiple of 2^26. -/
def Config.base : Nat := 2 ^ 26 * Config.baseIndex

/-- The free value of an UNSPECIFIED buffer byte: the value of read number `draw` at place `place`
(00_scope.md R11; 10_state.md R45; 20_memory.md R63). DESIGN CHOICE (log 7): safe; nothing constrains it. -/
opaque Config.freeByte (draw place : Nat) : Byte

/-- The free value of a MONO byte that nothing has written since reset, as the engine reads it: no run from reset
reads one. DESIGN CHOICE (log 12): safe; nothing constrains it. -/
opaque Config.freeMono (index : Nat) : Byte

end Sys2Proof
end

