-- ==== Sys2Proof/Machine/State.lean ====
section
/-! DEFINITION. The state of the block as plain data (10_state.md R46), the reasons a step can stop, and the state after reset. -/

namespace Sys2Proof.Machine

/-- The reasons the machine stops with a fault: the spec's two model faults
(93_implementation_defined.md section 4). Neither is an error of the hardware (60_exceptions.md R205). -/
inductive Fault where
  /-- A host WRITE to IN landed while BUSY = 1 (20_memory.md R64). The write records it in `Block.fault`
  and every later step but a reset raises it. Safe: no claim rests on such a run. -/
  | hostMutatedInput
  /-- The engine read an IN byte the host has not written since reset (20_memory.md R74). Raised by the commands
  and by the engine's stages and visits; the step records it in `Block.fault` and every later step but a reset raises
  it. Safe: the hardware goes on with leftover bytes. -/
  | uninitInput
  deriving DecidableEq, Repr

/-- The reasons a step is refused. -/
inductive Refusal where
  /-- An instruction that has no meaning yet, raised by `exec` alone. Safe. -/
  | notModelled (mnemonic : String)
  /-- The engine's turn in a stage its running command does not have (42_command_sequencing.md R169: "through no
  other"), raised by the engine's turns alone. Safe: no run from reset reaches such a state. -/
  | stageNotOfCommand
  deriving DecidableEq, Repr

/-- A command as the engine holds it (10_state.md R40): the four values of `decode` (30_encoding.md R83). -/
inductive Op where
  | dither | pack | ditherPack | illegal
  deriving DecidableEq, Repr

/-- `phase` (10_state.md R40). -/
inductive Phase where
  | idle | run
  deriving DecidableEq, Repr

/-- `stage` (10_state.md R40, 42_command_sequencing.md R169). -/
inductive Stage where
  | validate | copy | scan | pack | finish
  deriving DecidableEq, Repr

/-- The scan direction of a row (10_state.md R40, 40_dither_engine.md R104). -/
inductive Dir where
  | forward | reverse
  deriving DecidableEq, Repr

/-- The errors a command can end with (60_exceptions.md R200). -/
inductive CommandError where
  | invalidDimension | allocationFailure | illegalCommand
  deriving DecidableEq, Repr

/-- The sizes of a bus access: 1, 2 and 4 bytes (20_memory.md R54). -/
inductive Size where
  | byte | half | word
  deriving DecidableEq, Repr

/-- A value of one access size (20_memory.md R54: "a `size`-byte value"). -/
inductive Data where
  | byte (v : BitVec 8)
  | half (v : BitVec 16)
  | word (v : BitVec 32)
  deriving DecidableEq, Repr

/-- What an access does: READ of a size, or WRITE of a value (20_memory.md R54). -/
inductive Access where
  | read (size : Size)
  | write (data : Data)
  deriving DecidableEq, Repr

/-- A bus transaction at a block offset (20_memory.md R54). -/
structure Transaction where
  addr : Offset
  access : Access
  deriving DecidableEq, Repr

/-- The response to a bus transaction (20_memory.md R54). -/
inductive Response where
  | okayRead (data : Data)
  | okay
  | error
  deriving DecidableEq, Repr

/-- One thing that happens next: a step of one agent of 42_command_sequencing.md R170. DESIGN CHOICE (log 1):
the order of the agents' steps is data, so that a statement about every state holds for every order. -/
inductive Event where
  /-- HOST: one bus transaction at a block offset. -/
  | host (t : Transaction)
  /-- HOST: one access at a system address (20_memory.md R51). -/
  | system (addr : Nat) (access : Access)
  /-- HOST and ENGINE: the word is written to CMD and, if accepted, its command runs "from acceptance to
  completion, as one atomic ENGINE step" (42_command_sequencing.md R169). -/
  | command (w : Word)
  /-- ENGINE: the rest of the running command (R170). -/
  | engine
  /-- ENGINE: the rest of the running command's stage (R170, "its next stage"). -/
  | engineStage
  /-- ENGINE: one visit of the scan, one group of the packer, or one other stage (R170, "or visit"). -/
  | engineVisit
  /-- RESET: the reset input (70_reset_and_hazards.md R240). -/
  | reset
  deriving DecidableEq, Repr

/-- A buffer memory (10_state.md R31): pairs of an index and the byte held there. An index that is not listed
has no value (R46: `None`). -/
abbrev Memory := List Host.Cell

/-- The canonical form: indexes strictly rising. No byte value is an unlisted index's, so each may be listed. -/
def Memory.wf : Memory → Bool
  | [] => true
  | c :: m => m.all (fun d => decide (c.1 < d.1)) && Memory.wf m

/-- The state of the block, "exactly this state, and nothing else" (10_state.md R46). BUSY is read from `phase`
(R40; DEDUCED, log 3). -/
structure Block where
  /-- STATUS.DONE (R22). -/
  done : Bool
  /-- STATUS.OVR (R22). -/
  ovr : Bool
  /-- STATUS.ERR (R22, 60_exceptions.md R200). -/
  err : BitVec 4
  /-- IRQ_EN.DONE_IE (R24). -/
  doneIe : Bool
  /-- WIDTH (R25). -/
  width : Word
  /-- HEIGHT (R26). -/
  height : Word
  /-- IN_LEN (R27). -/
  inLen : Word
  /-- OUT_LEN (R28). -/
  outLen : Word
  /-- The IN buffer (R31). -/
  inBuf : Memory
  /-- The MONO buffer (R31). -/
  monoBuf : Memory
  /-- The OUT buffer (R31). -/
  outBuf : Memory
  /-- `phase`; STATUS.BUSY reads `phase = RUN` (R40). -/
  phase : Phase
  /-- The running command (R40). -/
  op : Op
  /-- `lat_W` (R41). -/
  latW : Word
  /-- `lat_H` (R41). -/
  latH : Word
  /-- `lat_LEN` (R41). -/
  latLen : Word
  /-- The stage of the running command (R40, R169). -/
  stage : Stage
  /-- The row being scanned or packed (R40). -/
  i : Nat
  /-- The column being visited, or the first column of the group being packed (R40). -/
  j : Int
  /-- The scan direction of row `i` (R40). -/
  dir : Dir
  /-- The recorded fault (R46): "set by fault(REASON); never cleared". -/
  fault : Option Fault
  deriving DecidableEq, Repr

/-- A state of the machine: the block of R46, and beside it the environment that a step of one argument needs as data.
R46 calls the host's accesses "parameters of the step relation, not state"; the step relation of the block, with the
event as its parameter, is `Block.turn` (42_command_sequencing.md R170), and a step is that relation at the next event
(DESIGN CHOICE, logs 1, 6, 7). -/
structure State extends Block where
  /-- The model's own: the port's response to the host's last transaction (DESIGN CHOICE, log 6). -/
  resp : Option Response
  /-- The model's own: how many buffer reads the host has made, the number of the next free value
  (DESIGN CHOICE, log 7). -/
  draws : Nat
  /-- The model's own: the events to come, the next one first (DESIGN CHOICE, log 1). -/
  sched : List Event
  deriving DecidableEq, Repr

/-- The block right after reset (70_reset_and_hazards.md R240, 10_state.md R44, R45). The spec gives `op`, `latW`,
`latH` and `latLen` no reset value (R40: UNSPECIFIED, not read while IDLE): DESIGN CHOICE, log 5, unsafe. -/
def Block.reset : Block where
  done := false
  ovr := false
  err := 0#4
  doneIe := false
  width := 0#32
  height := 0#32
  inLen := 0#32
  outLen := 0#32
  inBuf := []
  monoBuf := []
  outBuf := []
  phase := .idle
  op := .illegal
  latW := 0#32
  latH := 0#32
  latLen := 0#32
  stage := .validate
  i := 0
  j := 0
  dir := .forward
  fault := none

/-- The machine right after reset: the block at its reset values, and beside it no response given, no free value
drawn and nothing scheduled (DESIGN CHOICE, logs 1, 6, 7). -/
def State.reset : State where
  toBlock := Block.reset
  resp := none
  draws := 0
  sched := []

end Sys2Proof.Machine
end

