-- ==== Sys2Proof/Machine/Ops.lean ====
section
/-! DEFINITION. The named operations over the buffers and the registers: reading and writing a buffer, accepting, dropping and ending a command, error reporting and its acknowledgement, recording a fault, the reset. -/

namespace Sys2Proof.Machine

/-! ### Buffer memories -/

/-- The byte at index `n`, or none where nothing has been written (10_state.md R46). -/
def Memory.read? : Memory → Nat → Option Byte
  | [], _ => none
  | (k, b) :: m, n => if k = n then some b else Memory.read? m n

/-- `BUF[n] <- v` (00_scope.md R10), keeping the canonical form. -/
def Memory.write : Memory → Nat → Byte → Memory
  | [], n, v => [(n, v)]
  | (k, b) :: m, n, v =>
    if n < k then (n, v) :: (k, b) :: m
    else if n = k then (n, v) :: m
    else (k, b) :: Memory.write m n v

/-- The byte at index `n`, an unlisted one drawn from `fill` (00_scope.md R11). -/
def Memory.readOr (fill : Nat → Byte) (m : Memory) (n : Nat) : Byte :=
  (Memory.read? m n).getD (fill n)

/-- The `len` bytes that `src` gives from index `n` on, or none if one of them has no value. -/
def readRun (src : Nat → Option Byte) : Nat → Nat → Option (List Byte)
  | _, 0 => some []
  | n, len + 1 =>
    match src n, readRun src (n + 1) len with
    | some b, some bs => some (b :: bs)
    | _, _ => none

/-- Bytes written one after the other from index `n` on. -/
def Memory.writeRun : Memory → Nat → List Byte → Memory
  | m, _, [] => m
  | m, n, b :: bs => Memory.writeRun (Memory.write m n b) (n + 1) bs

/-! ### Status and the course of a command -/

/-- STATUS.BUSY "reads `phase = RUN`" (10_state.md R40). DEDUCED (log 3): one storage with `phase`. -/
def Block.busy (s : Block) : Bool := s.phase == .run

/-- The code of an error in STATUS.ERR (60_exceptions.md R200). -/
def CommandError.code : CommandError → BitVec 4
  | .invalidDimension => 1#4
  | .allocationFailure => 2#4
  | .illegalCommand => 3#4

/-- The position moves to the start of a stage; the direction is always that of the row (10_state.md R40). -/
def Block.enter (s : Block) (st : Stage) : Block :=
  { s with stage := st, i := 0, j := 0, dir := .forward }

/-- Acceptance of a command while idle (42_command_sequencing.md R160, 10_state.md R41). -/
def Block.accept (s : Block) (op : Op) : Block :=
  { s with
    op := op, latW := s.width, latH := s.height, latLen := s.inLen
    phase := .run, stage := .validate, i := 0, j := 0, dir := .forward
    done := false, err := 0#4, outLen := 0#32 }

/-- A CMD write while busy is dropped: it sets OVR and changes nothing else (42_command_sequencing.md R161). -/
def Block.dropCommand (s : Block) : Block := { s with ovr := true }

/-- `raise CommandError(code)`: the block's counterpart of taking an exception
(42_command_sequencing.md R166, 60_exceptions.md R213). -/
def Block.raiseError (s : Block) (e : CommandError) : Block :=
  { s with outLen := 0#32, err := e.code, phase := .idle, done := true }

/-- `complete(len)`: the successful end of the running command (42_command_sequencing.md R167). -/
def Block.complete (s : Block) (len : Nat) : Block :=
  { s with outLen := BitVec.ofNat 32 len, err := 0#4, phase := .idle, done := true }

/-- A write to STATUS: the write-1-to-clear of DONE and OVR (10_state.md R23). It is also the return from error
reporting: the host's acknowledgement (60_exceptions.md R214). -/
def Block.writeStatus (s : Block) (v : Word) : Block :=
  { s with
    done := if v.getLsbD 1 then false else s.done
    ovr := if v.getLsbD 2 then false else s.ovr }

/-- `fault(REASON)`: the reason is recorded and a recorded one is never cleared (10_state.md R46). -/
def Block.recordFault (s : Block) (r : Fault) : Block :=
  { s with fault := some (s.fault.getD r) }

/-- The reset input (70_reset_and_hazards.md R240 to R242): everything takes its reset value, the buffers become
UNSPECIFIED, a running command is abandoned; a recorded fault stays. -/
def Block.resetBlock (s : Block) : Block := { Block.reset with fault := s.fault }

/-- The operation a command is held as in the engine (10_state.md R40, R41): its word is not saved
(60_exceptions.md R200). -/
def Op.of : Instr → Op
  | .dither => .dither
  | .pack => .pack
  | .ditherPack => .ditherPack
  | .illegal _ => .illegal

/-- A CMD write of a command: accepted while idle, dropped while busy (10_state.md R21). -/
def Block.issue (s : Block) (op : Op) : Block :=
  if s.busy then s.dropCommand else s.accept op

/-! ### The block inside a state -/

/-- An outcome of the block as one of the machine: the environment beside the block stays as it is in `s`. -/
def State.onBlock (s : State) (o : Host.Outcome Block Fault Refusal) : Host.Outcome State Fault Refusal :=
  match o with
  | .next b => .next { s with toBlock := b }
  | .fault r => .fault r
  | .refused r => .refused r

end Sys2Proof.Machine
end

