-- ==== Sys2Proof/Machine/Operands.lean ====
section
/-! DEFINITION. The operands of a command (30_encoding.md R84), and the values of bus accesses as bytes (20_memory.md R57). -/

namespace Sys2Proof.Machine

/-! ### The operands of the running command -/

/-- `W = s32(lat_W)` (30_encoding.md R84). -/
def Block.imgW (s : Block) : Int := s.latW.toInt

/-- `H = s32(lat_H)` (30_encoding.md R84). -/
def Block.imgH (s : Block) : Int := s.latH.toInt

/-- `LEN = lat_LEN`, unsigned (30_encoding.md R84). -/
def Block.imgLen (s : Block) : Nat := s.latLen.toNat

/-- `N = W * H`, the exact product, used only after W > 0 and H > 0 are checked (30_encoding.md R84). -/
def Block.pixels (s : Block) : Nat := (s.imgW * s.imgH).toNat

/-- `(W / 8) * H`, the length of the packed bitmap (41_bit_packer.md R146). -/
def Block.packedLen (s : Block) : Nat := (s.imgW / 8 * s.imgH).toNat

/-! ### The values of bus accesses -/

/-- How many bytes an access size covers (20_memory.md R54). -/
def Size.bytes : Size → Nat
  | .byte => 1
  | .half => 2
  | .word => 4

/-- The size of a value. -/
def Data.size : Data → Size
  | .byte _ => .byte
  | .half _ => .half
  | .word _ => .word

/-- The size of an access. -/
def Access.size : Access → Size
  | .read sz => sz
  | .write d => d.size

/-- The bytes of a value, the one at the lowest offset first: it is bits 7:0 (20_memory.md R57). -/
def Data.bytes : Data → List Byte
  | .byte v => [v]
  | .half v => [v.extractLsb' 0 8, v.extractLsb' 8 8]
  | .word v => [v.extractLsb' 0 8, v.extractLsb' 8 8, v.extractLsb' 16 8, v.extractLsb' 24 8]

/-- The value of an access of a size whose byte `k`, counted from the lowest offset, is `get k`
(20_memory.md R57: little-endian). -/
def Data.ofBytes (sz : Size) (get : Nat → Byte) : Data :=
  match sz with
  | .byte => .byte (get 0)
  | .half => .half (get 1 ++ get 0)
  | .word => .word (get 3 ++ get 2 ++ get 1 ++ get 0)

/-- The block offset that a system address reaches, if it reaches the block placed at `base`
(20_memory.md R51). -/
def blockOffset? (base addr : Nat) : Option Offset :=
  if base ≤ addr ∧ addr < base + 2 ^ 26 then some (BitVec.ofNat 26 (addr - base)) else none

end Sys2Proof.Machine
end

