-- ==== Sys2Proof/Machine/Flags.lean ====
section
/-! DEFINITION. The status flags as the host reads them, and the interrupt output. -/

namespace Sys2Proof.Machine

/-- STATUS as a word (10_state.md R22): BUSY bit 0, DONE bit 1, OVR bit 2, ERR bits 7:4; bit 3 and bits 31:8
read as zero. -/
def Block.statusWord (s : Block) : Word :=
  0#24 ++ s.err ++ 0#1 ++ BitVec.ofBool s.ovr ++ BitVec.ofBool s.done ++ BitVec.ofBool s.busy

/-- IRQ_EN as a word (10_state.md R24): DONE_IE bit 0; bits 31:1 read as zero. -/
def Block.irqEnWord (s : Block) : Word := 0#31 ++ BitVec.ofBool s.doneIe

/-- The interrupt output: `irq = DONE and DONE_IE`, level-sensitive, active high (60_exceptions.md R210). -/
def Block.irq (s : Block) : Bool := s.done && s.doneIe

end Sys2Proof.Machine
end

