-- ==== Sys2Proof/Machine/Validation.lean ====
section
/-! DEFINITION. The checks a command makes before its first buffer access (42_command_sequencing.md R163 to R165). -/

namespace Sys2Proof.Machine

/-- `validate_dither` for a block of capacity `cap`: the error raised, or none (42_command_sequencing.md R163). -/
def validateDither (cap : Nat) (w h : Int) (len : Nat) : Option CommandError :=
  if w ≤ 0 ∨ h ≤ 0 then some .invalidDimension
  else if (len : Int) ≠ w * h then some .invalidDimension
  else if (cap : Int) < w * h then some .allocationFailure
  else none

/-- `validate_pack` for a block of capacity `cap` (42_command_sequencing.md R164). -/
def validatePack (cap : Nat) (w h : Int) (len : Nat) : Option CommandError :=
  if w ≤ 0 ∨ w % 8 ≠ 0 ∨ h ≤ 0 then some .invalidDimension
  else if (len : Int) ≠ w * h then some .invalidDimension
  else if (cap : Int) < w * h then some .allocationFailure
  else none

/-- The checks of each command; an ILLEGAL command makes no dimension check (R165, R168). -/
def validate (cap : Nat) (op : Op) (w h : Int) (len : Nat) : Option CommandError :=
  match op with
  | .dither => validateDither cap w h len
  | .pack => validatePack cap w h len
  | .ditherPack => validatePack cap w h len
  | .illegal => some .illegalCommand

end Sys2Proof.Machine
end

