-- ==== Sys2Proof/Machine/Dither.lean ====
section
/-! DEFINITION. The Dither Engine (40_dither_engine.md): threshold, residual, fragments, VISIT, the scan order, and the command DITHER. -/

namespace Sys2Proof.Machine

/-! ### One pixel -/

/-- The threshold: WHITE iff `old > 127`, else BLACK (40_dither_engine.md R105). -/
def threshold (old : Byte) : Byte := if 127 < old.toNat then white else black

/-- The residual `err = old - new`, a signed integer (40_dither_engine.md R106). -/
def residual (old : Byte) : Int := (old.toNat : Int) - ((threshold old).toNat : Int)

/-- The fragment of a weight: `trunc(w * err / 16)`, truncated toward zero (40_dither_engine.md R109). -/
def frag (w err : Int) : Int := (w * err).tdiv 16

/-- Accumulation into an 8-bit container, modulo 256 (40_dither_engine.md R111). -/
def accumulate (old : Byte) (f : Int) : Byte := BitVec.ofInt 8 ((old.toNat : Int) + f)

/-! ### Directions, targets and bounds -/

/-- The direction of a row by its parity (40_dither_engine.md R104). -/
def dirOf (i : Nat) : Dir := if i % 2 = 0 then .forward else .reverse

/-- The forward horizontal step of a direction, `s(dir)` (40_dither_engine.md R104). -/
def Dir.step : Dir → Int
  | .forward => 1
  | .reverse => -1

/-- The column a row's scan starts at (40_dither_engine.md R104). -/
def Dir.start (d : Dir) (w : Int) : Int :=
  match d with
  | .forward => 0
  | .reverse => w - 1

/-- The four targets of a visit with their weights over 16 (40_dither_engine.md R107, R108), in the order in
which the engine updates them (R112). -/
def targets (d : Dir) (j i : Int) : List (Int × Int × Int) :=
  [(j + d.step, i, 7), (j - d.step, i + 1, 3), (j, i + 1, 5), (j + d.step, i + 1, 1)]

/-- Whether a pixel lies within `[0, W) x [0, H)`: a test on the coordinates (40_dither_engine.md R110). -/
def inBounds (w h x y : Int) : Bool := decide (0 ≤ x ∧ x < w ∧ 0 ≤ y ∧ y < h)

/-- The row-major index `idx(x, y) = y * W + x` of a pixel inside the image (00_scope.md R9). -/
def idx (w x y : Int) : Nat := (y * w + x).toNat

/-! ### VISIT -/

/-- One target's update: applied only inside the image, otherwise dropped (40_dither_engine.md R110, R111). -/
def diffuse (fill : Nat → Byte) (w h err : Int) (m : Memory) (t : Int × Int × Int) : Memory :=
  if inBounds w h t.1 t.2.1 then
    Memory.write m (idx w t.1 t.2.1)
      (accumulate (Memory.readOr fill m (idx w t.1 t.2.1)) (frag t.2.2 err))
  else m

/-- VISIT(j, i) on MONO (40_dither_engine.md R113), at the position `p = (j, i)`; an unlisted byte is drawn
from `fill`. -/
def visit (fill : Nat → Byte) (w h : Int) (m : Memory) (p : Int × Nat) : Memory :=
  let old := Memory.readOr fill m (idx w p.1 p.2)
  (targets (dirOf p.2) p.1 p.2).foldl (diffuse fill w h (residual old))
    (Memory.write m (idx w p.1 p.2) (threshold old))

/-! ### The scan order -/

/-- The columns of a row that are still to visit, from column `j` on, in the row's direction
(40_dither_engine.md R104). -/
def colsFrom (d : Dir) (w j : Int) : List Int :=
  match d with
  | .forward => (List.range (w - j).toNat).map (fun k : Nat => j + (k : Int))
  | .reverse => (List.range (j + 1).toNat).map (fun k : Nat => j - (k : Int))

/-- The visits of a row from column `j` on. -/
def rowVisits (d : Dir) (w j : Int) (i : Nat) : List (Int × Nat) := (colsFrom d w j).map (fun x => (x, i))

/-- The visits of whole rows, row `i` and the `n` rows in all from it on (40_dither_engine.md R103). -/
def rowsVisits (w : Int) : Nat → Nat → List (Int × Nat)
  | _, 0 => []
  | i, n + 1 => rowVisits (dirOf i) w ((dirOf i).start w) i ++ rowsVisits w (i + 1) n

/-- The visits that are still to make from position `(j, i)` on. -/
def visitsFrom (d : Dir) (w h j : Int) (i : Nat) : List (Int × Nat) :=
  rowVisits d w j i ++ rowsVisits w (i + 1) (h.toNat - (i + 1))

/-- The full visit sequence of an image (40_dither_engine.md R103, R104, R119). -/
def visitOrder (w h : Int) : List (Int × Nat) := rowsVisits w 0 h.toNat

/-! ### COPY, SCAN and the command -/

/-- COPY: `MONO[0 .. N) <- IN[0 .. N)` (40_dither_engine.md R102); none where an IN byte has not been written
since reset (20_memory.md R74). -/
def Block.copyIn (s : Block) : Option Block :=
  match readRun (Memory.read? s.inBuf) 0 s.pixels with
  | some bs => some { s with monoBuf := Memory.writeRun s.monoBuf 0 bs }
  | none => none

/-- A sequence of visits on MONO; an unlisted byte reads as a free value (00_scope.md R11; log 12). -/
def Block.scan (s : Block) (ps : List (Int × Nat)) : Block :=
  { s with monoBuf := ps.foldl (visit Config.freeMono s.imgW s.imgH) s.monoBuf }

/-- `dither_scan` (40_dither_engine.md R119): COPY, then every pixel's VISIT. -/
def Block.ditherScan (s : Block) : Option Block :=
  match s.copyIn with
  | some t => some (t.scan (visitOrder t.imgW t.imgH))
  | none => none

/-- The command DITHER on an accepted state, for a block of capacity `cap` (40_dither_engine.md R100). -/
def runDither (cap : Nat) (s : Block) : Host.Outcome Block Fault Refusal :=
  match validateDither cap s.imgW s.imgH s.imgLen with
  | some e => .next (s.raiseError e)
  | none =>
    match s.ditherScan with
    | none => .fault .uninitInput
    | some t => .next ((t.enter .finish).complete t.pixels)

/-- A CMD write of DITHER: dropped while busy (42_command_sequencing.md R161), otherwise accepted (R160) and run
"from acceptance to completion, as one atomic ENGINE step" (R169). -/
def Block.commandDither (s : Block) : Host.Outcome Block Fault Refusal :=
  if s.busy then .next s.dropCommand else runDither Config.maxPixels (s.accept .dither)

/-- DITHER on the block of a state (40_dither_engine.md R100). -/
def execDither (s : State) : Host.Outcome State Fault Refusal := s.onBlock s.toBlock.commandDither

end Sys2Proof.Machine
end

