-- ==== Sys2Proof/Machine/Pack.lean ====
section
/-! DEFINITION. The Bit Packer (41_bit_packer.md): serialisation, polarity inversion, the group order, and the command PACK. -/

namespace Sys2Proof.Machine

/-- The accumulator of a group: the sample at offset `k` sets bit `7 - k` iff it equals WHITE
(41_bit_packer.md R142). -/
def serialise : Nat → List Byte → Byte
  | _, [] => 0#8
  | k, b :: bs => (if b = white then 1#8 <<< (7 - k) else 0#8) ||| serialise (k + 1) bs

/-- The output byte of a group: the complement of the accumulator (41_bit_packer.md R143). -/
def packByte (bs : List Byte) : Byte := ~~~(serialise 0 bs)

/-- PACK_GROUP(i, g) (41_bit_packer.md R143), `p = (i, g)`; none where a source byte has no value. -/
def packGroup (src : Nat → Option Byte) (w : Nat) (out : Memory) (p : Nat × Nat) : Option Memory :=
  match readRun src (p.1 * w + 8 * p.2) 8 with
  | some bs => some (Memory.write out (p.1 * (w / 8) + p.2) (packByte bs))
  | none => none

/-- The groups of row `i` from group `g` on (41_bit_packer.md R141). -/
def rowGroups (w g i : Nat) : List (Nat × Nat) := (List.range' g (w / 8 - g)).map (fun x => (i, x))

/-- The groups of whole rows, row `i` and the `n` rows in all from it on (41_bit_packer.md R141). -/
def rowsGroups (w : Nat) : Nat → Nat → List (Nat × Nat)
  | _, 0 => []
  | i, n + 1 => rowGroups w 0 i ++ rowsGroups w (i + 1) n

/-- The groups that are still to pack from group `g` of row `i` on. -/
def groupsFrom (w h g i : Nat) : List (Nat × Nat) := rowGroups w g i ++ rowsGroups w (i + 1) (h - (i + 1))

/-- Every group of an image, in the order of 41_bit_packer.md R145, R148. -/
def groupOrder (w h : Nat) : List (Nat × Nat) := rowsGroups w 0 h

/-- A sequence of groups packed one after the other; none where a source byte has no value. -/
def packGroups (src : Nat → Option Byte) (w : Nat) : List (Nat × Nat) → Memory → Option Memory
  | [], out => some out
  | p :: ps, out =>
    match packGroup src w out p with
    | some out' => packGroups src w ps out'
    | none => none

/-- The source of the pack stage: IN for PACK, whose unwritten bytes have no value (20_memory.md R74), MONO for
DITHER_PACK (41_bit_packer.md R148; log 12). -/
def Block.packSrc (s : Block) (op : Op) (n : Nat) : Option Byte :=
  match op with
  | .pack => Memory.read? s.inBuf n
  | _ => some (Memory.readOr Config.freeMono s.monoBuf n)

/-- The given groups packed from the command's source into OUT. -/
def Block.packWith (s : Block) (op : Op) (ps : List (Nat × Nat)) : Option Block :=
  match packGroups (s.packSrc op) s.imgW.toNat ps s.outBuf with
  | some m => some { s with outBuf := m }
  | none => none

/-- `pack_all` (41_bit_packer.md R148). -/
def Block.packAll (s : Block) (op : Op) : Option Block :=
  s.packWith op (groupOrder s.imgW.toNat s.imgH.toNat)

/-- The command PACK on an accepted state, for a block of capacity `cap` (41_bit_packer.md R140). -/
def runPack (cap : Nat) (s : Block) : Host.Outcome Block Fault Refusal :=
  match validatePack cap s.imgW s.imgH s.imgLen with
  | some e => .next (s.raiseError e)
  | none =>
    match s.packAll .pack with
    | none => .fault .uninitInput
    | some t => .next ((t.enter .finish).complete t.packedLen)

/-- A CMD write of PACK: dropped while busy, otherwise accepted and run to its completion
(42_command_sequencing.md R160, R161, R169). -/
def Block.commandPack (s : Block) : Host.Outcome Block Fault Refusal :=
  if s.busy then .next s.dropCommand else runPack Config.maxPixels (s.accept .pack)

/-- PACK on the block of a state (41_bit_packer.md R140). -/
def execPack (s : State) : Host.Outcome State Fault Refusal := s.onBlock s.toBlock.commandPack

end Sys2Proof.Machine
end

