-- ==== Sys2Proof/Machine/Sequence.lean ====
section
/-! DEFINITION. The commands DITHER_PACK and ILLEGAL (42_command_sequencing.md R162, R168). -/

namespace Sys2Proof.Machine

/-- The command DITHER_PACK on an accepted state, for a block of capacity `cap`: dither IN into MONO, then pack
MONO into OUT (42_command_sequencing.md R162). -/
def runDitherPack (cap : Nat) (s : Block) : Host.Outcome Block Fault Refusal :=
  match validatePack cap s.imgW s.imgH s.imgLen with
  | some e => .next (s.raiseError e)
  | none =>
    match s.ditherScan with
    | none => .fault .uninitInput
    | some t =>
      match t.packAll .ditherPack with
      | none => .fault .uninitInput
      | some u => .next ((u.enter .finish).complete u.packedLen)

/-- A CMD write of DITHER_PACK: dropped while busy, otherwise accepted and run to its completion
(42_command_sequencing.md R160, R161, R169). -/
def Block.commandDitherPack (s : Block) : Host.Outcome Block Fault Refusal :=
  if s.busy then .next s.dropCommand else runDitherPack Config.maxPixels (s.accept .ditherPack)

/-- DITHER_PACK on the block of a state (42_command_sequencing.md R162). -/
def execDitherPack (s : State) : Host.Outcome State Fault Refusal := s.onBlock s.toBlock.commandDitherPack

/-- A CMD write of a word that decodes to ILLEGAL: dropped while busy (42_command_sequencing.md R161); otherwise
accepted (R160), and it ends at once with ILLEGAL_COMMAND, whatever the word (R85, R168). -/
def Block.commandIllegal (s : Block) (_word : Word) : Host.Outcome Block Fault Refusal :=
  if s.busy then .next s.dropCommand else .next ((s.accept .illegal).raiseError .illegalCommand)

/-- ILLEGAL on the block of a state (42_command_sequencing.md R168). -/
def execIllegal (word : Word) (s : State) : Host.Outcome State Fault Refusal :=
  s.onBlock (s.toBlock.commandIllegal word)

end Sys2Proof.Machine
end

