-- ==== Sys2Proof/Machine/Bus.lean ====
section
/-! DEFINITION. The bus slave port (20_memory.md): the address map, register and buffer accesses, bus errors. `cap` is the block's MAX_PIXELS. -/

namespace Sys2Proof.Machine

/-! ### The address map -/

/-- The windows of the block offset space (20_memory.md R52). -/
inductive Window where
  | reg | inBuf | mono | out | unmapped
  deriving DecidableEq, Repr

/-- The window an offset lies in (20_memory.md R52). -/
def windowOf (a : Offset) : Window :=
  if a.toNat < 0x1000 then .reg
  else if a.toNat < 0x1000000 then .unmapped
  else if a.toNat < 0x2000000 then .inBuf
  else if a.toNat < 0x3000000 then .mono
  else if a.toNat < 0x3200000 then .out
  else .unmapped

/-- The offset of a window's byte 0 (20_memory.md R52). -/
def Window.base : Window → Nat
  | .reg => 0
  | .inBuf => 0x1000000
  | .mono => 0x2000000
  | .out => 0x3000000
  | .unmapped => 0

/-- How many bytes of a window are backed (20_memory.md R52, R53; 10_state.md R31). -/
def Window.backed (cap : Nat) : Window → Nat
  | .reg => 0x1000
  | .inBuf => cap
  | .mono => cap
  | .out => Config.outSize cap
  | .unmapped => 0

/-- The registers by their offset (10_state.md R20); every other offset of the window is RESERVED (R33). -/
inductive Reg where
  | cmd | status | irqEn | width | height | inLen | outLen | capacity | reserved
  deriving DecidableEq, Repr

/-- The register at a 4-aligned offset of the register window (10_state.md R20). -/
def regAt (off : Nat) : Reg :=
  match off with
  | 0x000 => .cmd
  | 0x004 => .status
  | 0x008 => .irqEn
  | 0x00C => .width
  | 0x010 => .height
  | 0x014 => .inLen
  | 0x018 => .outLen
  | 0x01C => .capacity
  | _ => .reserved

/-- Whether a transaction is one the port performs: size 4 and 4-aligned in the register window
(20_memory.md R55), naturally aligned with every byte backed in a buffer window (R56), and no write to MONO or
OUT (R58). Every other one is a bus error (R59, R60). -/
def legalAccess (cap : Nat) (t : Transaction) : Bool :=
  let w := windowOf t.addr
  let n := t.access.size.bytes
  match w with
  | .reg => decide (t.access.size = .word ∧ t.addr.toNat % 4 = 0)
  | .unmapped => false
  | _ =>
    decide (t.addr.toNat % n = 0 ∧ t.addr.toNat - w.base + n ≤ w.backed cap) &&
      match t.access with
      | .read _ => true
      | .write _ => w == .inBuf

/-! ### Register accesses -/

/-- The value a register reads as (10_state.md R21 to R29, R33); no read has a side effect (20_memory.md R61). -/
def readReg (cap : Nat) (s : Block) : Reg → Word
  | .cmd => 0#32
  | .status => s.statusWord
  | .irqEn => s.irqEnWord
  | .width => s.width
  | .height => s.height
  | .inLen => s.inLen
  | .outLen => s.outLen
  | .capacity => BitVec.ofNat 32 cap
  | .reserved => 0#32

/-- The effect of a register write (10_state.md R21 to R29, R33, R61). A CMD write issues its command: it is
decoded at the moment it takes effect (20_memory.md R71) and accepted or dropped (42_command_sequencing.md R160,
R161). -/
def writeReg (s : Block) (v : Word) : Reg → Block
  | .cmd => s.issue (Op.of (decode v))
  | .status => s.writeStatus v
  | .irqEn => { s with doneIe := v.getLsbD 0 }
  | .width => { s with width := v }
  | .height => { s with height := v }
  | .inLen => { s with inLen := v }
  | .outLen => s
  | .capacity => s
  | .reserved => s

/-! ### Buffer accesses -/

/-- The memory of a buffer window. -/
def bufferOf (s : Block) : Window → Memory
  | .inBuf => s.inBuf
  | .mono => s.monoBuf
  | .out => s.outBuf
  | _ => []

/-- Byte `n` of a window as the host reads it: exact where it has been written, and a free value, drawn from `free` at
the byte's offset, where it has not (10_state.md R45) or where MONO or OUT is read while BUSY (20_memory.md R63). -/
def Block.readByte (free : Nat → Byte) (s : Block) (w : Window) (n : Nat) : Byte :=
  if s.busy && (w == .mono || w == .out) then free (w.base + n)
  else (Memory.read? (bufferOf s w) n).getD (free (w.base + n))

/-- The value of a legal buffer read of a size at index `n` of a window (20_memory.md R57). -/
def Block.readBuffer (free : Nat → Byte) (s : Block) (w : Window) (n : Nat) (sz : Size) : Data :=
  Data.ofBytes sz (fun k => s.readByte free w (n + k))

/-- A legal write to IN at index `n` (20_memory.md R57). While BUSY = 1 the bytes are stored and the model records
HOST_MUTATED_INPUT (R64). -/
def writeIn (s : Block) (n : Nat) (d : Data) : Block :=
  let t := { s with inBuf := Memory.writeRun s.inBuf n d.bytes }
  if s.busy then t.recordFault .hostMutatedInput else t

/-! ### A transaction on the block -/

/-- A legal READ of a size at an offset: its value (20_memory.md R55, R57). -/
def Block.readAt (cap : Nat) (free : Nat → Byte) (s : Block) (a : Offset) (sz : Size) : Data :=
  match windowOf a with
  | .reg => .word (readReg cap s (regAt a.toNat))
  | w => s.readBuffer free w (a.toNat - w.base) sz

/-- A legal WRITE of a value at an offset (20_memory.md R55, R57). A legal register write has a 32-bit value. -/
def writeValue (s : Block) (a : Offset) (d : Data) : Block :=
  match windowOf a, d with
  | .reg, .word v => writeReg s v (regAt a.toNat)
  | .inBuf, d => writeIn s (a.toNat - Window.inBuf.base) d
  | _, _ => s

/-- What one bus transaction does to the block (20_memory.md R54 to R64), whole at one point (R62): a READ nothing
(R61), a bus error nothing (R60). -/
def Block.access (cap : Nat) (t : Transaction) (s : Block) : Block :=
  if legalAccess cap t then
    match t.access with
    | .read _ => s
    | .write d => writeValue s t.addr d
  else s

/-- What the port answers to one bus transaction (20_memory.md R54, R60). -/
def Block.reply (cap : Nat) (free : Nat → Byte) (t : Transaction) (s : Block) : Response :=
  if legalAccess cap t then
    match t.access with
    | .read sz => .okayRead (s.readAt cap free t.addr sz)
    | .write _ => .okay
  else .error

/-! ### A transaction of the host -/

/-- Byte `n` of a window as the host reads it now: a free value is that of the read's number (log 7). -/
def hostByte (s : State) (w : Window) (n : Nat) : Byte := s.toBlock.readByte (Config.freeByte s.draws) w n

/-- The value of a legal READ of a size at an offset, as the host reads it now (log 7). -/
def readValue (cap : Nat) (s : State) (a : Offset) (sz : Size) : Data :=
  s.toBlock.readAt cap (Config.freeByte s.draws) a sz

/-- Whether a transaction is a READ that the port performs. -/
def Transaction.reads (cap : Nat) (t : Transaction) : Bool :=
  legalAccess cap t && match t.access with
    | .read _ => true
    | .write _ => false

/-- The host hears the port's answer to a transaction; every read takes the next number of free values with it
(logs 6, 7). The block is not touched. -/
def State.hear (cap : Nat) (t : Transaction) (s : State) : State :=
  { s with
    resp := some (s.toBlock.reply cap (Config.freeByte s.draws) t)
    draws := if t.reads cap then s.draws + 1 else s.draws }

/-- One bus transaction of the host: its effect on the block, and the answer the host hears. -/
def hostAccess (cap : Nat) (t : Transaction) (s : State) : State :=
  { s.hear cap t with toBlock := s.toBlock.access cap t }

/-- One access at a system address (20_memory.md R51): it reaches the block placed at `base` as a transaction at
the offset from there, or it does not reach the block, which then does nothing and gives no response (log 8). -/
def systemAccess (cap base : Nat) (addr : Nat) (x : Access) (s : State) : State :=
  match blockOffset? base addr with
  | some a => hostAccess cap ⟨a, x⟩ s
  | none => s

end Sys2Proof.Machine
end

