-- ==== Sys2Proof/Machine/Engine.lean ====
section
/-! DEFINITION. The engine at its three grains (42_command_sequencing.md R169, R170): the rest of the command, the rest of a stage, one visit. `cap` is the block's MAX_PIXELS. -/

namespace Sys2Proof.Machine

/-- The stage that follows a stage of a command, in the fixed order of 42_command_sequencing.md R169; none where
the command has no such stage or the stage is its last. -/
def nextStage : Op → Stage → Option Stage
  | .dither, .validate => some .copy
  | .dither, .copy => some .scan
  | .dither, .scan => some .finish
  | .pack, .validate => some .pack
  | .pack, .pack => some .finish
  | .ditherPack, .validate => some .copy
  | .ditherPack, .copy => some .scan
  | .ditherPack, .scan => some .pack
  | .ditherPack, .pack => some .finish
  | _, _ => none

/-- The output length of a successful command (10_state.md R28). -/
def Block.outputLen (s : Block) : Nat :=
  match s.op with
  | .dither => s.pixels
  | _ => s.packedLen

/-- VALIDATE: the error, or on to the next stage (42_command_sequencing.md R163 to R166, R168). -/
def validateStage (cap : Nat) (s : Block) : Host.Outcome Block Fault Refusal :=
  match validate cap s.op s.imgW s.imgH s.imgLen with
  | some e => .next (s.raiseError e)
  | none =>
    match nextStage s.op .validate with
    | some st => .next (s.enter st)
    | none => .refused .stageNotOfCommand

/-- A stage that gives a new state, or meets an unwritten IN byte, and then goes on to the stage after it. -/
def leaveStage (st : Stage) (r : Option Block) : Host.Outcome Block Fault Refusal :=
  match r with
  | none => .fault .uninitInput
  | some t =>
    match nextStage t.op st with
    | some next => .next (t.enter next)
    | none => .refused .stageNotOfCommand

/-- FINISH: `complete(len)` (42_command_sequencing.md R167, R169); the one stage without a next one. -/
def finishStage (s : Block) : Host.Outcome Block Fault Refusal :=
  match s.op with
  | .illegal => .refused .stageNotOfCommand
  | _ => .next (s.complete s.outputLen)

/-- The rest of the running command's stage (42_command_sequencing.md R170). -/
def stageRest (cap : Nat) (s : Block) : Host.Outcome Block Fault Refusal :=
  match s.stage with
  | .validate => validateStage cap s
  | .copy => leaveStage .copy s.copyIn
  | .scan => leaveStage .scan (some (s.scan (visitsFrom s.dir s.imgW s.imgH s.j s.i)))
  | .pack =>
    leaveStage .pack (s.packWith s.op (groupsFrom s.imgW.toNat s.imgH.toNat (s.j / 8).toNat s.i))
  | .finish => finishStage s

/-- One visit of SCAN, then the position moves on: along the row in its direction, then to the next row
(40_dither_engine.md R103, R104, R113). -/
def scanVisit (s : Block) : Host.Outcome Block Fault Refusal :=
  let t := s.scan [(s.j, s.i)]
  let j' := s.j + s.dir.step
  if 0 ≤ j' ∧ j' < s.imgW then .next { t with j := j' }
  else if (s.i + 1 : Int) < s.imgH then
    .next { t with i := s.i + 1, j := (dirOf (s.i + 1)).start s.imgW, dir := dirOf (s.i + 1) }
  else leaveStage .scan (some t)

/-- One group of PACK, then the position moves on: along the row left to right, then to the next row
(41_bit_packer.md R141, R148). -/
def packVisit (s : Block) : Host.Outcome Block Fault Refusal :=
  match s.packWith s.op [(s.i, (s.j / 8).toNat)] with
  | none => .fault .uninitInput
  | some t =>
    if s.j + 8 < s.imgW then .next { t with j := s.j + 8 }
    else if (s.i + 1 : Int) < s.imgH then .next { t with i := s.i + 1, j := 0, dir := dirOf (s.i + 1) }
    else leaveStage .pack (some t)

/-- The engine's smallest step: one visit of SCAN, one group of PACK, or one of the other stages
(42_command_sequencing.md R170). A stage the command does not have is refused. -/
def visitStep (cap : Nat) (s : Block) : Host.Outcome Block Fault Refusal :=
  match s.stage with
  | .scan => if (nextStage s.op .scan).isSome then scanVisit s else .refused .stageNotOfCommand
  | .pack => if (nextStage s.op .pack).isSome then packVisit s else .refused .stageNotOfCommand
  | _ => stageRest cap s

/-- At most `fuel` stages of the running command, stopping at its end. -/
def runStages (cap : Nat) : Nat → Block → Host.Outcome Block Fault Refusal
  | 0, s => .next s
  | fuel + 1, s =>
    match stageRest cap s with
    | .next t => if t.busy then runStages cap fuel t else .next t
    | .fault r => .fault r
    | .refused r => .refused r

/-- The rest of the running command: no command has more than five stages (42_command_sequencing.md R169, R170). -/
def commandRest (cap : Nat) (s : Block) : Host.Outcome Block Fault Refusal := runStages cap 5 s

end Sys2Proof.Machine
end

