-- ==== Sys2Proof/Machine/Agents.lean ====
section
/-! DEFINITION. The step relation of the block, one event its parameter (42_command_sequencing.md R170), and the turns of the machine that it gives: HOST, ENGINE, RESET. -/

namespace Sys2Proof.Machine

/-! ### The step relation of the block -/

/-- A turn of HOST or ENGINE on a block: a faulted state stays faulted (42_command_sequencing.md R170). -/
def unlessFaulted (s : Block) (o : Host.Outcome Block Fault Refusal) : Host.Outcome Block Fault Refusal :=
  match s.fault with
  | some r => .fault r
  | none => o

/-- `fault(REASON)` raised by the engine in the course of a turn is recorded in the state and never cleared
(10_state.md R46); `s` is the block as the engine's step found it. DEDUCED (log 9): the turn that meets the fault
leaves the faulted state, and every later one answers it (42_command_sequencing.md R170). -/
def orRecorded (s : Block) (o : Host.Outcome Block Fault Refusal) : Host.Outcome Block Fault Refusal :=
  match o with
  | .next t => .next t
  | .fault r => .next (s.recordFault r)
  | .refused r => .refused r

/-- A turn of ENGINE at the grain `run`: enabled when `phase = RUN` (R170); with `phase = IDLE` it does nothing
(60_exceptions.md R225). -/
def engineTurn (run : Block → Host.Outcome Block Fault Refusal) (s : Block) : Host.Outcome Block Fault Refusal :=
  if s.busy then orRecorded s (run s) else .next s

/-- A command on the block: what `exec` does to the block of a state. -/
def Block.command (i : Instr) (s : Block) : Host.Outcome Block Fault Refusal :=
  match i with
  | .dither => s.commandDither
  | .pack => s.commandPack
  | .ditherPack => s.commandDitherPack
  | .illegal w => s.commandIllegal w

/-- The word is written to CMD, and an accepted command runs to its end; a fault on the way is recorded in the
accepted block. -/
def commandTurn (w : Word) (s : Block) : Host.Outcome Block Fault Refusal :=
  orRecorded (s.issue (Op.of (decode w))) (s.command (decode w))

/-- An access at a system address on the block (20_memory.md R51). -/
def Block.systemAccess (cap base : Nat) (addr : Nat) (x : Access) (s : Block) : Block :=
  match blockOffset? base addr with
  | some a => s.access cap ⟨a, x⟩
  | none => s

/-- THE STEP RELATION of the block (42_command_sequencing.md R170): the outcome of one event on the record of
10_state.md R46. The event, a host access among them, is the relation's parameter and no part of the state. -/
def Block.turn (e : Event) (s : Block) : Host.Outcome Block Fault Refusal :=
  match e with
  | .host t => unlessFaulted s (.next (s.access Config.maxPixels t))
  | .system a x => unlessFaulted s (.next (s.systemAccess Config.maxPixels Config.base a x))
  | .command w => unlessFaulted s (commandTurn w s)
  | .engine => unlessFaulted s (engineTurn (commandRest Config.maxPixels) s)
  | .engineStage => unlessFaulted s (engineTurn (stageRest Config.maxPixels) s)
  | .engineVisit => unlessFaulted s (engineTurn (visitStep Config.maxPixels) s)
  | .reset => .next s.resetBlock

/-! ### The turns of the machine -/

/-- What the environment beside the block hears of an event: the port's answer to an access (log 6), OKAY to a CMD
write (20_memory.md R54), no answer standing after a reset. The block is not touched. -/
def State.heard (e : Event) (s : State) : State :=
  match e with
  | .host t => s.hear Config.maxPixels t
  | .system a x =>
    match blockOffset? Config.base a with
    | some o => s.hear Config.maxPixels ⟨o, x⟩
    | none => s
  | .command _ => { s with resp := some .okay }
  | .engine => s
  | .engineStage => s
  | .engineVisit => s
  | .reset => { s with resp := none }

/-- What one event does: the step relation on the block, and what the environment hears of it. -/
def takeTurn (e : Event) (s : State) : Host.Outcome State Fault Refusal :=
  (s.heard e).onBlock (s.toBlock.turn e)

/-- The machine's next turn: the next event of the schedule; with nothing scheduled, a running command runs on and
an idle block waits (log 2). -/
def nextTurn (s : State) : Host.Outcome State Fault Refusal :=
  match s.sched with
  | e :: rest => takeTurn e { s with sched := rest }
  | [] => takeTurn .engine s

/-- The command word of `nbits` bits as the next CMD write that runs to its end (log 14). -/
def scheduleWord (s : State) (nbits w : Nat) : State :=
  { s with sched := .command (BitVec.ofNat 32 (w % 2 ^ nbits)) :: s.sched }

end Sys2Proof.Machine
end

