-- ==== Sys2Proof/Machine/HostProgram.lean ====
section
/-! DEFINITION. Host programs (30_encoding.md R86, R87): the symbols, the host instructions and the pseudo-instructions, each as the bus transactions it stands for. -/

namespace Sys2Proof.Machine

/-! ### Symbols (R86) -/

def Sym.cmd : Offset := 0x000#26
def Sym.status : Offset := 0x004#26
def Sym.irqEn : Offset := 0x008#26
def Sym.width : Offset := 0x00C#26
def Sym.height : Offset := 0x010#26
def Sym.inLen : Offset := 0x014#26
def Sym.outLen : Offset := 0x018#26
def Sym.capacity : Offset := 0x01C#26

/-- `IN+n`. R86 says that it is the offset 0x1000000 + n. Where the sum is 2^26 or more it is no block offset
(20_memory.md R50) and the spec gives the symbol no meaning: DESIGN CHOICE (log 15), the sum is taken modulo 2^26. -/
def Sym.inAt (n : Nat) : Offset := BitVec.ofNat 26 (0x1000000 + n)

/-- `MONO+n`, the offset 0x2000000 + n (R86); DESIGN CHOICE (log 15) where the sum is 2^26 or more: modulo 2^26. -/
def Sym.monoAt (n : Nat) : Offset := BitVec.ofNat 26 (0x2000000 + n)

/-- `OUT+n`, the offset 0x3000000 + n (R86); DESIGN CHOICE (log 15) where the sum is 2^26 or more: modulo 2^26. -/
def Sym.outAt (n : Nat) : Offset := BitVec.ofNat 26 (0x3000000 + n)

/-! ### Host instructions (R86) -/

def rd8 (a : Offset) : Transaction := ⟨a, .read .byte⟩
def rd16 (a : Offset) : Transaction := ⟨a, .read .half⟩
def rd32 (a : Offset) : Transaction := ⟨a, .read .word⟩
def wr8 (a : Offset) (v : BitVec 8) : Transaction := ⟨a, .write (.byte v)⟩
def wr16 (a : Offset) (v : BitVec 16) : Transaction := ⟨a, .write (.half v)⟩
def wr32 (a : Offset) (v : BitVec 32) : Transaction := ⟨a, .write (.word v)⟩

/-! ### Pseudo-instructions (R87) -/

/-- `DITHER`, `PACK` and `DITHER_PACK`: a CMD write of the command's word. -/
def pseudoCommand (i : Instr) : List Transaction := [wr32 Sym.cmd (encode i)]

/-- `ISSUE w`: any 32-bit word, including ILLEGAL ones. -/
def pseudoIssue (w : Word) : List Transaction := [wr32 Sym.cmd w]

/-- `CONFIG w, h, len`. -/
def pseudoConfig (w h len : Word) : List Transaction :=
  [wr32 Sym.width w, wr32 Sym.height h, wr32 Sym.inLen len]

/-- `LOAD8 IN+n, b0, b1, ...`. -/
def pseudoLoad8 (n : Nat) (bs : List Byte) : List Transaction :=
  bs.zipIdx.map (fun p => wr8 (Sym.inAt (n + p.2)) p.1)

/-- `FILL8 IN+n, c, v`. -/
def pseudoFill8 (n c : Nat) (v : Byte) : List Transaction := pseudoLoad8 n (List.replicate c v)

/-- `POLL off, mask, val` that makes `k + 1` reads; the number of reads is not fixed
(70_reset_and_hazards.md R252), so it is an argument. -/
def pseudoPoll (a : Offset) (k : Nat) : List Transaction := List.replicate (k + 1) (rd32 a)

/-- Whether a poll ends with the read just made: `(t & mask) = val`. -/
def pollSatisfied (mask val : Word) (s : State) : Bool :=
  match s.resp with
  | some (.okayRead (.word t)) => t &&& mask == val
  | _ => false

/-- Whether a poll ends with the last of the states right after its reads: "ending with the first read whose value
satisfies the test". -/
def pollEnds (mask val : Word) : List State → Bool
  | [] => false
  | [s] => pollSatisfied mask val s
  | s :: rest => !pollSatisfied mask val s && pollEnds mask val rest

/-- `WAIT_DONE`: a poll of STATUS for `0x00000002`. -/
def pseudoWaitDone (k : Nat) : List Transaction := pseudoPoll Sym.status k

/-- Whether a `WAIT_DONE` ends with the read just made. -/
def waitDoneSatisfied (s : State) : Bool := pollSatisfied 0x00000002#32 0x00000002#32 s

/-- `ACK`: clears DONE only. -/
def pseudoAck : List Transaction := [wr32 Sym.status 0x00000002#32]

/-- The transactions of a program as events, one after the other. -/
def hostEvents (ts : List Transaction) : List Event := ts.map .host

end Sys2Proof.Machine
end

