-- ==== Sys2Proof/Safety.lean ====
section
/-! DEFINITION. What counts as a well-formed state and a safe run: the invariant every step keeps, buffers written over a range, and the visit-by-visit run of a command. -/

namespace Sys2Proof.Machine

/-- Every listed index lies below `n`. -/
def Memory.below (n : Nat) (m : Memory) : Bool := m.all (fun c => decide (c.1 < n))

/-- Every index below `n` has been written. -/
def Memory.covers (m : Memory) (n : Nat) : Prop := ∀ k, k < n → (Memory.read? m k).isSome = true

/-- Every byte below `n` is one of the two sentinel samples (40_dither_engine.md R101). -/
def Memory.twoValued (m : Memory) (n : Nat) : Prop :=
  ∀ k, k < n → Memory.read? m k = some white ∨ Memory.read? m k = some black

/-- The buffers are in canonical form and hold nothing beyond their sizes (10_state.md R31). -/
def Block.BuffersOk (cap : Nat) (s : Block) : Prop :=
  s.inBuf.wf = true ∧ s.monoBuf.wf = true ∧ s.outBuf.wf = true ∧
  s.inBuf.below cap = true ∧ s.monoBuf.below cap = true ∧ s.outBuf.below (Config.outSize cap) = true

/-- The status is legal: ERR is 0 to 3, and `BUSY = 1 => DONE = 0 and ERR = 0` (10_state.md R22), with
OUT_LEN = 0 (R28). -/
def Block.StatusOk (s : Block) : Prop :=
  s.err.toNat ≤ 3 ∧ (s.busy = true → s.done = false ∧ s.err = 0#4 ∧ s.outLen = 0#32)

/-- The checks of the running command have passed (42_command_sequencing.md R165 (d)). -/
def Block.Validated (cap : Nat) (s : Block) : Prop :=
  validate cap s.op s.imgW s.imgH s.imgLen = none

/-- The direction is always that of the row (10_state.md R40), and a running command's position is one its stages
have (42_command_sequencing.md R169; 10_state.md R40). -/
def Block.PositionOk (cap : Nat) (s : Block) : Prop :=
  s.dir = dirOf s.i ∧
  (s.busy = true →
    match s.stage with
    | .validate => s.i = 0 ∧ s.j = 0
    | .copy => (s.op = .dither ∨ s.op = .ditherPack) ∧ s.Validated cap
    | .scan => (s.op = .dither ∨ s.op = .ditherPack) ∧ s.Validated cap ∧
        (s.i : Int) < s.imgH ∧ 0 ≤ s.j ∧ s.j < s.imgW ∧ s.monoBuf.covers s.pixels
    | .pack => (s.op = .pack ∨ s.op = .ditherPack) ∧ s.Validated cap ∧
        (s.i : Int) < s.imgH ∧ 0 ≤ s.j ∧ s.j < s.imgW ∧ s.j % 8 = 0 ∧
        (s.op = .ditherPack → s.monoBuf.covers s.pixels)
    | .finish => s.Validated cap)

/-- The invariant of the machine with capacity `cap`. -/
def Block.Inv (cap : Nat) (s : Block) : Prop := s.BuffersOk cap ∧ s.StatusOk ∧ s.PositionOk cap

/-- `W` as WIDTH holds it before a command is accepted (10_state.md R25). -/
def Block.regW (s : Block) : Int := s.width.toInt

/-- `H` as HEIGHT holds it before a command is accepted (10_state.md R26). -/
def Block.regH (s : Block) : Int := s.height.toInt

/-- `N = W * H` for the registers as they stand (30_encoding.md R84). -/
def Block.regN (s : Block) : Nat := (s.regW * s.regH).toNat

/-- The block is idle and its registers and IN meet every condition of a successful DITHER
(42_command_sequencing.md R163, 20_memory.md R74). -/
def Block.DitherReady (s : Block) : Prop :=
  s.phase = .idle ∧ 0 < s.regW ∧ 0 < s.regH ∧ (s.inLen.toNat : Int) = s.regW * s.regH ∧
  s.regW * s.regH ≤ (Config.maxPixels : Int) ∧ s.inBuf.covers s.regN

/-- The block is idle and its registers and IN meet every condition of a successful PACK or DITHER_PACK
(42_command_sequencing.md R164). -/
def Block.PackReady (s : Block) : Prop := s.DitherReady ∧ s.regW % 8 = 0

/-- The state right after a command that was issued at `s` and accepted has ended with ERR = `err`,
OUT_LEN = `len`, in the stage `st` (42_command_sequencing.md R160, R166, R167): nothing but the status, OUT_LEN
and the engine's own state differs from `s`. The position after a completion is the model's choice (log 13). -/
def State.endedWith (s : State) (op : Op) (st : Stage) (err : BitVec 4) (len : Nat) : State :=
  { s with
    op := op, latW := s.width, latH := s.height, latLen := s.inLen
    phase := .idle, stage := st, i := 0, j := 0, dir := .forward
    done := true, err := err, outLen := BitVec.ofNat 32 len }

/-- Everything of the block that a command never touches: the host's registers, IN and a recorded fault
(10_state.md R31, R32, R41; 20_memory.md R58). -/
def Block.KeepsHostSide (s t : Block) : Prop :=
  t.doneIe = s.doneIe ∧ t.width = s.width ∧ t.height = s.height ∧ t.inLen = s.inLen ∧
  t.inBuf = s.inBuf ∧ t.fault = s.fault

/-- Everything a command never touches: of the block, and the environment beside it. -/
def State.KeepsHostSide (s t : State) : Prop :=
  s.toBlock.KeepsHostSide t.toBlock ∧ t.resp = s.resp ∧ t.draws = s.draws ∧ t.sched = s.sched

/-- Everything of the running command that a host access never touches (10_state.md R41; 20_memory.md R58). -/
def Block.KeepsEngineSide (s t : Block) : Prop :=
  t.phase = s.phase ∧ t.op = s.op ∧ t.latW = s.latW ∧ t.latH = s.latH ∧ t.latLen = s.latLen ∧
  t.stage = s.stage ∧ t.i = s.i ∧ t.j = s.j ∧ t.dir = s.dir ∧
  t.err = s.err ∧ t.outLen = s.outLen ∧ t.monoBuf = s.monoBuf ∧ t.outBuf = s.outBuf

/-- Bytes `[0, n)` of two memories read alike. -/
def Memory.agree (m m' : Memory) (n : Nat) : Prop := ∀ k, k < n → Memory.read? m k = Memory.read? m' k

/-- OUT `[0, (W / 8) * H)` is the packing of the samples `src`: bit `7 - k` of the byte of group `g` of row `i` is
1 exactly when the sample at column `8g + k` is not WHITE (41_bit_packer.md R142, R143). -/
def PackingOf (src out : Memory) (w h : Nat) : Prop :=
  ∀ i g, i < h → g < w / 8 →
    ∃ b, Memory.read? out (i * (w / 8) + g) = some b ∧
      ∀ k, k < 8 → (b.getLsbD (7 - k) = true ↔ Memory.read? src (i * w + 8 * g + k) ≠ some white)

/-- The transaction writes the CMD register. -/
def Transaction.isCmdWrite (t : Transaction) : Bool :=
  t.addr == 0#26 && match t.access with
    | .write (.word _) => true
    | _ => false

/-- The transaction is a write of STATUS with bit `k` set. -/
def Transaction.clears (t : Transaction) (k : Nat) : Bool :=
  t.addr == 0x004#26 && match t.access with
    | .write (.word v) => v.getLsbD k
    | _ => false

/-- The bus transaction that an event makes at the block, by block offset or by system address (20_memory.md R51,
R54), if it makes one. -/
def Event.transaction? : Event → Option Transaction
  | .host t => some t
  | .system a x => (blockOffset? Config.base a).map (fun o => ⟨o, x⟩)
  | .command _ => none
  | .engine => none
  | .engineStage => none
  | .engineVisit => none
  | .reset => none

/-- The bus transaction that the next event makes at the block, if it makes one. -/
def State.nextTransaction? (s : State) : Option Transaction := s.sched.head?.bind Event.transaction?

/-- The running command visit by visit (42_command_sequencing.md R170, "at finer grain"), at most `fuel` engine
steps, stopping at its end. -/
def runVisits (cap : Nat) : Nat → Block → Host.Outcome Block Fault Refusal
  | 0, s => .next s
  | fuel + 1, s =>
    match visitStep cap s with
    | .next t => if t.busy then runVisits cap fuel t else .next t
    | .fault r => .fault r
    | .refused r => .refused r

end Sys2Proof.Machine
end

