-- ==== Sys2Proof/Certificates/Slice0/Obligations.lean ====
section
/-! DEFINITION. The statements about the block, each from the rules of spec/ that its docstring names. -/

open Sys2Proof Sys2Proof.Machine

/-! ### Encoding -/

/-- Every one of the 2^32 words decodes to exactly one command, and exactly three words are not ILLEGAL
(30_encoding.md R83). -/
def Obligations.DecodeNamesEveryWord : Prop :=
  ∀ w : Word,
    (decode w = .dither ↔ w = 0x00000001#32) ∧ (decode w = .pack ↔ w = 0x00000002#32) ∧
    (decode w = .ditherPack ↔ w = 0x00000003#32) ∧
    (w ∉ legalWords → decode w = .illegal w)

/-- Decoding an encoded well-formed command gives it back, encoding a decoded word gives it back, and the decoder
gives well-formed commands only (30_encoding.md R82, R83). -/
def Obligations.DecodeAndEncodeAgree : Prop :=
  (∀ i : Instr, i.wf = true → decode (encode i) = i) ∧
  ∀ w : Word, encode (decode w) = w ∧ (decode w).wf = true

/-- Words of each kind: the three commands, a reserved OP, and a legal OP beside a non-zero RSVD bit
(30_encoding.md R82, R85). -/
def Obligations.SampleWordsDecode : Prop :=
  decode 0x00000001#32 = .dither ∧ decode 0x00000002#32 = .pack ∧ decode 0x00000003#32 = .ditherPack ∧
  decode 0x00000000#32 = .illegal 0x00000000#32 ∧ decode 0x0000000F#32 = .illegal 0x0000000F#32 ∧
  decode 0x00000011#32 = .illegal 0x00000011#32 ∧ decode 0x80000001#32 = .illegal 0x80000001#32

/-! ### Steps -/

/-- With a command word as the next event and no fault recorded, a step is `exec` of the decoded command, on the
state past that event with the write answered OKAY: `exec` is never refused, its next state is the step's, and a fault
that it answers is recorded in the accepted state; `withFetchWord` places such a word (20_memory.md R71,
42_command_sequencing.md R169). That the word stands in a schedule, and that the turn that meets a fault records it,
are the model's choice and reading (logs 1, 9, 14). -/
def Obligations.StepRunsTheDecodedCommand : Prop :=
  (∀ (i : Instr) (s : State) (r : Refusal), exec i s ≠ .refused r) ∧
  (∀ (s : State) (w : Word) (rest : List Event), s.sched = .command w :: rest → s.fault = none →
    (∀ t, exec (decode w) { s with sched := rest, resp := some .okay } = .next t → step s = .next t) ∧
    ∀ r, exec (decode w) { s with sched := rest, resp := some .okay } = .fault r →
      step s = .next
        { s with
          toBlock := { s.accept (Op.of (decode w)) with fault := some r }
          sched := rest
          resp := some .okay }) ∧
  ∀ (s : State) (nbits w : Nat) (i : Instr), decodeTableWord nbits w = some i → s.fault = none →
    (∀ t, exec i { s with resp := some .okay } = .next t → step (s.withFetchWord nbits w) = .next t) ∧
    ∀ r, exec i { s with resp := some .okay } = .fault r →
      step (s.withFetchWord nbits w) = .next
        { s with toBlock := { s.accept (Op.of i) with fault := some r }, resp := some .okay }

/-- With no fault recorded, a step does what the next event says, on the state past that event
(42_command_sequencing.md R170); with no event left a running command runs on and an idle block waits
(60_exceptions.md R225; the model's choice, logs 1, 2). A fault that an engine turn meets is recorded in the state
the turn began with, unless one is recorded already (the model's reading, log 9). -/
def Obligations.StepTakesTheScheduledTurn : Prop :=
  (∀ (s : State) (rest : List Event), s.fault = none →
    (∀ t, s.sched = .host t :: rest →
      step s = .next (hostAccess Config.maxPixels t { s with sched := rest })) ∧
    (∀ a x, s.sched = .system a x :: rest →
      step s = .next (systemAccess Config.maxPixels Config.base a x { s with sched := rest })) ∧
    (s.sched = .engine :: rest → s.phase = .run →
      step s = ({ s with sched := rest } : State).onBlock
        (orRecorded s.toBlock (commandRest Config.maxPixels s.toBlock))) ∧
    (s.sched = .engineStage :: rest → s.phase = .run →
      step s = ({ s with sched := rest } : State).onBlock
        (orRecorded s.toBlock (stageRest Config.maxPixels s.toBlock))) ∧
    (s.sched = .engineVisit :: rest → s.phase = .run →
      step s = ({ s with sched := rest } : State).onBlock
        (orRecorded s.toBlock (visitStep Config.maxPixels s.toBlock))) ∧
    (∀ e, e = .engine ∨ e = .engineStage ∨ e = .engineVisit → s.sched = e :: rest → s.phase = .idle →
      step s = .next { s with sched := rest }) ∧
    (s.sched = [] → s.phase = .run → step s = s.onBlock (orRecorded s.toBlock (commandRest Config.maxPixels s.toBlock))) ∧
    (s.sched = [] → s.phase = .idle → step s = .next s)) ∧
  ∀ (s : State) (b c : Block) (r : Fault),
    orRecorded b (.next c) = .next c ∧
    orRecorded b (.fault r) = .next { b with fault := some (b.fault.getD r) } ∧
    s.onBlock (.next c) = .next { s with toBlock := c } ∧ s.onBlock (.fault r) = .fault r

/-- A faulted state stays faulted (42_command_sequencing.md R170), and a reset keeps the recorded fault
(70_reset_and_hazards.md R242). That every step but a reset ANSWERS the recorded fault is the model's reading of
"stays faulted" (DEDUCED, log 9). -/
def Obligations.FaultedStateStaysFaulted : Prop :=
  ∀ (s : State) (r : Fault), s.fault = some r →
    (s.sched.head? ≠ some .reset → step s = .fault r) ∧
    (s.sched.head? = some .reset → ∃ t, step s = .next t ∧ t.fault = some r ∧ t.phase = .idle)

/-! ### Reset -/

/-- From every state, a reset gives every register and the engine their reset values, leaves the buffers
UNSPECIFIED and the interrupt output low, abandons a running command without completing it, clears the record of
written IN bytes and keeps a recorded fault (70_reset_and_hazards.md R240, R241, R242). -/
def Obligations.ResetGivesResetValues : Prop :=
  ∀ (s : State) (rest : List Event), s.sched = .reset :: rest →
    ∃ t, step s = .next t ∧
      readReg Config.maxPixels t.toBlock .status = 0#32 ∧ readReg Config.maxPixels t.toBlock .irqEn = 0#32 ∧
      readReg Config.maxPixels t.toBlock .width = 0#32 ∧ readReg Config.maxPixels t.toBlock .height = 0#32 ∧
      readReg Config.maxPixels t.toBlock .inLen = 0#32 ∧ readReg Config.maxPixels t.toBlock .outLen = 0#32 ∧
      readReg Config.maxPixels t.toBlock .capacity = BitVec.ofNat 32 Config.maxPixels ∧
      t.phase = .idle ∧ t.stage = .validate ∧ t.i = 0 ∧ t.j = 0 ∧ t.dir = .forward ∧
      t.done = false ∧ t.irq = false ∧
      (∀ n, Memory.read? t.inBuf n = none ∧ Memory.read? t.monoBuf n = none ∧
        Memory.read? t.outBuf n = none) ∧
      t.fault = s.fault ∧ t.sched = rest

/-- The invariant holds right after reset. -/
def Obligations.ResetMeetsTheInvariant : Prop := Block.Inv Config.maxPixels State.reset.toBlock

/-! ### Issue -/

/-- A 32-bit CMD write while idle is accepted, whatever its word (42_command_sequencing.md R160). -/
def Obligations.CmdWriteWhileIdleIsAccepted : Prop :=
  ∀ (s : State) (w : Word), s.phase = .idle →
    hostAccess Config.maxPixels ⟨0x000#26, .write (.word w)⟩ s =
      { s with
        op := Op.of (decode w), latW := s.width, latH := s.height, latLen := s.inLen
        phase := .run, stage := .validate, i := 0, j := 0, dir := .forward
        done := false, err := 0#4, outLen := 0#32, resp := some .okay }

/-- A CMD write while busy is dropped: it sets OVR and changes nothing else (42_command_sequencing.md R161). -/
def Obligations.CommandWhileBusyIsDropped : Prop :=
  ∀ (s : State), s.phase = .run →
    (∀ w : Word, hostAccess Config.maxPixels ⟨0x000#26, .write (.word w)⟩ s =
      { s with ovr := true, resp := some .okay }) ∧
    ∀ i : Instr, exec i s = .next { s with ovr := true }

/-! ### Errors -/

/-- INVALID_DIMENSION, code 1, before any buffer access: DITHER when `W <= 0`, `H <= 0` or `LEN != W * H`; PACK and
DITHER_PACK also when `W mod 8 != 0` (60_exceptions.md R201). -/
def Obligations.InvalidDimensionEndsTheCommand : Prop :=
  ∀ s : State, s.phase = .idle →
    (s.regW ≤ 0 ∨ s.regH ≤ 0 ∨ (s.inLen.toNat : Int) ≠ s.regW * s.regH →
      exec .dither s = .next (s.endedWith .dither .validate 1#4 0)) ∧
    (s.regW ≤ 0 ∨ s.regW % 8 ≠ 0 ∨ s.regH ≤ 0 ∨ (s.inLen.toNat : Int) ≠ s.regW * s.regH →
      exec .pack s = .next (s.endedWith .pack .validate 1#4 0) ∧
      exec .ditherPack s = .next (s.endedWith .ditherPack .validate 1#4 0))

/-- ALLOCATION_FAILURE, code 2, after every InvalidDimension check has passed, when `W * H > MAX_PIXELS`
(42_command_sequencing.md R163, R164). -/
def Obligations.AllocationFailureEndsTheCommand : Prop :=
  ∀ s : State, s.phase = .idle → 0 < s.regW → 0 < s.regH → (s.inLen.toNat : Int) = s.regW * s.regH →
    (Config.maxPixels : Int) < s.regW * s.regH →
    exec .dither s = .next (s.endedWith .dither .validate 2#4 0) ∧
    (s.regW % 8 = 0 →
      exec .pack s = .next (s.endedWith .pack .validate 2#4 0) ∧
      exec .ditherPack s = .next (s.endedWith .ditherPack .validate 2#4 0))

/-- An accepted ILLEGAL command ends with ILLEGAL_COMMAND, code 3, whatever the dimensions and the buffers
(42_command_sequencing.md R168). -/
def Obligations.IllegalCommandEndsAtOnce : Prop :=
  ∀ (s : State) (w : Word), s.phase = .idle →
    exec (.illegal w) s = .next (s.endedWith .illegal .validate 3#4 0)

/-- For the dimensions PACK accepts, fitting in MONO and fitting in OUT are the same thing
(60_exceptions.md, the inference after R202). -/
def Obligations.PackFitsInOutExactlyWhenInMono : Prop :=
  ∀ w h : Int, 0 < w → 0 < h → w % 8 = 0 →
    (w * h ≤ (Config.maxPixels : Int) ↔ w / 8 * h ≤ (Config.outSize Config.maxPixels : Int))

/-- A command whose checks pass but whose input has a byte the host has not written since reset is
`fault(UNINIT_INPUT)` (20_memory.md R74). That `exec` ANSWERS the fault and gives no state, and that the step around
it records the fault, is the model's reading (DEDUCED, log 9). -/
def Obligations.UnwrittenInputFaults : Prop :=
  ∀ (s : State) (n : Nat), s.phase = .idle → 0 < s.regW → 0 < s.regH →
    (s.inLen.toNat : Int) = s.regW * s.regH → s.regW * s.regH ≤ (Config.maxPixels : Int) →
    n < s.regN → Memory.read? s.inBuf n = none →
    exec .dither s = .fault .uninitInput ∧
    (s.regW % 8 = 0 →
      exec .pack s = .fault .uninitInput ∧ exec .ditherPack s = .fault .uninitInput)

/-! ### The commands -/

/-- DITHER completes: MONO is the copy of IN after every pixel's VISIT, OUT_LEN is W * H, ERR is 0, and nothing
else but the engine's own state differs (40_dither_engine.md R100, R119; 42_command_sequencing.md R167). The position
that `endedWith` gives after the completion (FINISH, 0, 0, Forward) is the model's choice (log 13). -/
def Obligations.DitherCompletes : Prop :=
  ∀ s : State, s.DitherReady →
    ∃ bs, bs.length = s.regN ∧ (∀ n, n < s.regN → Memory.read? s.inBuf n = bs[n]?) ∧
      exec .dither s = .next
        { s.endedWith .dither .finish 0#4 s.regN with
          monoBuf := (visitOrder s.regW s.regH).foldl (visit Config.freeMono s.regW s.regH)
            (Memory.writeRun s.monoBuf 0 bs) }

/-- PACK completes: OUT `[0, (W / 8) * H)` is the packing of IN, MSB-first and inverted, every other OUT byte keeps
its value, OUT_LEN is (W / 8) * H, ERR is 0, and nothing else but the engine's own state differs
(41_bit_packer.md R142, R143, R146, R148). The position that `endedWith` gives after the completion
(FINISH, 0, 0, Forward) is the model's choice (log 13). -/
def Obligations.PackCompletes : Prop :=
  ∀ s : State, s.PackReady →
    ∃ out, PackingOf s.inBuf out s.regW.toNat s.regH.toNat ∧
      (∀ n, (s.regW / 8 * s.regH).toNat ≤ n → Memory.read? out n = Memory.read? s.outBuf n) ∧
      exec .pack s = .next
        { s.endedWith .pack .finish 0#4 (s.regW / 8 * s.regH).toNat with outBuf := out }

/-- DITHER_PACK completes: MONO equals what DITHER writes from the same IN, OUT is the packing of that MONO,
OUT_LEN is (W / 8) * H, ERR is 0 (42_command_sequencing.md R162). The position that `endedWith` gives after the
completion (FINISH, 0, 0, Forward) is the model's choice (log 13). -/
def Obligations.DitherPackCompletes : Prop :=
  ∀ s : State, s.PackReady →
    ∃ t out, exec .dither s = .next t ∧
      PackingOf t.monoBuf out s.regW.toNat s.regH.toNat ∧
      (∀ n, (s.regW / 8 * s.regH).toNat ≤ n → Memory.read? out n = Memory.read? s.outBuf n) ∧
      exec .ditherPack s = .next
        { s.endedWith .ditherPack .finish 0#4 (s.regW / 8 * s.regH).toNat with
          monoBuf := t.monoBuf, outBuf := out }

/-- The frame of every command: what it leaves unchanged whenever it gives a next state. The host's registers, IN
and the model's own fields never change; while busy only OVR does; while idle OVR stays, MONO changes only by a
successful DITHER or DITHER_PACK and only in `[0, N)`, OUT only by a successful PACK or DITHER_PACK and only in
`[0, (W / 8) * H)` (10_state.md R32; 20_memory.md R58). -/
def Obligations.CommandFrame : Prop :=
  ∀ (i : Instr) (s t : State), exec i s = .next t →
    s.KeepsHostSide t ∧
    (s.phase = .run → t = { s with ovr := true }) ∧
    (s.phase = .idle →
      t.ovr = s.ovr ∧
      (t.err ≠ 0#4 → t.monoBuf = s.monoBuf ∧ t.outBuf = s.outBuf) ∧
      (∀ n, s.regN ≤ n → Memory.read? t.monoBuf n = Memory.read? s.monoBuf n) ∧
      (∀ n, (s.regW / 8 * s.regH).toNat ≤ n → Memory.read? t.outBuf n = Memory.read? s.outBuf n) ∧
      (i = .dither → t.outBuf = s.outBuf) ∧ (i = .pack → t.monoBuf = s.monoBuf) ∧
      (∀ w, i = .illegal w → t.monoBuf = s.monoBuf ∧ t.outBuf = s.outBuf))

/-! ### The Dither Engine -/

/-- The threshold and the residual: WHITE iff `old > 127`; `err` is `old - 255` or `old`, in [-127, 127], and zero
exactly at 0 and 255 (40_dither_engine.md R105 and the inference of R106). -/
def Obligations.ThresholdAndResidual : Prop :=
  ∀ old : Byte,
    (threshold old = if old.toNat > 127 then white else black) ∧
    (residual old = if old.toNat > 127 then (old.toNat : Int) - 255 else (old.toNat : Int)) ∧
    -127 ≤ residual old ∧ residual old ≤ 127 ∧ (residual old = 0 ↔ old = 0#8 ∨ old = 255#8)

/-- A fragment is truncated toward zero: `sign(w * err) * floor(|w * err| / 16)`; it is odd in `err`, zero exactly
when `w * |err| < 16`, and largest in magnitude at `|err| = 127`, where the four weights give 55, 23, 39 and 7
(40_dither_engine.md R109). -/
def Obligations.FragmentTruncatesTowardZero : Prop :=
  (∀ w err : Int, 0 < w →
    frag w err = (w * err).sign * (((w * err).natAbs / 16 : Nat) : Int) ∧
    frag w (-err) = -frag w err ∧ (frag w err = 0 ↔ w * (err.natAbs : Int) < 16) ∧
    (-127 ≤ err → err ≤ 127 → (frag w err).natAbs ≤ (frag w 127).natAbs)) ∧
  frag 7 127 = 55 ∧ frag 3 127 = 23 ∧ frag 5 127 = 39 ∧ frag 1 127 = 7 ∧
  frag 7 (-1) = 0 ∧ frag 7 15 = 6

/-- The four targets of a visit with their weights over 16, in each direction (40_dither_engine.md R107). -/
def Obligations.TargetsFollowTheTable : Prop :=
  ∀ (i : Nat) (j : Int),
    (i % 2 = 0 → targets (dirOf i) j i =
      [(j + 1, (i : Int), 7), (j - 1, (i : Int) + 1, 3), (j, (i : Int) + 1, 5), (j + 1, (i : Int) + 1, 1)]) ∧
    (i % 2 = 1 → targets (dirOf i) j i =
      [(j - 1, (i : Int), 7), (j + 1, (i : Int) + 1, 3), (j, (i : Int) + 1, 5), (j - 1, (i : Int) + 1, 1)])

/-- Accumulation wraps modulo 256, above 255 and below 0, with the rule's two examples: 55 onto 255 is stored as 54
and thresholds BLACK, -55 onto 0 is stored as 201 and thresholds WHITE (40_dither_engine.md R111). -/
def Obligations.AccumulationWraps : Prop :=
  (∀ (old : Byte) (f : Int), ((accumulate old f).toNat : Int) = ((old.toNat : Int) + f) % 256) ∧
  accumulate 255#8 (frag 7 (residual 127#8)) = 54#8 ∧ threshold 54#8 = black ∧
  accumulate 0#8 (frag 7 (residual 128#8)) = 201#8 ∧ threshold 201#8 = white

/-- VISIT: the visited pixel takes its threshold, every target inside the image takes its own stored value plus its
fragment modulo 256, an out-of-bounds target is dropped, and every other byte is unchanged
(40_dither_engine.md R113). -/
def Obligations.VisitEffect : Prop :=
  ∀ (fill : Nat → Byte) (m : Memory) (w h j : Int) (i : Nat), 0 ≤ j → j < w → (i : Int) < h →
    Memory.read? (visit fill w h m (j, i)) (idx w j i) =
      some (threshold (Memory.readOr fill m (idx w j i))) ∧
    (∀ x y wt : Int, (x, y, wt) ∈ targets (dirOf i) j i → inBounds w h x y = true →
      Memory.read? (visit fill w h m (j, i)) (idx w x y) =
        some (accumulate (Memory.readOr fill m (idx w x y))
          (frag wt (residual (Memory.readOr fill m (idx w j i)))))) ∧
    ∀ n, n ≠ idx w j i →
      (∀ x y wt : Int, (x, y, wt) ∈ targets (dirOf i) j i → inBounds w h x y = true → n ≠ idx w x y) →
      Memory.read? (visit fill w h m (j, i)) n = Memory.read? m n

/-- The result of a visit's updates does not depend on their order (40_dither_engine.md, the inference of R112). -/
def Obligations.UpdateOrderDoesNotMatter : Prop :=
  ∀ (fill : Nat → Byte) (m : Memory) (w h err j : Int) (i : Nat) (ts : List (Int × Int × Int)),
    0 ≤ j → j < w → (i : Int) < h → ts.Perm (targets (dirOf i) j i) →
    ∀ n, Memory.read? (ts.foldl (diffuse fill w h err) m) n =
      Memory.read? ((targets (dirOf i) j i).foldl (diffuse fill w h err) m) n

/-- The visit sequence: row `i` holds positions `i * W` to `i * W + W - 1` of it, an even row left to right and an
odd row right to left, so each pixel is visited exactly once (40_dither_engine.md R103, R104). -/
def Obligations.ScanOrderIsSerpentine : Prop :=
  ∀ w h : Nat, 0 < w → 0 < h →
    (visitOrder w h).length = w * h ∧
    (∀ i k, i < h → k < w →
      (visitOrder w h)[i * w + k]? =
        some (if i % 2 = 0 then ((k : Int), i) else ((w : Int) - 1 - (k : Int), i))) ∧
    (visitOrder w h).Nodup ∧
    (∀ i : Nat, (i % 2 = 0 → dirOf i = .forward) ∧ (i % 2 = 1 → dirOf i = .reverse)) ∧
    Dir.step .forward = 1 ∧ Dir.step .reverse = -1

/-- After DITHER every byte of `MONO[0 .. N)` is WHITE or BLACK, and OUT_LEN is N (40_dither_engine.md R115). -/
def Obligations.DitherOutputIsBlackOrWhite : Prop :=
  ∀ s : State, s.DitherReady →
    ∃ t, exec .dither s = .next t ∧ t.monoBuf.twoValued s.regN ∧ t.outLen.toNat = s.regN

/-- DITHER is deterministic: equal W, H, LEN and equal `IN[0 .. N)` give equal `MONO[0 .. N)`, ERR and OUT_LEN,
whatever else the two states hold (40_dither_engine.md R116). -/
def Obligations.DitherDependsOnItsInputOnly : Prop :=
  ∀ s s' : State, s.phase = .idle → s'.phase = .idle →
    s.width = s'.width → s.height = s'.height → s.inLen = s'.inLen → s.inBuf.agree s'.inBuf s.regN →
    (∀ t, exec .dither s = .next t →
      ∃ t', exec .dither s' = .next t' ∧ t.err = t'.err ∧ t.outLen = t'.outLen ∧
        (t.err = 0#4 → t.monoBuf.agree t'.monoBuf s.regN)) ∧
    (exec .dither s = .fault .uninitInput → exec .dither s' = .fault .uninitInput)

/-- The results of PACK and DITHER_PACK are functions of the latched dimensions and the input bytes alone
(10_state.md, the inference of R42). -/
def Obligations.PackDependsOnItsInputOnly : Prop :=
  ∀ (i : Instr) (s s' : State), i = .pack ∨ i = .ditherPack → s.phase = .idle → s'.phase = .idle →
    s.width = s'.width → s.height = s'.height → s.inLen = s'.inLen → s.inBuf.agree s'.inBuf s.regN →
    (∀ t, exec i s = .next t →
      ∃ t', exec i s' = .next t' ∧ t.err = t'.err ∧ t.outLen = t'.outLen ∧
        (t.err = 0#4 →
          t.outBuf.agree t'.outBuf (s.regW / 8 * s.regH).toNat ∧
          (i = .ditherPack → t.monoBuf.agree t'.monoBuf s.regN))) ∧
    (exec i s = .fault .uninitInput → exec i s' = .fault .uninitInput)

/-- The packer's group: bit `7 - k` of the accumulator is 1 exactly when the sample at offset `k` equals WHITE, and
the byte at `i * (W / 8) + g` of OUT becomes the accumulator's complement, every other byte staying as it was
(41_bit_packer.md R142, R143). -/
def Obligations.PackGroupSerialisesAndInverts : Prop :=
  ∀ (src : Nat → Option Byte) (w : Nat) (out : Memory) (i g : Nat) (bs : List Byte), bs.length = 8 →
    (∀ k, k < 8 → src (i * w + 8 * g + k) = bs[k]?) →
    ∃ acc m, packGroup src w out (i, g) = some m ∧
      (∀ k, k < 8 → (acc.getLsbD (7 - k) = true ↔ bs[k]? = some 255#8)) ∧
      Memory.read? m (i * (w / 8) + g) = some (~~~acc) ∧
      ∀ n, n ≠ i * (w / 8) + g → Memory.read? m n = Memory.read? out n

/-- The packer's order: group `g` of row `i` is the group number `i * (W / 8) + g`, in every row from left to right
whatever its parity (41_bit_packer.md R141). -/
def Obligations.GroupOrderIsRowMajor : Prop :=
  ∀ w h : Nat,
    (groupOrder w h).length = w / 8 * h ∧
    ∀ i g, i < h → g < w / 8 → (groupOrder w h)[i * (w / 8) + g]? = some (i, g)

/-- The source's packing properties (41_bit_packer.md R149): a W x 1 row of 200 packs to 0x00 in every group; a
W x 1 row of 50 dithers to BLACK and packs to 0xFF; PACK fails with InvalidDimension whenever W mod 8 is not 0. -/
def Obligations.UniformRowsPackUniformly : Prop :=
  (∀ s : State, s.PackReady → s.regH = 1 → (∀ n, n < s.regN → Memory.read? s.inBuf n = some 200#8) →
    ∃ t, exec .ditherPack s = .next t ∧ (∀ n, n < s.regN → Memory.read? t.monoBuf n = some white) ∧
      ∀ g, g < s.regN / 8 → Memory.read? t.outBuf g = some 0x00#8) ∧
  (∀ s : State, s.PackReady → s.regH = 1 → (∀ n, n < s.regN → Memory.read? s.inBuf n = some 50#8) →
    ∃ t, exec .ditherPack s = .next t ∧ (∀ n, n < s.regN → Memory.read? t.monoBuf n = some black) ∧
      ∀ g, g < s.regN / 8 → Memory.read? t.outBuf g = some 0xFF#8) ∧
  ∀ s : State, s.phase = .idle → 0 < s.regH → s.regW % 8 ≠ 0 →
    ∃ t, exec .pack s = .next t ∧ t.err = CommandError.invalidDimension.code

/-- A uniform row dithers to a uniform row whatever its width: 200 to WHITE, 50 to BLACK
(40_dither_engine.md, the inference of R120). -/
def Obligations.UniformRowsDitherUniformly : Prop :=
  ∀ s : State, s.DitherReady → s.regH = 1 →
    ((∀ n, n < s.regN → Memory.read? s.inBuf n = some 200#8) →
      ∃ t, exec .dither s = .next t ∧ ∀ n, n < s.regN → Memory.read? t.monoBuf n = some white) ∧
    ((∀ n, n < s.regN → Memory.read? s.inBuf n = some 50#8) →
      ∃ t, exec .dither s = .next t ∧ ∀ n, n < s.regN → Memory.read? t.monoBuf n = some black)

/-- A 1 x 1 image is thresholded on its own value, with no update of a neighbour
(40_dither_engine.md, the inference of R120). The position that `endedWith` gives after the completion
(FINISH, 0, 0, Forward) is the model's choice (log 13). -/
def Obligations.OnePixelImage : Prop :=
  ∀ (s : State) (b : Byte), s.phase = .idle → s.regW = 1 → s.regH = 1 → s.inLen = 1#32 →
    Memory.read? s.inBuf 0 = some b →
    exec .dither s = .next
      { s.endedWith .dither .finish 0#4 1 with
        monoBuf := Memory.write (Memory.write s.monoBuf 0 b) 0 (if b.toNat > 127 then 255#8 else 0#8) }

/-! ### Registers and the interrupt -/

/-- A write of `v` to STATUS has exactly the write-1-to-clear effect on DONE and OVR, busy or not
(10_state.md R23). -/
def Obligations.StatusWriteClearsDoneAndOvrOnly : Prop :=
  ∀ (s : State) (v : Word),
    hostAccess Config.maxPixels ⟨0x004#26, .write (.word v)⟩ s =
      { s with
        done := if v.getLsbD 1 = true then false else s.done
        ovr := if v.getLsbD 2 = true then false else s.ovr
        resp := some .okay }

/-- The fields of STATUS as the host reads them (10_state.md R22, the table). -/
def Obligations.StatusReadShowsItsFields : Prop :=
  ∀ (s : State),
    hostAccess Config.maxPixels ⟨0x004#26, .read .word⟩ s =
      { s with resp := some (.okayRead (.word s.statusWord)), draws := s.draws + 1 } ∧
    (s.statusWord.getLsbD 0 = true ↔ s.phase = .run) ∧ s.statusWord.getLsbD 1 = s.done ∧
    s.statusWord.getLsbD 2 = s.ovr ∧ s.statusWord.getLsbD 3 = false ∧
    s.statusWord.extractLsb' 4 4 = s.err ∧ s.statusWord.extractLsb' 8 24 = 0#24

/-- WIDTH, HEIGHT and IN_LEN store all 32 bits and read back exactly; a write changes nothing else
(10_state.md R25, R26, R27). -/
def Obligations.ConfigurationRegistersReadBack : Prop :=
  ∀ (s : State) (v : Word),
    hostAccess Config.maxPixels ⟨0x00C#26, .write (.word v)⟩ s = { s with width := v, resp := some .okay } ∧
    hostAccess Config.maxPixels ⟨0x010#26, .write (.word v)⟩ s = { s with height := v, resp := some .okay } ∧
    hostAccess Config.maxPixels ⟨0x014#26, .write (.word v)⟩ s = { s with inLen := v, resp := some .okay } ∧
    readValue Config.maxPixels s 0x00C#26 .word = .word s.width ∧
    readValue Config.maxPixels s 0x010#26 .word = .word s.height ∧
    readValue Config.maxPixels s 0x014#26 .word = .word s.inLen

/-- OUT_LEN and CAPACITY ignore writes; CMD reads 0; CAPACITY reads MAX_PIXELS whatever the state, exactly in 32 bits
(10_state.md R21, R28, R29). -/
def Obligations.ReadOnlyRegistersIgnoreWrites : Prop :=
  ∀ (s : State) (v : Word),
    hostAccess Config.maxPixels ⟨0x018#26, .write (.word v)⟩ s = { s with resp := some .okay } ∧
    hostAccess Config.maxPixels ⟨0x01C#26, .write (.word v)⟩ s = { s with resp := some .okay } ∧
    readValue Config.maxPixels s 0x018#26 .word = .word s.outLen ∧
    readValue Config.maxPixels s 0x000#26 .word = .word 0#32 ∧
    ∃ c : Word, readValue Config.maxPixels s 0x01C#26 .word = .word c ∧ c.toNat = Config.maxPixels

/-- RESERVED register offsets 0x020 to 0xFFC, 4-aligned and 32 bits wide: a read returns 0, a write is ignored, both
with an OKAY response (10_state.md R33). -/
def Obligations.ReservedRegistersReadZero : Prop :=
  ∀ (s : State) (a : Offset) (v : Word), 0x020 ≤ a.toNat → a.toNat ≤ 0xFFC → a.toNat % 4 = 0 →
    hostAccess Config.maxPixels ⟨a, .read .word⟩ s =
      { s with resp := some (.okayRead (.word 0#32)), draws := s.draws + 1 } ∧
    hostAccess Config.maxPixels ⟨a, .write (.word v)⟩ s = { s with resp := some .okay }

/-- IRQ_EN stores bit 0 and reads back as bit 0 alone; the interrupt output is DONE and DONE_IE at once after the
write (10_state.md R24). -/
def Obligations.IrqEnableStoresBitZero : Prop :=
  ∀ (s : State) (v : Word),
    hostAccess Config.maxPixels ⟨0x008#26, .write (.word v)⟩ s =
      { s with doneIe := v.getLsbD 0, resp := some .okay } ∧
    (hostAccess Config.maxPixels ⟨0x008#26, .write (.word v)⟩ s).irq = (s.done && v.getLsbD 0) ∧
    readValue Config.maxPixels s 0x008#26 .word = .word (if s.doneIe = true then 1#32 else 0#32)

/-- The interrupt output follows DONE_IE when a command ends, is low after an acceptance and after a write of 1 to
STATUS.DONE, and does not move when a dropped command sets OVR (60_exceptions.md R210). -/
def Obligations.InterruptFollowsCompletion : Prop :=
  (∀ (i : Instr) (s t : State), s.phase = .idle → exec i s = .next t → t.irq = s.doneIe) ∧
  (∀ (s : State) (w : Word), s.phase = .idle →
    (hostAccess Config.maxPixels ⟨0x000#26, .write (.word w)⟩ s).irq = false) ∧
  (∀ (s : State) (v : Word), v.getLsbD 1 = true →
    (hostAccess Config.maxPixels ⟨0x004#26, .write (.word v)⟩ s).irq = false) ∧
  (∀ (i : Instr) (s t : State), s.phase = .run → exec i s = .next t → t.irq = s.irq)

/-! ### The bus -/

/-- No READ has a side effect: a read changes nothing of the block, only the port's response and the model's own
number of free values (20_memory.md R61, R60). -/
def Obligations.ReadsHaveNoSideEffect : Prop :=
  ∀ (s : State) (a : Offset) (sz : Size),
    ∃ r n, hostAccess Config.maxPixels ⟨a, .read sz⟩ s = { s with resp := some r, draws := n }

/-- A bus error returns ERROR and changes no state, in a block of any capacity: a register access that is not 32 bits
wide or not 4-aligned; a buffer access that is misaligned or has an unbacked byte; a write to MONO or OUT; an
unmapped offset (20_memory.md R60). -/
def Obligations.BusErrorChangesNothing : Prop :=
  ∀ (cap : Nat) (s : State) (t : Transaction),
    ((windowOf t.addr = .reg ∧ (t.access.size ≠ .word ∨ t.addr.toNat % 4 ≠ 0)) ∨
     ((windowOf t.addr = .inBuf ∨ windowOf t.addr = .mono ∨ windowOf t.addr = .out) ∧
        (t.addr.toNat % t.access.size.bytes ≠ 0 ∨
          (windowOf t.addr).backed cap <
            t.addr.toNat - (windowOf t.addr).base + t.access.size.bytes)) ∨
     ((windowOf t.addr = .mono ∨ windowOf t.addr = .out) ∧ ∃ d, t.access = .write d) ∨
     windowOf t.addr = .unmapped) →
    hostAccess cap t s = { s with resp := some .error }

/-- A legal IN write stores the value's bytes, the one at the lowest offset being bits 7:0, and nothing else; a
legal IN read returns the sum of the bytes it covers times 2^(8k); so accesses of different widths see the same
bytes (20_memory.md R57). -/
def Obligations.InAccessesAreLittleEndian : Prop :=
  ∀ (s : State) (n : Nat),
    (∀ d : Data, n % d.size.bytes = 0 → n + d.size.bytes ≤ Config.maxPixels → s.phase = .idle →
      ∃ m, hostAccess Config.maxPixels ⟨BitVec.ofNat 26 (0x1000000 + n), .write d⟩ s =
          { s with inBuf := m, resp := some .okay } ∧
        (∀ k, k < d.size.bytes → ∃ b, Memory.read? m (n + k) = some b ∧
          b.toNat = (match d with
            | .byte v => v.toNat
            | .half v => v.toNat
            | .word v => v.toNat) / 2 ^ (8 * k) % 256) ∧
        ∀ k, k < n ∨ n + d.size.bytes ≤ k → Memory.read? m k = Memory.read? s.inBuf k) ∧
    ∀ (sz : Size) (bs : List Byte), n % sz.bytes = 0 → n + sz.bytes ≤ Config.maxPixels →
      bs.length = sz.bytes → (∀ k, k < sz.bytes → Memory.read? s.inBuf (n + k) = bs[k]?) →
      ∃ d : Data, d.size = sz ∧
        hostAccess Config.maxPixels ⟨BitVec.ofNat 26 (0x1000000 + n), .read sz⟩ s =
          { s with resp := some (.okayRead d), draws := s.draws + 1 } ∧
        (match d with
          | .byte v => v.toNat
          | .half v => v.toNat
          | .word v => v.toNat) =
          (List.range sz.bytes).foldl (fun acc k => acc + (bs.getD k 0#8).toNat * 2 ^ (8 * k)) 0

/-- After completion (BUSY = 0) host reads of MONO and OUT return exactly the bytes there; while BUSY = 1 every byte
of such a read is a free value, whatever the buffer holds; IN bytes are read exactly in both; a byte of any buffer
that has not been written is a free value. The bus read of each output window returns these bytes, for every
backed index (10_state.md R45; 20_memory.md R52, R56, R57, R63). The free values and their numbering are the model's
choice (log 7). -/
def Obligations.OutputReadsAreExactOnlyWhenIdle : Prop :=
  ∀ (s : State) (n : Nat),
    (s.phase = .idle → ∀ b, Memory.read? s.monoBuf n = some b → hostByte s .mono n = b) ∧
    (s.phase = .idle → ∀ b, Memory.read? s.outBuf n = some b → hostByte s .out n = b) ∧
    (∀ b, Memory.read? s.inBuf n = some b → hostByte s .inBuf n = b) ∧
    (s.phase = .run ∨ Memory.read? s.monoBuf n = none →
      hostByte s .mono n = Config.freeByte s.draws (0x2000000 + n)) ∧
    (s.phase = .run ∨ Memory.read? s.outBuf n = none →
      hostByte s .out n = Config.freeByte s.draws (0x3000000 + n)) ∧
    (Memory.read? s.inBuf n = none → hostByte s .inBuf n = Config.freeByte s.draws (0x1000000 + n)) ∧
    ∀ (sz : Size), n % sz.bytes = 0 →
      (n + sz.bytes ≤ Config.maxPixels →
        hostAccess Config.maxPixels ⟨BitVec.ofNat 26 (0x2000000 + n), .read sz⟩ s =
          { s with
            resp := some (.okayRead (Data.ofBytes sz (fun k => hostByte s .mono (n + k)))),
            draws := s.draws + 1 }) ∧
      (n + sz.bytes ≤ Config.outSize Config.maxPixels →
        hostAccess Config.maxPixels ⟨BitVec.ofNat 26 (0x3000000 + n), .read sz⟩ s =
          { s with
            resp := some (.okayRead (Data.ofBytes sz (fun k => hostByte s .out (n + k)))),
            draws := s.draws + 1 })

/-- A host write to IN while BUSY = 1 stores its bytes with an OKAY response and records HOST_MUTATED_INPUT; it changes
nothing else (20_memory.md R64). That the fault is recorded in a next state, and that a fault recorded earlier is not
replaced, is the model's reading (DEDUCED, log 9). -/
def Obligations.InWriteWhileBusyIsRecorded : Prop :=
  ∀ (s : State) (n : Nat) (d : Data), s.phase = .run → n % d.size.bytes = 0 →
    n + d.size.bytes ≤ Config.maxPixels →
    hostAccess Config.maxPixels ⟨BitVec.ofNat 26 (0x1000000 + n), .write d⟩ s =
      { s with
        inBuf := Memory.writeRun s.inBuf n d.bytes
        fault := some (s.fault.getD .hostMutatedInput)
        resp := some .okay }

/-- A host access at a system address reaches the block exactly inside `[BASE, BASE + 2^26)`, as a transaction at the
offset from BASE, a multiple of 2^26 (20_memory.md R51). That an access outside leaves the whole state as it was, the
response included, is the model's choice (log 8). -/
def Obligations.SystemAddressesReachTheBlock : Prop :=
  Config.base % 2 ^ 26 = 0 ∧
  ∀ (s : State) (addr : Nat) (x : Access),
    (∀ a : Offset, systemAccess Config.maxPixels Config.base (Config.base + a.toNat) x s =
      hostAccess Config.maxPixels ⟨a, x⟩ s) ∧
    (addr < Config.base ∨ Config.base + 2 ^ 26 ≤ addr →
      systemAccess Config.maxPixels Config.base addr x s = s)

/-- `CONFIG w, h, len` leaves the three registers at its operands, `ACK` clears DONE and nothing else
(30_encoding.md R87). -/
def Obligations.ConfigAndAckActAsTheirExpansions : Prop :=
  ∀ (s : State) (w h len : Word),
    (pseudoConfig w h len).foldl (fun t x => hostAccess Config.maxPixels x t) s =
      { s with width := w, height := h, inLen := len, resp := some .okay } ∧
    pseudoAck.foldl (fun t x => hostAccess Config.maxPixels x t) s =
      { s with done := false, resp := some .okay }

/-! ### Whole-machine rules -/

/-- While a command runs, no host access changes the engine's state, its latched operands, MONO, OUT, ERR or OUT_LEN:
a configuration write is stored and changes none of them (10_state.md R41, 20_memory.md R58, 42_command_sequencing.md
R161). IN is not among them: a write to it lands and breaks the host's duty (20_memory.md R64, 70_reset_and_hazards.md
R244). -/
def Obligations.HostAccessesLeaveTheEngineSideAlone : Prop :=
  ∀ (s : State) (t : Transaction), s.phase = .run →
    s.toBlock.KeepsEngineSide (hostAccess Config.maxPixels t s).toBlock

/-- No step of the engine, at any grain, touches the host's registers, IN, OVR or the model's own fields
(20_memory.md R58, R65; 10_state.md R34). -/
def Obligations.EngineLeavesTheHostSideAlone : Prop :=
  ∀ s t : Block,
    commandRest Config.maxPixels s = .next t ∨ stageRest Config.maxPixels s = .next t ∨
      visitStep Config.maxPixels s = .next t →
    s.KeepsHostSide t ∧ t.ovr = s.ovr

/-- OVR is sticky: a step sets it only by a CMD write while busy, and clears it only by a STATUS write with bit 2 set
or by a reset (10_state.md R22, R34). It is stated for every schedule: an access by block offset, one by system
address, and no event left. -/
def Obligations.OvrChangesOnlyAsTheSpecSays : Prop :=
  ∀ s t : State, step s = .next t →
    (s.ovr = false → t.ovr = true →
      s.phase = .run ∧
        ((∃ w, s.sched.head? = some (.command w)) ∨
          ∃ tr, s.nextTransaction? = some tr ∧ tr.isCmdWrite = true)) ∧
    (s.ovr = true → t.ovr = false →
      s.sched.head? = some .reset ∨ ∃ tr, s.nextTransaction? = some tr ∧ tr.clears 2 = true)

/-- DONE: a step sets it only where a command ends in that step, and clears it only by a STATUS write with bit 1 set,
by an acceptance, or by a reset (10_state.md R22, R34). It is stated for every schedule: an access by block offset,
one by system address, and no event left, where a running command runs on. -/
def Obligations.DoneChangesOnlyAsTheSpecSays : Prop :=
  ∀ s t : State, step s = .next t →
    (s.done = false → t.done = true → t.phase = .idle ∧
      (s.phase = .run ∧ (s.sched = [] ∨ s.sched.head? = some .engine ∨ s.sched.head? = some .engineStage ∨
          s.sched.head? = some .engineVisit) ∨
        s.phase = .idle ∧ ∃ w, s.sched.head? = some (.command w))) ∧
    (s.done = true → t.done = false →
      s.sched.head? = some .reset ∨ (∃ tr, s.nextTransaction? = some tr ∧ tr.clears 1 = true) ∨
      (s.phase = .idle ∧ t.phase = .run ∧
        ((∃ w, s.sched.head? = some (.command w)) ∨
          ∃ tr, s.nextTransaction? = some tr ∧ tr.isCmdWrite = true)))

/-- Every step keeps the invariant: buffers in canonical form and inside their sizes, `BUSY = 1 => DONE = 0 and
ERR = 0`, ERR at most 3, the direction that of the row, and a running command's position one its stages have
(10_state.md R22, R31, R40; 42_command_sequencing.md R165, R169). -/
def Obligations.StepKeepsTheInvariant : Prop :=
  ∀ s t : State, s.Inv Config.maxPixels → step s = .next t → t.Inv Config.maxPixels

/-- From a state that meets the invariant no step is refused, a step faults only with the recorded fault, and a step
records a fault only where the rules name one: UNINIT_INPUT where an IN byte below MAX_PIXELS has not been written,
HOST_MUTATED_INPUT where the host writes IN while BUSY = 1; a recorded fault stays (10_state.md R46;
20_memory.md R64, R74; 42_command_sequencing.md R169, R170; 60_exceptions.md R205). What a step answers and what it
records is the model's reading (log 9), the refusal outside the invariant its choice (log 10). -/
def Obligations.StepStopsOnlyOnTheModelFaults : Prop :=
  ∀ s : State, s.Inv Config.maxPixels →
    (∀ r, step s ≠ .refused r) ∧
    (∀ r, step s = .fault r → s.fault = some r) ∧
    ∀ t, step s = .next t →
      (∀ r, s.fault = some r → t.fault = some r) ∧
      ∀ r, s.fault = none → t.fault = some r →
        (r = .uninitInput ∧ ∃ n, n < Config.maxPixels ∧ Memory.read? s.inBuf n = none) ∨
        (r = .hostMutatedInput ∧ s.phase = .run ∧
          ∃ tr d, s.nextTransaction? = some tr ∧ windowOf tr.addr = .inBuf ∧ tr.access = .write d)

/-- A running command ends: from a state that meets the invariant the rest of the command gives an idle state with
DONE set, whether it ends with an error or completes; only where its checks pass must its input bytes have been written
(42_command_sequencing.md R169: "Every accepted command completes after finitely many engine steps"; 20_memory.md
R74). -/
def Obligations.RunningCommandEnds : Prop :=
  ∀ s : Block, s.Inv Config.maxPixels → s.phase = .run →
    (s.Validated Config.maxPixels → s.inBuf.covers s.pixels) →
    ∃ t, commandRest Config.maxPixels s = .next t ∧ t.phase = .idle ∧ t.done = true

/-- The atomic command and the staged one are the same: `exec` of a command while idle is its acceptance followed by
the engine's stages to the end, with the same state or the same fault (42_command_sequencing.md R169). -/
def Obligations.AtomicCommandIsTheStagedCommand : Prop :=
  ∀ (i : Instr) (s : State), s.phase = .idle →
    exec i s = s.onBlock (commandRest Config.maxPixels (s.accept (Op.of i)))

/-- The finest grain gives the same results as the coarsest: visit by visit, a running command comes to the state, or
the fault, that the rest of the command gives at once (42_command_sequencing.md R170; 92_eei_decisions.md D31: "a
finer model must give the same results"). -/
def Obligations.VisitGrainGivesTheSameResult : Prop :=
  ∀ s : Block, s.Inv Config.maxPixels → s.phase = .run →
    ∃ n, ∀ fuel, n ≤ fuel → runVisits Config.maxPixels fuel s = commandRest Config.maxPixels s

/-! ### Host programs -/

/-- `ISSUE w` and the pseudo-instructions named after the commands issue the command; `LOAD8` and `FILL8` leave their
bytes in IN, in order and nowhere else, whatever the phase: while BUSY = 1 the fault of R64 is recorded with them
(30_encoding.md R87; 42_command_sequencing.md R160, R161; 20_memory.md R57, R64; log 9). -/
def Obligations.IssueAndLoadActAsTheirExpansions : Prop :=
  ∀ s : State,
    (∀ w : Word,
      (s.phase = .idle → (pseudoIssue w).foldl (fun t x => hostAccess Config.maxPixels x t) s =
        { s with toBlock := s.accept (Op.of (decode w)), resp := some .okay }) ∧
      (s.phase = .run → (pseudoIssue w).foldl (fun t x => hostAccess Config.maxPixels x t) s =
        { s with ovr := true, resp := some .okay })) ∧
    (∀ i : Instr, i.wf = true → s.phase = .idle →
      (pseudoCommand i).foldl (fun t x => hostAccess Config.maxPixels x t) s =
        { s with toBlock := s.accept (Op.of i), resp := some .okay }) ∧
    (∀ (n : Nat) (bs : List Byte), bs ≠ [] → n + bs.length ≤ Config.maxPixels →
      ∃ m, (pseudoLoad8 n bs).foldl (fun t x => hostAccess Config.maxPixels x t) s =
          { s with
            inBuf := m
            fault := if s.phase = .run then some (s.fault.getD .hostMutatedInput) else s.fault
            resp := some .okay } ∧
        (∀ k, k < bs.length → Memory.read? m (n + k) = bs[k]?) ∧
        ∀ k, k < n ∨ n + bs.length ≤ k → Memory.read? m k = Memory.read? s.inBuf k) ∧
    ∀ (n c : Nat) (v : Byte), 0 < c → n + c ≤ Config.maxPixels →
      ∃ m, (pseudoFill8 n c v).foldl (fun t x => hostAccess Config.maxPixels x t) s =
          { s with
            inBuf := m
            fault := if s.phase = .run then some (s.fault.getD .hostMutatedInput) else s.fault
            resp := some .okay } ∧
        (∀ k, k < c → Memory.read? m (n + k) = some v) ∧
        ∀ k, k < n ∨ n + c ≤ k → Memory.read? m k = Memory.read? s.inBuf k

/-- A `POLL` ends with the first read whose value satisfies its test; the test of a read is that of the value read,
and a bus error satisfies none; reads in a row of a register leave the block as it is; a `WAIT_DONE` ends with the
first read that sees DONE (30_encoding.md R87; 20_memory.md R61; log 7 for the numbering of the reads). -/
def Obligations.PollEndsAtItsFirstSatisfyingRead : Prop :=
  ∀ mask val : Word,
    (∀ reads : List State, pollEnds mask val reads = true ↔
      ∃ before last, reads = before ++ [last] ∧ pollSatisfied mask val last = true ∧
        ∀ t ∈ before, pollSatisfied mask val t = false) ∧
    ∀ (s : State) (a : Offset),
      (pollSatisfied mask val (hostAccess Config.maxPixels (rd32 a) s) = true ↔
        legalAccess Config.maxPixels (rd32 a) = true ∧
          ∃ v : Word, readValue Config.maxPixels s a .word = .word v ∧ v &&& mask = val) ∧
      (∀ k, a.toNat < 0x1000 → a.toNat % 4 = 0 →
        (pseudoPoll a k).foldl (fun t x => hostAccess Config.maxPixels x t) s =
          { s with
            resp := some (.okayRead (.word (readReg Config.maxPixels s.toBlock (regAt a.toNat))))
            draws := s.draws + (k + 1) }) ∧
      ∀ k, waitDoneSatisfied
        ((pseudoWaitDone k).foldl (fun t x => hostAccess Config.maxPixels x t) s) = s.done

/-! ### The state of R46 -/

/-- The step relation is over the block of R46 alone, and the event, a host access among them, is its parameter: a
step is `Block.turn` of the next event on the block, beside which the environment hears the answer and the event
leaves the schedule; `exec` of a command is its effect on the block; so two machines of one block have one block after
any event, or one fault, whatever was answered, drawn or scheduled (10_state.md R46: "exactly this state, and nothing
else"; 42_command_sequencing.md R170). That the environment stands beside the block as data is the model's choice
(logs 1, 6, 7), the turn of the empty schedule too (log 2). -/
def Obligations.BlockDependsOnItselfAndTheEventAlone : Prop :=
  (∀ (s : State) (e : Event) (rest : List Event), s.sched = e :: rest →
    step s = (({ s with sched := rest } : State).heard e).onBlock (s.toBlock.turn e)) ∧
  (∀ s : State, s.sched = [] → step s = s.onBlock (s.toBlock.turn .engine)) ∧
  (∀ (i : Instr) (s : State), exec i s = s.onBlock (s.toBlock.command i)) ∧
  (∀ (e : Event) (s : State), (s.heard e).toBlock = s.toBlock ∧ (s.heard e).sched = s.sched) ∧
  ∀ (s s' : State) (e : Event), s.toBlock = s'.toBlock →
    (∀ t, takeTurn e s = .next t → ∃ t', takeTurn e s' = .next t' ∧ t.toBlock = t'.toBlock) ∧
    ∀ r, takeTurn e s = .fault r → takeTurn e s' = .fault r
end

