-- ==== Sys2Proof/Laws/Config.lean ====
section
/-! SUPPORT. What every legal block's parameters satisfy (00_scope.md R6). -/

namespace Sys2Proof

theorem Config.eight_le_maxPixels : 8 ≤ Config.maxPixels := by
  unfold Config.maxPixels; omega

theorem Config.maxPixels_le : Config.maxPixels ≤ 2 ^ 24 := by
  unfold Config.maxPixels
  have : Config.capacityIndex % 2 ^ 21 < 2 ^ 21 := Nat.mod_lt _ (by decide)
  omega

theorem Config.maxPixels_mod_eight : Config.maxPixels % 8 = 0 := by
  unfold Config.maxPixels; omega

theorem Config.base_mod : Config.base % 2 ^ 26 = 0 := by
  unfold Config.base; omega

end Sys2Proof
end

