-- ==== Sys2Proof/Laws/Memory.lean ====
section
/-! SUPPORT. The laws of buffer memories: reading after writing, and the canonical form and the bounds that every write keeps. -/

namespace Sys2Proof.Machine

/-! ### Reading after one write -/

theorem Memory.read?_write_self (m : Memory) (n : Nat) (v : Byte) :
    Memory.read? (Memory.write m n v) n = some v := by
  induction m with
  | nil => simp [Memory.write, Memory.read?]
  | cons c m ih =>
    obtain ⟨k, b⟩ := c
    simp only [Memory.write]
    split
    · simp [Memory.read?]
    · split
      · simp [Memory.read?]
      · rename_i h
        simp [Memory.read?, Ne.symm h, ih]

theorem Memory.read?_write_of_ne (m : Memory) {n k : Nat} (v : Byte) (h : k ≠ n) :
    Memory.read? (Memory.write m n v) k = Memory.read? m k := by
  induction m with
  | nil => simp [Memory.write, Memory.read?, Ne.symm h]
  | cons c m ih =>
    obtain ⟨a, b⟩ := c
    simp only [Memory.write]
    split
    · simp [Memory.read?, Ne.symm h]
    · split
      · rename_i e
        subst e
        simp [Memory.read?, Ne.symm h]
      · simp [Memory.read?, ih]

/-- Everything a write does to what is read. -/
theorem Memory.read?_write (m : Memory) (n k : Nat) (v : Byte) :
    Memory.read? (Memory.write m n v) k = if k = n then some v else Memory.read? m k := by
  split
  · rename_i h; rw [h]; exact Memory.read?_write_self m n v
  · rename_i h; exact Memory.read?_write_of_ne m v h

theorem Memory.readOr_of_read? {fill : Nat → Byte} {m : Memory} {n : Nat} {b : Byte}
    (h : Memory.read? m n = some b) : Memory.readOr fill m n = b := by
  simp [Memory.readOr, h]

/-! ### The canonical form -/

theorem Memory.wf_cons (c : Host.Cell) (m : Memory) :
    Memory.wf (c :: m) = true ↔ (∀ d ∈ m, c.1 < d.1) ∧ Memory.wf m = true := by
  simp [Memory.wf]

theorem Memory.mem_write {m : Memory} {n : Nat} {v : Byte} {c : Host.Cell}
    (h : c ∈ Memory.write m n v) : c = (n, v) ∨ c ∈ m := by
  induction m with
  | nil => simpa [Memory.write] using h
  | cons d m ih =>
    obtain ⟨k, b⟩ := d
    simp only [Memory.write] at h
    split at h
    · simpa using h
    · split at h
      · simp only [List.mem_cons] at h ⊢
        tauto
      · simp only [List.mem_cons] at h ⊢
        rcases h with h | h
        · exact .inr (.inl h)
        · rcases ih h with h | h
          · exact .inl h
          · exact .inr (.inr h)

/-- A write keeps the canonical form. -/
theorem Memory.wf_write {m : Memory} (n : Nat) (v : Byte) (h : Memory.wf m = true) :
    Memory.wf (Memory.write m n v) = true := by
  induction m with
  | nil => simp [Memory.write, Memory.wf]
  | cons c m ih =>
    obtain ⟨k, b⟩ := c
    rw [Memory.wf_cons] at h
    simp only [Memory.write]
    split
    · rename_i hlt
      rw [Memory.wf_cons, Memory.wf_cons]
      refine ⟨?_, h⟩
      intro d hd
      rcases List.mem_cons.1 hd with rfl | hd
      · exact hlt
      · exact lt_trans hlt (h.1 d hd)
    · split
      · rename_i e
        subst e
        rw [Memory.wf_cons]
        exact h
      · rename_i h1 h2
        rw [Memory.wf_cons]
        refine ⟨?_, ih h.2⟩
        intro d hd
        rcases Memory.mem_write hd with rfl | hd
        · simp only; omega
        · exact h.1 d hd

/-- A write inside a buffer keeps it inside its size. -/
theorem Memory.below_write {m : Memory} {n cap : Nat} (v : Byte) (hn : n < cap)
    (h : Memory.below cap m = true) : Memory.below cap (Memory.write m n v) = true := by
  simp only [Memory.below, List.all_eq_true, decide_eq_true_eq] at h ⊢
  intro c hc
  rcases Memory.mem_write hc with rfl | hc
  · exact hn
  · exact h c hc

/-- A listed index of a buffer kept below `cap` lies below `cap`. -/
theorem Memory.lt_of_read? {m : Memory} {n cap : Nat} {b : Byte} (h : Memory.below cap m = true)
    (hr : Memory.read? m n = some b) : n < cap := by
  induction m with
  | nil => simp [Memory.read?] at hr
  | cons c m ih =>
    obtain ⟨k, a⟩ := c
    simp only [Memory.below, List.all_cons, Bool.and_eq_true, decide_eq_true_eq] at h
    simp only [Memory.read?] at hr
    split at hr
    · rename_i e; subst e; exact h.1
    · exact ih h.2 hr

theorem Memory.read?_eq_none_of_lt {m : Memory} {n : Nat} (h : ∀ d ∈ m, n < d.1) :
    Memory.read? m n = none := by
  induction m with
  | nil => rfl
  | cons c m ih =>
    obtain ⟨k, a⟩ := c
    have hk := h (k, a) (by simp)
    simp only [Memory.read?]
    rw [if_neg (by simp only at hk; omega)]
    exact ih (fun d hd => h d (by simp [hd]))

/-- Two memories in canonical form that read alike are equal. -/
theorem Memory.eq_of_read? {m m' : Memory} (h : Memory.wf m = true) (h' : Memory.wf m' = true)
    (e : ∀ n, Memory.read? m n = Memory.read? m' n) : m = m' := by
  induction m generalizing m' with
  | nil =>
    cases m' with
    | nil => rfl
    | cons c m' => have := e c.1; simp [Memory.read?] at this
  | cons c m ih =>
    obtain ⟨k, b⟩ := c
    rw [Memory.wf_cons] at h
    cases m' with
    | nil => have := e k; simp [Memory.read?] at this
    | cons c' m' =>
      obtain ⟨k', b'⟩ := c'
      rw [Memory.wf_cons] at h'
      have hk : k = k' := by
        by_contra hne
        rcases Nat.lt_or_gt_of_ne hne with hlt | hlt
        · have h1 := e k
          simp only [Memory.read?, if_true] at h1
          rw [if_neg (by omega), Memory.read?_eq_none_of_lt
            (fun d hd => lt_trans hlt (h'.1 d hd))] at h1
          simp at h1
        · have h1 := e k'
          simp only [Memory.read?, if_true] at h1
          rw [if_neg (by omega), Memory.read?_eq_none_of_lt
            (fun d hd => lt_trans hlt (h.1 d hd))] at h1
          simp at h1
      subst hk
      have hb : b = b' := by have h1 := e k; simpa [Memory.read?] using h1
      subst hb
      congr 1
      refine ih h.2 h'.2 (fun n => ?_)
      by_cases hn : k = n
      · subst hn
        rw [Memory.read?_eq_none_of_lt h.1, Memory.read?_eq_none_of_lt h'.1]
      · have h1 := e n
        simpa [Memory.read?, hn] using h1

/-! ### Runs of bytes -/

/-- Everything a run of writes does to what is read. -/
theorem Memory.read?_writeRun (m : Memory) (n : Nat) (bs : List Byte) (k : Nat) :
    Memory.read? (Memory.writeRun m n bs) k =
      if n ≤ k ∧ k < n + bs.length then bs[k - n]? else Memory.read? m k := by
  induction bs generalizing m n with
  | nil => simp [Memory.writeRun]
  | cons b bs ih =>
    rw [Memory.writeRun, ih, Memory.read?_write]
    simp only [List.length_cons]
    rcases Nat.lt_trichotomy k n with h | h | h
    · rw [if_neg (by omega), if_neg (by omega), if_neg (by omega)]
    · subst h
      rw [if_neg (by omega), if_pos rfl, if_pos (by omega)]
      simp
    · by_cases hk : k < n + 1 + bs.length
      · rw [if_pos (by omega), if_pos (by omega), show k - n = (k - (n + 1)) + 1 by omega]
        simp
      · rw [if_neg (by omega), if_neg (by omega), if_neg (by omega)]

theorem Memory.wf_writeRun {m : Memory} (n : Nat) (bs : List Byte) (h : Memory.wf m = true) :
    Memory.wf (Memory.writeRun m n bs) = true := by
  induction bs generalizing m n with
  | nil => exact h
  | cons b bs ih => exact ih (n + 1) (Memory.wf_write n b h)

theorem Memory.below_writeRun {m : Memory} {cap : Nat} (n : Nat) (bs : List Byte)
    (hn : n + bs.length ≤ cap) (h : Memory.below cap m = true) :
    Memory.below cap (Memory.writeRun m n bs) = true := by
  induction bs generalizing m n with
  | nil => exact h
  | cons b bs ih =>
    simp only [List.length_cons] at hn
    exact ih (n + 1) (by omega) (Memory.below_write b (by omega) h)

/-- A run of reads answers exactly when every byte of it has a value, and then with those values. -/
theorem readRun_eq_some_iff (src : Nat → Option Byte) (n len : Nat) (bs : List Byte) :
    readRun src n len = some bs ↔ bs.length = len ∧ ∀ k, k < len → src (n + k) = bs[k]? := by
  induction len generalizing n bs with
  | zero =>
    simp only [readRun, Option.some.injEq]
    constructor
    · rintro rfl; simp
    · rintro ⟨h, -⟩; exact (List.length_eq_zero_iff.1 h).symm
  | succ len ih =>
    rw [readRun]
    constructor
    · intro h
      split at h
      · rename_i b cs hb hcs
        obtain rfl := Option.some.inj h
        obtain ⟨hl, hr⟩ := (ih (n + 1) cs).1 hcs
        refine ⟨by simp [hl], ?_⟩
        intro k hk
        cases k with
        | zero => simpa using hb
        | succ k =>
          have := hr k (by omega)
          rw [show n + (k + 1) = n + 1 + k by omega, this]
          simp
      · exact absurd h (by simp)
    · rintro ⟨hl, hr⟩
      cases bs with
      | nil => simp at hl
      | cons b cs =>
        have h0 := hr 0 (by omega)
        have hcs : readRun src (n + 1) len = some cs := by
          rw [ih]
          refine ⟨by simpa using hl, ?_⟩
          intro k hk
          have := hr (k + 1) (by omega)
          rw [show n + 1 + k = n + (k + 1) by omega, this]
          simp
        simp only [Nat.add_zero, List.getElem?_cons_zero] at h0
        rw [h0, hcs]

/-- A run of reads gives nothing exactly when some byte of it has no value. -/
theorem readRun_eq_none_iff (src : Nat → Option Byte) (n len : Nat) :
    readRun src n len = none ↔ ∃ k, k < len ∧ src (n + k) = none := by
  induction len generalizing n with
  | zero => simp [readRun]
  | succ len ih =>
    rw [readRun]
    constructor
    · intro h
      split at h
      · exact absurd h (by simp)
      · rename_i hno
        cases h0 : src n with
        | none => exact ⟨0, by omega, by simpa using h0⟩
        | some b =>
          cases h1 : readRun src (n + 1) len with
          | none =>
            obtain ⟨k, hk, hs⟩ := (ih (n + 1)).1 h1
            exact ⟨k + 1, by omega, by rw [show n + (k + 1) = n + 1 + k by omega]; exact hs⟩
          | some cs => exact absurd h1 (hno b cs h0)
    · rintro ⟨k, hk, hs⟩
      split
      · rename_i b cs hb hcs
        cases k with
        | zero => simp [hb] at hs
        | succ k =>
          have := (ih (n + 1)).2 ⟨k, by omega, by rw [show n + 1 + k = n + (k + 1) by omega]; exact hs⟩
          simp [this] at hcs
      · rfl

/-- A run of reads of a buffer that is written over the run answers. -/
theorem readRun_of_covers {m : Memory} {len : Nat} (h : Memory.covers m len) :
    ∃ bs, readRun (Memory.read? m) 0 len = some bs ∧ bs.length = len := by
  cases hr : readRun (Memory.read? m) 0 len with
  | some bs => exact ⟨bs, rfl, ((readRun_eq_some_iff _ _ _ _).1 hr).1⟩
  | none =>
    obtain ⟨k, hk, hs⟩ := (readRun_eq_none_iff _ _ _).1 hr
    have := h k hk
    simp at hs
    simp [hs] at this

end Sys2Proof.Machine
end

