-- ==== Sys2Proof/Laws/Pack.lean ====
section
/-! SUPPORT. The laws of the packer: where its groups lie, and what packing does to OUT. -/

namespace Sys2Proof.Machine

theorem mem_rowGroups {w g i : Nat} {p : Nat × Nat} (hp : p ∈ rowGroups w g i) :
    p.1 = i ∧ g ≤ p.2 ∧ p.2 < w / 8 := by
  simp only [rowGroups, List.mem_map] at hp
  obtain ⟨x, hx, rfl⟩ := hp
  rw [List.mem_range'_1] at hx
  exact ⟨rfl, hx.1, by simp only; omega⟩

theorem mem_rowsGroups {w i n : Nat} {p : Nat × Nat} (hp : p ∈ rowsGroups w i n) :
    i ≤ p.1 ∧ p.1 < i + n ∧ p.2 < w / 8 := by
  induction n generalizing i with
  | zero => simp [rowsGroups] at hp
  | succ n ih =>
    rw [rowsGroups, List.mem_append] at hp
    rcases hp with hp | hp
    · have := mem_rowGroups hp
      omega
    · have := ih hp
      omega

/-- Every group still to pack from a row of the image lies in the image. -/
theorem mem_groupsFrom {w h g i : Nat} {p : Nat × Nat} (hi : i < h) (hp : p ∈ groupsFrom w h g i) :
    p.1 < h ∧ p.2 < w / 8 := by
  rw [groupsFrom, List.mem_append] at hp
  rcases hp with hp | hp
  · have := mem_rowGroups hp
    omega
  · have := mem_rowsGroups hp
    omega

/-- Every group of an image is what is still to pack from group 0 of row 0. -/
theorem groupOrder_eq_groupsFrom {w h : Nat} (hh : 0 < h) : groupOrder w h = groupsFrom w h 0 0 := by
  obtain ⟨n, rfl⟩ : ∃ n, h = n + 1 := ⟨h - 1, by omega⟩
  rw [groupOrder, groupsFrom, rowsGroups]
  simp

/-- A group of the image has its output byte below `(W / 8) * H`. -/
theorem group_lt {w h i g : Nat} (hi : i < h) (hg : g < w / 8) : i * (w / 8) + g < w / 8 * h := by
  have : (i + 1) * (w / 8) ≤ h * (w / 8) := Nat.mul_le_mul_right _ hi
  nlinarith

/-- A property of memories that every write below `(W / 8) * H` keeps is kept by packing groups of the image. -/
theorem packGroups_keeps {P : Memory → Prop} {w h : Nat}
    (hP : ∀ m n v, n < w / 8 * h → P m → P (Memory.write m n v)) (src : Nat → Option Byte)
    (ps : List (Nat × Nat)) {m out : Memory} (hps : ∀ p ∈ ps, p.1 < h ∧ p.2 < w / 8) (hm : P m)
    (hr : packGroups src w ps m = some out) : P out := by
  induction ps generalizing m with
  | nil => simp only [packGroups, Option.some.injEq] at hr; exact hr ▸ hm
  | cons p ps ih =>
    rw [packGroups] at hr
    split at hr
    · rename_i m' hm'
      refine ih (fun q hq => hps q (List.mem_cons_of_mem _ hq)) ?_ hr
      unfold packGroup at hm'
      split at hm'
      · rw [← Option.some.inj hm']
        obtain ⟨h1, h2⟩ := hps p (by simp)
        exact hP _ _ _ (group_lt h1 h2) hm
      · exact absurd hm' (by simp)
    · exact absurd hr (by simp)

/-- Packing groups of the image keeps OUT canonical, inside its size, and unchanged from `(W / 8) * H` on. -/
theorem packGroups_spec (src : Nat → Option Byte) {w h : Nat} (ps : List (Nat × Nat)) {m out : Memory}
    (hps : ∀ p ∈ ps, p.1 < h ∧ p.2 < w / 8) (hr : packGroups src w ps m = some out) :
    (m.wf = true → out.wf = true) ∧
    (∀ cap, w / 8 * h ≤ cap → m.below cap = true → out.below cap = true) ∧
    ∀ n, w / 8 * h ≤ n → Memory.read? out n = Memory.read? m n := by
  refine ⟨fun hm => ?_, fun cap hc hm => ?_, fun n hn => ?_⟩
  · exact packGroups_keeps (P := fun m => m.wf = true) (fun m n v _ h => Memory.wf_write n v h) src ps
      hps hm hr
  · exact packGroups_keeps (P := fun m => m.below cap = true)
      (fun m n v hn h => Memory.below_write v (lt_of_lt_of_le hn hc) h) src ps hps hm hr
  · exact packGroups_keeps (P := fun m' => Memory.read? m' n = Memory.read? m n)
      (fun m' k v hk h => by rw [Memory.read?_write_of_ne _ _ (by omega)]; exact h) src ps hps rfl hr

/-- Packing gives nothing only where a source byte of one of its groups has no value. -/
theorem packGroups_eq_none {src : Nat → Option Byte} {w : Nat} {ps : List (Nat × Nat)} {m : Memory}
    (hr : packGroups src w ps m = none) :
    ∃ p ∈ ps, ∃ k, k < 8 ∧ src (p.1 * w + 8 * p.2 + k) = none := by
  induction ps generalizing m with
  | nil => simp [packGroups] at hr
  | cons p ps ih =>
    rw [packGroups] at hr
    split at hr
    · obtain ⟨q, hq, hk⟩ := ih hr
      exact ⟨q, List.mem_cons_of_mem _ hq, hk⟩
    · rename_i hn
      unfold packGroup at hn
      split at hn
      · exact absurd hn (by simp)
      · rename_i hrun
        exact ⟨p, by simp, (readRun_eq_none_iff _ _ _).1 hrun⟩

end Sys2Proof.Machine
end

