-- ==== Sys2Proof/Laws/State.lean ====
section
/-! SUPPORT. What each named update of the block does to each field and to each computed view: one lemma each, true by rfl. -/

namespace Sys2Proof.Machine

variable (s : Block)

/-! ### enter -/

@[simp] theorem Block.enter_done (st : Stage) : (s.enter st).done = s.done := rfl
@[simp] theorem Block.enter_ovr (st : Stage) : (s.enter st).ovr = s.ovr := rfl
@[simp] theorem Block.enter_err (st : Stage) : (s.enter st).err = s.err := rfl
@[simp] theorem Block.enter_doneIe (st : Stage) : (s.enter st).doneIe = s.doneIe := rfl
@[simp] theorem Block.enter_width (st : Stage) : (s.enter st).width = s.width := rfl
@[simp] theorem Block.enter_height (st : Stage) : (s.enter st).height = s.height := rfl
@[simp] theorem Block.enter_inLen (st : Stage) : (s.enter st).inLen = s.inLen := rfl
@[simp] theorem Block.enter_outLen (st : Stage) : (s.enter st).outLen = s.outLen := rfl
@[simp] theorem Block.enter_inBuf (st : Stage) : (s.enter st).inBuf = s.inBuf := rfl
@[simp] theorem Block.enter_monoBuf (st : Stage) : (s.enter st).monoBuf = s.monoBuf := rfl
@[simp] theorem Block.enter_outBuf (st : Stage) : (s.enter st).outBuf = s.outBuf := rfl
@[simp] theorem Block.enter_phase (st : Stage) : (s.enter st).phase = s.phase := rfl
@[simp] theorem Block.enter_op (st : Stage) : (s.enter st).op = s.op := rfl
@[simp] theorem Block.enter_latW (st : Stage) : (s.enter st).latW = s.latW := rfl
@[simp] theorem Block.enter_latH (st : Stage) : (s.enter st).latH = s.latH := rfl
@[simp] theorem Block.enter_latLen (st : Stage) : (s.enter st).latLen = s.latLen := rfl
@[simp] theorem Block.enter_stage (st : Stage) : (s.enter st).stage = st := rfl
@[simp] theorem Block.enter_i (st : Stage) : (s.enter st).i = 0 := rfl
@[simp] theorem Block.enter_j (st : Stage) : (s.enter st).j = 0 := rfl
@[simp] theorem Block.enter_dir (st : Stage) : (s.enter st).dir = .forward := rfl
@[simp] theorem Block.enter_fault (st : Stage) : (s.enter st).fault = s.fault := rfl
@[simp] theorem Block.enter_busy (st : Stage) : (s.enter st).busy = s.busy := rfl
@[simp] theorem Block.enter_imgW (st : Stage) : (s.enter st).imgW = s.imgW := rfl
@[simp] theorem Block.enter_imgH (st : Stage) : (s.enter st).imgH = s.imgH := rfl
@[simp] theorem Block.enter_imgLen (st : Stage) : (s.enter st).imgLen = s.imgLen := rfl
@[simp] theorem Block.enter_pixels (st : Stage) : (s.enter st).pixels = s.pixels := rfl
@[simp] theorem Block.enter_packedLen (st : Stage) : (s.enter st).packedLen = s.packedLen := rfl
@[simp] theorem Block.enter_irq (st : Stage) : (s.enter st).irq = s.irq := rfl

/-! ### accept -/

@[simp] theorem Block.accept_done (o : Op) : (s.accept o).done = false := rfl
@[simp] theorem Block.accept_ovr (o : Op) : (s.accept o).ovr = s.ovr := rfl
@[simp] theorem Block.accept_err (o : Op) : (s.accept o).err = 0#4 := rfl
@[simp] theorem Block.accept_doneIe (o : Op) : (s.accept o).doneIe = s.doneIe := rfl
@[simp] theorem Block.accept_width (o : Op) : (s.accept o).width = s.width := rfl
@[simp] theorem Block.accept_height (o : Op) : (s.accept o).height = s.height := rfl
@[simp] theorem Block.accept_inLen (o : Op) : (s.accept o).inLen = s.inLen := rfl
@[simp] theorem Block.accept_outLen (o : Op) : (s.accept o).outLen = 0#32 := rfl
@[simp] theorem Block.accept_inBuf (o : Op) : (s.accept o).inBuf = s.inBuf := rfl
@[simp] theorem Block.accept_monoBuf (o : Op) : (s.accept o).monoBuf = s.monoBuf := rfl
@[simp] theorem Block.accept_outBuf (o : Op) : (s.accept o).outBuf = s.outBuf := rfl
@[simp] theorem Block.accept_phase (o : Op) : (s.accept o).phase = .run := rfl
@[simp] theorem Block.accept_op (o : Op) : (s.accept o).op = o := rfl
@[simp] theorem Block.accept_latW (o : Op) : (s.accept o).latW = s.width := rfl
@[simp] theorem Block.accept_latH (o : Op) : (s.accept o).latH = s.height := rfl
@[simp] theorem Block.accept_latLen (o : Op) : (s.accept o).latLen = s.inLen := rfl
@[simp] theorem Block.accept_stage (o : Op) : (s.accept o).stage = .validate := rfl
@[simp] theorem Block.accept_i (o : Op) : (s.accept o).i = 0 := rfl
@[simp] theorem Block.accept_j (o : Op) : (s.accept o).j = 0 := rfl
@[simp] theorem Block.accept_dir (o : Op) : (s.accept o).dir = .forward := rfl
@[simp] theorem Block.accept_fault (o : Op) : (s.accept o).fault = s.fault := rfl
@[simp] theorem Block.accept_busy (o : Op) : (s.accept o).busy = true := rfl
@[simp] theorem Block.accept_imgW (o : Op) : (s.accept o).imgW = s.width.toInt := rfl
@[simp] theorem Block.accept_imgH (o : Op) : (s.accept o).imgH = s.height.toInt := rfl
@[simp] theorem Block.accept_imgLen (o : Op) : (s.accept o).imgLen = s.inLen.toNat := rfl

/-! ### dropCommand -/

@[simp] theorem Block.dropCommand_done : s.dropCommand.done = s.done := rfl
@[simp] theorem Block.dropCommand_ovr : s.dropCommand.ovr = true := rfl
@[simp] theorem Block.dropCommand_err : s.dropCommand.err = s.err := rfl
@[simp] theorem Block.dropCommand_doneIe : s.dropCommand.doneIe = s.doneIe := rfl
@[simp] theorem Block.dropCommand_width : s.dropCommand.width = s.width := rfl
@[simp] theorem Block.dropCommand_height : s.dropCommand.height = s.height := rfl
@[simp] theorem Block.dropCommand_inLen : s.dropCommand.inLen = s.inLen := rfl
@[simp] theorem Block.dropCommand_outLen : s.dropCommand.outLen = s.outLen := rfl
@[simp] theorem Block.dropCommand_inBuf : s.dropCommand.inBuf = s.inBuf := rfl
@[simp] theorem Block.dropCommand_monoBuf : s.dropCommand.monoBuf = s.monoBuf := rfl
@[simp] theorem Block.dropCommand_outBuf : s.dropCommand.outBuf = s.outBuf := rfl
@[simp] theorem Block.dropCommand_phase : s.dropCommand.phase = s.phase := rfl
@[simp] theorem Block.dropCommand_op : s.dropCommand.op = s.op := rfl
@[simp] theorem Block.dropCommand_latW : s.dropCommand.latW = s.latW := rfl
@[simp] theorem Block.dropCommand_latH : s.dropCommand.latH = s.latH := rfl
@[simp] theorem Block.dropCommand_latLen : s.dropCommand.latLen = s.latLen := rfl
@[simp] theorem Block.dropCommand_stage : s.dropCommand.stage = s.stage := rfl
@[simp] theorem Block.dropCommand_i : s.dropCommand.i = s.i := rfl
@[simp] theorem Block.dropCommand_j : s.dropCommand.j = s.j := rfl
@[simp] theorem Block.dropCommand_dir : s.dropCommand.dir = s.dir := rfl
@[simp] theorem Block.dropCommand_fault : s.dropCommand.fault = s.fault := rfl
@[simp] theorem Block.dropCommand_busy : s.dropCommand.busy = s.busy := rfl
@[simp] theorem Block.dropCommand_imgW : s.dropCommand.imgW = s.imgW := rfl
@[simp] theorem Block.dropCommand_imgH : s.dropCommand.imgH = s.imgH := rfl
@[simp] theorem Block.dropCommand_imgLen : s.dropCommand.imgLen = s.imgLen := rfl
@[simp] theorem Block.dropCommand_pixels : s.dropCommand.pixels = s.pixels := rfl
@[simp] theorem Block.dropCommand_packedLen : s.dropCommand.packedLen = s.packedLen := rfl
@[simp] theorem Block.dropCommand_irq : s.dropCommand.irq = s.irq := rfl

/-! ### raiseError -/

@[simp] theorem Block.raiseError_done (e : CommandError) : (s.raiseError e).done = true := rfl
@[simp] theorem Block.raiseError_ovr (e : CommandError) : (s.raiseError e).ovr = s.ovr := rfl
@[simp] theorem Block.raiseError_err (e : CommandError) : (s.raiseError e).err = e.code := rfl
@[simp] theorem Block.raiseError_doneIe (e : CommandError) : (s.raiseError e).doneIe = s.doneIe := rfl
@[simp] theorem Block.raiseError_width (e : CommandError) : (s.raiseError e).width = s.width := rfl
@[simp] theorem Block.raiseError_height (e : CommandError) : (s.raiseError e).height = s.height := rfl
@[simp] theorem Block.raiseError_inLen (e : CommandError) : (s.raiseError e).inLen = s.inLen := rfl
@[simp] theorem Block.raiseError_outLen (e : CommandError) : (s.raiseError e).outLen = 0#32 := rfl
@[simp] theorem Block.raiseError_inBuf (e : CommandError) : (s.raiseError e).inBuf = s.inBuf := rfl
@[simp] theorem Block.raiseError_monoBuf (e : CommandError) : (s.raiseError e).monoBuf = s.monoBuf := rfl
@[simp] theorem Block.raiseError_outBuf (e : CommandError) : (s.raiseError e).outBuf = s.outBuf := rfl
@[simp] theorem Block.raiseError_phase (e : CommandError) : (s.raiseError e).phase = .idle := rfl
@[simp] theorem Block.raiseError_op (e : CommandError) : (s.raiseError e).op = s.op := rfl
@[simp] theorem Block.raiseError_latW (e : CommandError) : (s.raiseError e).latW = s.latW := rfl
@[simp] theorem Block.raiseError_latH (e : CommandError) : (s.raiseError e).latH = s.latH := rfl
@[simp] theorem Block.raiseError_latLen (e : CommandError) : (s.raiseError e).latLen = s.latLen := rfl
@[simp] theorem Block.raiseError_stage (e : CommandError) : (s.raiseError e).stage = s.stage := rfl
@[simp] theorem Block.raiseError_i (e : CommandError) : (s.raiseError e).i = s.i := rfl
@[simp] theorem Block.raiseError_j (e : CommandError) : (s.raiseError e).j = s.j := rfl
@[simp] theorem Block.raiseError_dir (e : CommandError) : (s.raiseError e).dir = s.dir := rfl
@[simp] theorem Block.raiseError_fault (e : CommandError) : (s.raiseError e).fault = s.fault := rfl
@[simp] theorem Block.raiseError_busy (e : CommandError) : (s.raiseError e).busy = false := rfl
@[simp] theorem Block.raiseError_imgW (e : CommandError) : (s.raiseError e).imgW = s.imgW := rfl
@[simp] theorem Block.raiseError_imgH (e : CommandError) : (s.raiseError e).imgH = s.imgH := rfl
@[simp] theorem Block.raiseError_imgLen (e : CommandError) : (s.raiseError e).imgLen = s.imgLen := rfl
@[simp] theorem Block.raiseError_pixels (e : CommandError) : (s.raiseError e).pixels = s.pixels := rfl
@[simp] theorem Block.raiseError_packedLen (e : CommandError) : (s.raiseError e).packedLen = s.packedLen := rfl

/-! ### complete -/

@[simp] theorem Block.complete_done (len : Nat) : (s.complete len).done = true := rfl
@[simp] theorem Block.complete_ovr (len : Nat) : (s.complete len).ovr = s.ovr := rfl
@[simp] theorem Block.complete_err (len : Nat) : (s.complete len).err = 0#4 := rfl
@[simp] theorem Block.complete_doneIe (len : Nat) : (s.complete len).doneIe = s.doneIe := rfl
@[simp] theorem Block.complete_width (len : Nat) : (s.complete len).width = s.width := rfl
@[simp] theorem Block.complete_height (len : Nat) : (s.complete len).height = s.height := rfl
@[simp] theorem Block.complete_inLen (len : Nat) : (s.complete len).inLen = s.inLen := rfl
@[simp] theorem Block.complete_outLen (len : Nat) : (s.complete len).outLen = BitVec.ofNat 32 len := rfl
@[simp] theorem Block.complete_inBuf (len : Nat) : (s.complete len).inBuf = s.inBuf := rfl
@[simp] theorem Block.complete_monoBuf (len : Nat) : (s.complete len).monoBuf = s.monoBuf := rfl
@[simp] theorem Block.complete_outBuf (len : Nat) : (s.complete len).outBuf = s.outBuf := rfl
@[simp] theorem Block.complete_phase (len : Nat) : (s.complete len).phase = .idle := rfl
@[simp] theorem Block.complete_op (len : Nat) : (s.complete len).op = s.op := rfl
@[simp] theorem Block.complete_latW (len : Nat) : (s.complete len).latW = s.latW := rfl
@[simp] theorem Block.complete_latH (len : Nat) : (s.complete len).latH = s.latH := rfl
@[simp] theorem Block.complete_latLen (len : Nat) : (s.complete len).latLen = s.latLen := rfl
@[simp] theorem Block.complete_stage (len : Nat) : (s.complete len).stage = s.stage := rfl
@[simp] theorem Block.complete_i (len : Nat) : (s.complete len).i = s.i := rfl
@[simp] theorem Block.complete_j (len : Nat) : (s.complete len).j = s.j := rfl
@[simp] theorem Block.complete_dir (len : Nat) : (s.complete len).dir = s.dir := rfl
@[simp] theorem Block.complete_fault (len : Nat) : (s.complete len).fault = s.fault := rfl
@[simp] theorem Block.complete_busy (len : Nat) : (s.complete len).busy = false := rfl
@[simp] theorem Block.complete_imgW (len : Nat) : (s.complete len).imgW = s.imgW := rfl
@[simp] theorem Block.complete_imgH (len : Nat) : (s.complete len).imgH = s.imgH := rfl
@[simp] theorem Block.complete_imgLen (len : Nat) : (s.complete len).imgLen = s.imgLen := rfl
@[simp] theorem Block.complete_pixels (len : Nat) : (s.complete len).pixels = s.pixels := rfl
@[simp] theorem Block.complete_packedLen (len : Nat) : (s.complete len).packedLen = s.packedLen := rfl

/-! ### writeStatus -/

@[simp] theorem Block.writeStatus_done (v : Word) : (s.writeStatus v).done = (if v.getLsbD 1 then false else s.done) := rfl
@[simp] theorem Block.writeStatus_ovr (v : Word) : (s.writeStatus v).ovr = (if v.getLsbD 2 then false else s.ovr) := rfl
@[simp] theorem Block.writeStatus_err (v : Word) : (s.writeStatus v).err = s.err := rfl
@[simp] theorem Block.writeStatus_doneIe (v : Word) : (s.writeStatus v).doneIe = s.doneIe := rfl
@[simp] theorem Block.writeStatus_width (v : Word) : (s.writeStatus v).width = s.width := rfl
@[simp] theorem Block.writeStatus_height (v : Word) : (s.writeStatus v).height = s.height := rfl
@[simp] theorem Block.writeStatus_inLen (v : Word) : (s.writeStatus v).inLen = s.inLen := rfl
@[simp] theorem Block.writeStatus_outLen (v : Word) : (s.writeStatus v).outLen = s.outLen := rfl
@[simp] theorem Block.writeStatus_inBuf (v : Word) : (s.writeStatus v).inBuf = s.inBuf := rfl
@[simp] theorem Block.writeStatus_monoBuf (v : Word) : (s.writeStatus v).monoBuf = s.monoBuf := rfl
@[simp] theorem Block.writeStatus_outBuf (v : Word) : (s.writeStatus v).outBuf = s.outBuf := rfl
@[simp] theorem Block.writeStatus_phase (v : Word) : (s.writeStatus v).phase = s.phase := rfl
@[simp] theorem Block.writeStatus_op (v : Word) : (s.writeStatus v).op = s.op := rfl
@[simp] theorem Block.writeStatus_latW (v : Word) : (s.writeStatus v).latW = s.latW := rfl
@[simp] theorem Block.writeStatus_latH (v : Word) : (s.writeStatus v).latH = s.latH := rfl
@[simp] theorem Block.writeStatus_latLen (v : Word) : (s.writeStatus v).latLen = s.latLen := rfl
@[simp] theorem Block.writeStatus_stage (v : Word) : (s.writeStatus v).stage = s.stage := rfl
@[simp] theorem Block.writeStatus_i (v : Word) : (s.writeStatus v).i = s.i := rfl
@[simp] theorem Block.writeStatus_j (v : Word) : (s.writeStatus v).j = s.j := rfl
@[simp] theorem Block.writeStatus_dir (v : Word) : (s.writeStatus v).dir = s.dir := rfl
@[simp] theorem Block.writeStatus_fault (v : Word) : (s.writeStatus v).fault = s.fault := rfl
@[simp] theorem Block.writeStatus_busy (v : Word) : (s.writeStatus v).busy = s.busy := rfl
@[simp] theorem Block.writeStatus_imgW (v : Word) : (s.writeStatus v).imgW = s.imgW := rfl
@[simp] theorem Block.writeStatus_imgH (v : Word) : (s.writeStatus v).imgH = s.imgH := rfl
@[simp] theorem Block.writeStatus_imgLen (v : Word) : (s.writeStatus v).imgLen = s.imgLen := rfl
@[simp] theorem Block.writeStatus_pixels (v : Word) : (s.writeStatus v).pixels = s.pixels := rfl
@[simp] theorem Block.writeStatus_packedLen (v : Word) : (s.writeStatus v).packedLen = s.packedLen := rfl

/-! ### recordFault -/

@[simp] theorem Block.recordFault_done (r : Fault) : (s.recordFault r).done = s.done := rfl
@[simp] theorem Block.recordFault_ovr (r : Fault) : (s.recordFault r).ovr = s.ovr := rfl
@[simp] theorem Block.recordFault_err (r : Fault) : (s.recordFault r).err = s.err := rfl
@[simp] theorem Block.recordFault_doneIe (r : Fault) : (s.recordFault r).doneIe = s.doneIe := rfl
@[simp] theorem Block.recordFault_width (r : Fault) : (s.recordFault r).width = s.width := rfl
@[simp] theorem Block.recordFault_height (r : Fault) : (s.recordFault r).height = s.height := rfl
@[simp] theorem Block.recordFault_inLen (r : Fault) : (s.recordFault r).inLen = s.inLen := rfl
@[simp] theorem Block.recordFault_outLen (r : Fault) : (s.recordFault r).outLen = s.outLen := rfl
@[simp] theorem Block.recordFault_inBuf (r : Fault) : (s.recordFault r).inBuf = s.inBuf := rfl
@[simp] theorem Block.recordFault_monoBuf (r : Fault) : (s.recordFault r).monoBuf = s.monoBuf := rfl
@[simp] theorem Block.recordFault_outBuf (r : Fault) : (s.recordFault r).outBuf = s.outBuf := rfl
@[simp] theorem Block.recordFault_phase (r : Fault) : (s.recordFault r).phase = s.phase := rfl
@[simp] theorem Block.recordFault_op (r : Fault) : (s.recordFault r).op = s.op := rfl
@[simp] theorem Block.recordFault_latW (r : Fault) : (s.recordFault r).latW = s.latW := rfl
@[simp] theorem Block.recordFault_latH (r : Fault) : (s.recordFault r).latH = s.latH := rfl
@[simp] theorem Block.recordFault_latLen (r : Fault) : (s.recordFault r).latLen = s.latLen := rfl
@[simp] theorem Block.recordFault_stage (r : Fault) : (s.recordFault r).stage = s.stage := rfl
@[simp] theorem Block.recordFault_i (r : Fault) : (s.recordFault r).i = s.i := rfl
@[simp] theorem Block.recordFault_j (r : Fault) : (s.recordFault r).j = s.j := rfl
@[simp] theorem Block.recordFault_dir (r : Fault) : (s.recordFault r).dir = s.dir := rfl
@[simp] theorem Block.recordFault_fault (r : Fault) : (s.recordFault r).fault = some (s.fault.getD r) := rfl
@[simp] theorem Block.recordFault_busy (r : Fault) : (s.recordFault r).busy = s.busy := rfl
@[simp] theorem Block.recordFault_imgW (r : Fault) : (s.recordFault r).imgW = s.imgW := rfl
@[simp] theorem Block.recordFault_imgH (r : Fault) : (s.recordFault r).imgH = s.imgH := rfl
@[simp] theorem Block.recordFault_imgLen (r : Fault) : (s.recordFault r).imgLen = s.imgLen := rfl
@[simp] theorem Block.recordFault_pixels (r : Fault) : (s.recordFault r).pixels = s.pixels := rfl
@[simp] theorem Block.recordFault_packedLen (r : Fault) : (s.recordFault r).packedLen = s.packedLen := rfl
@[simp] theorem Block.recordFault_irq (r : Fault) : (s.recordFault r).irq = s.irq := rfl

/-! ### scan -/

@[simp] theorem Block.scan_done (ps : List (Int × Nat)) : (s.scan ps).done = s.done := rfl
@[simp] theorem Block.scan_ovr (ps : List (Int × Nat)) : (s.scan ps).ovr = s.ovr := rfl
@[simp] theorem Block.scan_err (ps : List (Int × Nat)) : (s.scan ps).err = s.err := rfl
@[simp] theorem Block.scan_doneIe (ps : List (Int × Nat)) : (s.scan ps).doneIe = s.doneIe := rfl
@[simp] theorem Block.scan_width (ps : List (Int × Nat)) : (s.scan ps).width = s.width := rfl
@[simp] theorem Block.scan_height (ps : List (Int × Nat)) : (s.scan ps).height = s.height := rfl
@[simp] theorem Block.scan_inLen (ps : List (Int × Nat)) : (s.scan ps).inLen = s.inLen := rfl
@[simp] theorem Block.scan_outLen (ps : List (Int × Nat)) : (s.scan ps).outLen = s.outLen := rfl
@[simp] theorem Block.scan_inBuf (ps : List (Int × Nat)) : (s.scan ps).inBuf = s.inBuf := rfl
@[simp] theorem Block.scan_monoBuf (ps : List (Int × Nat)) : (s.scan ps).monoBuf = ps.foldl (visit Config.freeMono s.imgW s.imgH) s.monoBuf := rfl
@[simp] theorem Block.scan_outBuf (ps : List (Int × Nat)) : (s.scan ps).outBuf = s.outBuf := rfl
@[simp] theorem Block.scan_phase (ps : List (Int × Nat)) : (s.scan ps).phase = s.phase := rfl
@[simp] theorem Block.scan_op (ps : List (Int × Nat)) : (s.scan ps).op = s.op := rfl
@[simp] theorem Block.scan_latW (ps : List (Int × Nat)) : (s.scan ps).latW = s.latW := rfl
@[simp] theorem Block.scan_latH (ps : List (Int × Nat)) : (s.scan ps).latH = s.latH := rfl
@[simp] theorem Block.scan_latLen (ps : List (Int × Nat)) : (s.scan ps).latLen = s.latLen := rfl
@[simp] theorem Block.scan_stage (ps : List (Int × Nat)) : (s.scan ps).stage = s.stage := rfl
@[simp] theorem Block.scan_i (ps : List (Int × Nat)) : (s.scan ps).i = s.i := rfl
@[simp] theorem Block.scan_j (ps : List (Int × Nat)) : (s.scan ps).j = s.j := rfl
@[simp] theorem Block.scan_dir (ps : List (Int × Nat)) : (s.scan ps).dir = s.dir := rfl
@[simp] theorem Block.scan_fault (ps : List (Int × Nat)) : (s.scan ps).fault = s.fault := rfl
@[simp] theorem Block.scan_busy (ps : List (Int × Nat)) : (s.scan ps).busy = s.busy := rfl
@[simp] theorem Block.scan_imgW (ps : List (Int × Nat)) : (s.scan ps).imgW = s.imgW := rfl
@[simp] theorem Block.scan_imgH (ps : List (Int × Nat)) : (s.scan ps).imgH = s.imgH := rfl
@[simp] theorem Block.scan_imgLen (ps : List (Int × Nat)) : (s.scan ps).imgLen = s.imgLen := rfl
@[simp] theorem Block.scan_pixels (ps : List (Int × Nat)) : (s.scan ps).pixels = s.pixels := rfl
@[simp] theorem Block.scan_packedLen (ps : List (Int × Nat)) : (s.scan ps).packedLen = s.packedLen := rfl
@[simp] theorem Block.scan_irq (ps : List (Int × Nat)) : (s.scan ps).irq = s.irq := rfl

/-! ### resetBlock -/

@[simp] theorem Block.resetBlock_done : s.resetBlock.done = Block.reset.done := rfl
@[simp] theorem Block.resetBlock_ovr : s.resetBlock.ovr = Block.reset.ovr := rfl
@[simp] theorem Block.resetBlock_err : s.resetBlock.err = Block.reset.err := rfl
@[simp] theorem Block.resetBlock_doneIe : s.resetBlock.doneIe = Block.reset.doneIe := rfl
@[simp] theorem Block.resetBlock_width : s.resetBlock.width = Block.reset.width := rfl
@[simp] theorem Block.resetBlock_height : s.resetBlock.height = Block.reset.height := rfl
@[simp] theorem Block.resetBlock_inLen : s.resetBlock.inLen = Block.reset.inLen := rfl
@[simp] theorem Block.resetBlock_outLen : s.resetBlock.outLen = Block.reset.outLen := rfl
@[simp] theorem Block.resetBlock_inBuf : s.resetBlock.inBuf = Block.reset.inBuf := rfl
@[simp] theorem Block.resetBlock_monoBuf : s.resetBlock.monoBuf = Block.reset.monoBuf := rfl
@[simp] theorem Block.resetBlock_outBuf : s.resetBlock.outBuf = Block.reset.outBuf := rfl
@[simp] theorem Block.resetBlock_phase : s.resetBlock.phase = Block.reset.phase := rfl
@[simp] theorem Block.resetBlock_op : s.resetBlock.op = Block.reset.op := rfl
@[simp] theorem Block.resetBlock_latW : s.resetBlock.latW = Block.reset.latW := rfl
@[simp] theorem Block.resetBlock_latH : s.resetBlock.latH = Block.reset.latH := rfl
@[simp] theorem Block.resetBlock_latLen : s.resetBlock.latLen = Block.reset.latLen := rfl
@[simp] theorem Block.resetBlock_stage : s.resetBlock.stage = Block.reset.stage := rfl
@[simp] theorem Block.resetBlock_i : s.resetBlock.i = Block.reset.i := rfl
@[simp] theorem Block.resetBlock_j : s.resetBlock.j = Block.reset.j := rfl
@[simp] theorem Block.resetBlock_dir : s.resetBlock.dir = Block.reset.dir := rfl
@[simp] theorem Block.resetBlock_fault : s.resetBlock.fault = s.fault := rfl
@[simp] theorem Block.resetBlock_busy : s.resetBlock.busy = false := rfl

/-! ### busy -/

/-- A busy block is one whose phase is RUN (10_state.md R40). -/
theorem Block.busy_iff : s.busy = true ↔ s.phase = .run := by
  simp [Block.busy]

/-- An idle block is one that is not busy. -/
theorem Block.busy_eq_false_iff : s.busy = false ↔ s.phase = .idle := by
  cases h : s.phase <;> simp [Block.busy, h]

/-! ### The block inside a state -/

section

variable (s : State)

@[simp] theorem State.onBlock_next (b : Block) : s.onBlock (.next b) = .next { s with toBlock := b } := rfl
@[simp] theorem State.onBlock_fault (r : Fault) : s.onBlock (.fault r) = .fault r := rfl
@[simp] theorem State.onBlock_refused (r : Refusal) : s.onBlock (.refused r) = .refused r := rfl
@[simp] theorem State.withBlock_toBlock (b : Block) : ({ s with toBlock := b } : State).toBlock = b := rfl
@[simp] theorem State.withResp_toBlock (r : Option Response) :
    ({ s with resp := r } : State).toBlock = s.toBlock := rfl
@[simp] theorem State.withDraws_toBlock (n : Nat) : ({ s with draws := n } : State).toBlock = s.toBlock := rfl
@[simp] theorem State.withSched_toBlock (q : List Event) : ({ s with sched := q } : State).toBlock = s.toBlock := rfl

variable {s : State}

/-- A next state comes from a next block, and keeps the environment. -/
theorem State.onBlock_eq_next {o : Host.Outcome Block Fault Refusal} {t : State} :
    s.onBlock o = .next t ↔ o = .next t.toBlock ∧ t = { s with toBlock := t.toBlock } := by
  cases o with
  | next b =>
    constructor
    · intro h
      cases h
      exact ⟨rfl, rfl⟩
    · rintro ⟨h, ht⟩
      cases h
      exact congrArg _ ht.symm
  | fault r => simp
  | refused r => simp

theorem State.onBlock_eq_fault {o : Host.Outcome Block Fault Refusal} {r : Fault} :
    s.onBlock o = .fault r ↔ o = .fault r := by
  cases o <;> simp

theorem State.onBlock_eq_refused {o : Host.Outcome Block Fault Refusal} {r : Refusal} :
    s.onBlock o = .refused r ↔ o = .refused r := by
  cases o <;> simp

end

end Sys2Proof.Machine
end

