-- ==== Sys2Proof/Laws/Scan.lean ====
section
/-! SUPPORT. The laws of the scan: where its visits lie, and what a visit keeps of MONO. -/

namespace Sys2Proof.Machine

/-! ### Indexes -/

theorem inBounds_iff (w h x y : Int) :
    inBounds w h x y = true ↔ 0 ≤ x ∧ x < w ∧ 0 ≤ y ∧ y < h := by
  simp [inBounds]

/-- A pixel inside the image has its index below `W * H`. -/
theorem idx_lt {w h x y : Int} (hb : inBounds w h x y = true) : idx w x y < (w * h).toNat := by
  obtain ⟨h1, h2, h3, h4⟩ := (inBounds_iff w h x y).1 hb
  have h5 : y * w + x < w * h := by nlinarith
  have h6 : 0 ≤ y * w := mul_nonneg h3 (by omega)
  unfold idx
  omega

/-- Distinct pixels inside the image have distinct indexes. -/
theorem idx_inj {w h x y x' y' : Int} (hb : inBounds w h x y = true) (hb' : inBounds w h x' y' = true)
    (e : idx w x y = idx w x' y') : x = x' ∧ y = y' := by
  obtain ⟨h1, h2, h3, h4⟩ := (inBounds_iff w h x y).1 hb
  obtain ⟨h1', h2', h3', h4'⟩ := (inBounds_iff w h x' y').1 hb'
  have h6 : 0 ≤ y * w := mul_nonneg h3 (by omega)
  have h6' : 0 ≤ y' * w := mul_nonneg h3' (by omega)
  have e' : y * w + x = y' * w + x' := by unfold idx at e; omega
  have hy : y = y' := by
    by_contra hne
    rcases lt_or_gt_of_ne hne with hlt | hlt
    · nlinarith
    · nlinarith
  subst hy
  exact ⟨by omega, rfl⟩

/-! ### The positions of the scan -/

theorem mem_rowVisits {d : Dir} {w j : Int} {i : Nat} {p : Int × Nat} (h0 : 0 ≤ j) (h1 : j < w)
    (hp : p ∈ rowVisits d w j i) : 0 ≤ p.1 ∧ p.1 < w ∧ p.2 = i := by
  simp only [rowVisits, List.mem_map] at hp
  obtain ⟨x, hx, rfl⟩ := hp
  cases d <;> simp only [colsFrom, List.mem_map, List.mem_range] at hx <;>
    obtain ⟨k, hk, rfl⟩ := hx <;> refine ⟨?_, ?_, rfl⟩ <;> simp only <;> omega

theorem Dir.start_bounds (d : Dir) {w : Int} (hw : 0 < w) : 0 ≤ d.start w ∧ d.start w < w := by
  cases d <;> simp only [Dir.start] <;> omega

theorem mem_rowsVisits {w : Int} (hw : 0 < w) {i n : Nat} {p : Int × Nat}
    (hp : p ∈ rowsVisits w i n) : 0 ≤ p.1 ∧ p.1 < w ∧ i ≤ p.2 ∧ p.2 < i + n := by
  induction n generalizing i with
  | zero => simp [rowsVisits] at hp
  | succ n ih =>
    rw [rowsVisits, List.mem_append] at hp
    rcases hp with hp | hp
    · have hb := Dir.start_bounds (dirOf i) hw
      have := mem_rowVisits hb.1 hb.2 hp
      omega
    · have := ih hp
      omega

/-- Every visit still to make from a position inside the image lies inside the image. -/
theorem inBounds_of_mem_visitsFrom {d : Dir} {w h j : Int} {i : Nat} {p : Int × Nat} (h0 : 0 ≤ j)
    (h1 : j < w) (h2 : (i : Int) < h) (hp : p ∈ visitsFrom d w h j i) :
    inBounds w h p.1 p.2 = true := by
  rw [inBounds_iff]
  rw [visitsFrom, List.mem_append] at hp
  rcases hp with hp | hp
  · have := mem_rowVisits h0 h1 hp
    omega
  · have := mem_rowsVisits (by omega) hp
    omega

/-- The whole visit sequence is what is still to make from the start of row 0. -/
theorem visitOrder_eq_visitsFrom {w h : Int} (hh : 0 < h) :
    visitOrder w h = visitsFrom .forward w h 0 0 := by
  obtain ⟨n, hn⟩ : ∃ n, h.toNat = n + 1 := ⟨h.toNat - 1, by omega⟩
  rw [visitOrder, visitsFrom, hn, rowsVisits]
  rfl

/-! ### What a visit does to MONO -/

/-- Everything one target's update can do. -/
theorem read?_diffuse (fill : Nat → Byte) (w h err : Int) (m : Memory) (t : Int × Int × Int) (n : Nat) :
    Memory.read? (diffuse fill w h err m t) n =
      if inBounds w h t.1 t.2.1 = true ∧ n = idx w t.1 t.2.1 then
        some (accumulate (Memory.readOr fill m n) (frag t.2.2 err))
      else Memory.read? m n := by
  unfold diffuse
  by_cases hb : inBounds w h t.1 t.2.1 = true
  · rw [if_pos hb, Memory.read?_write]
    by_cases hn : n = idx w t.1 t.2.1
    · subst hn; simp [hb]
    · simp [hn]
  · simp [hb]

/-- The targets of a visit are not the visited pixel. -/
theorem targets_ne_self {d : Dir} {j i : Int} {t : Int × Int × Int} (ht : t ∈ targets d j i) :
    ¬(t.1 = j ∧ t.2.1 = i) := by
  simp only [targets, List.mem_cons, List.not_mem_nil, or_false] at ht
  rcases ht with rfl | rfl | rfl | rfl <;> cases d <;> simp [Dir.step]

/-- The targets of a visit are distinct pixels. -/
theorem targets_pairwise (d : Dir) (j i : Int) :
    (targets d j i).Pairwise (fun a b => ¬(a.1 = b.1 ∧ a.2.1 = b.2.1)) := by
  cases d <;> simp [targets, Dir.step]
  omega

/-- Everything the updates of distinct targets do: each inside the image gets its fragment, nothing else changes. -/
theorem read?_foldl_diffuse (fill : Nat → Byte) (w h err : Int) (ts : List (Int × Int × Int)) (m : Memory)
    (hp : ts.Pairwise (fun a b => ¬(a.1 = b.1 ∧ a.2.1 = b.2.1))) :
    (∀ t ∈ ts, inBounds w h t.1 t.2.1 = true →
      Memory.read? (ts.foldl (diffuse fill w h err) m) (idx w t.1 t.2.1) =
        some (accumulate (Memory.readOr fill m (idx w t.1 t.2.1)) (frag t.2.2 err))) ∧
    ∀ n, (∀ t ∈ ts, inBounds w h t.1 t.2.1 = true → n ≠ idx w t.1 t.2.1) →
      Memory.read? (ts.foldl (diffuse fill w h err) m) n = Memory.read? m n := by
  induction ts generalizing m with
  | nil => simp
  | cons t ts ih =>
    rw [List.pairwise_cons] at hp
    obtain ⟨ih1, ih2⟩ := ih (diffuse fill w h err m t) hp.2
    have hsame : ∀ n, (inBounds w h t.1 t.2.1 = true → n ≠ idx w t.1 t.2.1) →
        Memory.read? (diffuse fill w h err m t) n = Memory.read? m n := by
      intro n hn
      rw [read?_diffuse, if_neg (by tauto)]
    constructor
    · intro u hu hb
      rcases List.mem_cons.1 hu with rfl | hu
      · rw [List.foldl_cons, ih2 _ (fun v hv hbv e => hp.1 v hv (idx_inj hb hbv e)), read?_diffuse,
          if_pos ⟨hb, rfl⟩]
      · rw [List.foldl_cons, ih1 u hu hb]
        unfold Memory.readOr
        rw [hsame _ (fun hbt e => hp.1 u hu (idx_inj hbt hb e.symm))]
    · intro n hn
      rw [List.foldl_cons, ih2 n (fun v hv => hn v (by simp [hv])), hsame n (hn t (by simp))]

/-- A property of memories that every write below `W * H` keeps is kept by a visit. -/
theorem visit_keeps {P : Memory → Prop} {w h : Int} (hP : ∀ m n v, n < (w * h).toNat → P m →
    P (Memory.write m n v)) (fill : Nat → Byte) {m : Memory} {p : Int × Nat}
    (hp : inBounds w h p.1 p.2 = true) (hm : P m) : P (visit fill w h m p) := by
  have hd : ∀ (err : Int) (ts : List (Int × Int × Int)) (m : Memory), P m →
      P (ts.foldl (diffuse fill w h err) m) := by
    intro err ts
    induction ts with
    | nil => intro m hm; exact hm
    | cons t ts ih =>
      intro m hm
      refine ih _ ?_
      unfold diffuse
      split
      · rename_i hb; exact hP _ _ _ (idx_lt hb) hm
      · exact hm
  exact hd _ _ _ (hP _ _ _ (idx_lt hp) hm)

/-- The same for a sequence of visits inside the image. -/
theorem visits_keep {P : Memory → Prop} {w h : Int} (hP : ∀ m n v, n < (w * h).toNat → P m →
    P (Memory.write m n v)) (fill : Nat → Byte) (ps : List (Int × Nat)) {m : Memory}
    (hps : ∀ p ∈ ps, inBounds w h p.1 p.2 = true) (hm : P m) :
    P (ps.foldl (visit fill w h) m) := by
  induction ps generalizing m with
  | nil => exact hm
  | cons p ps ih =>
    exact ih (fun q hq => hps q (List.mem_cons_of_mem _ hq))
      (visit_keeps hP fill (hps p (by simp)) hm)

theorem Memory.covers_write {m : Memory} {len : Nat} (n : Nat) (v : Byte) (h : m.covers len) :
    (Memory.write m n v).covers len := by
  intro k hk
  rw [Memory.read?_write]
  split
  · rfl
  · exact h k hk

/-- A sequence of visits inside the image keeps MONO canonical, inside its size, written where it was written, and
unchanged from `W * H` on. -/
theorem visits_spec (fill : Nat → Byte) {w h : Int} (ps : List (Int × Nat)) (m : Memory)
    (hps : ∀ p ∈ ps, inBounds w h p.1 p.2 = true) :
    (m.wf = true → Memory.wf (ps.foldl (visit fill w h) m) = true) ∧
    (∀ cap, (w * h).toNat ≤ cap → m.below cap = true →
      Memory.below cap (ps.foldl (visit fill w h) m) = true) ∧
    (∀ len, m.covers len → Memory.covers (ps.foldl (visit fill w h) m) len) ∧
    ∀ n, (w * h).toNat ≤ n → Memory.read? (ps.foldl (visit fill w h) m) n = Memory.read? m n := by
  refine ⟨fun hm => ?_, fun cap hc hm => ?_, fun len hm => ?_, fun n hn => ?_⟩
  · exact visits_keep (P := fun m => m.wf = true) (fun m n v _ h => Memory.wf_write n v h) fill ps hps hm
  · exact visits_keep (P := fun m => m.below cap = true)
      (fun m n v hn h => Memory.below_write v (lt_of_lt_of_le hn hc) h) fill ps hps hm
  · exact visits_keep (P := fun m => m.covers len) (fun m n v _ h => Memory.covers_write n v h) fill ps
      hps hm
  · exact visits_keep (P := fun m' => Memory.read? m' n = Memory.read? m n)
      (fun m' k v hk h => by rw [Memory.read?_write_of_ne _ _ (by omega)]; exact h) fill ps hps rfl

end Sys2Proof.Machine
end

