-- ==== Sys2Proof/Laws/Validation.lean ====
section
/-! SUPPORT. What a command knows once its checks have passed (42_command_sequencing.md R165 (d)). -/

namespace Sys2Proof.Machine

theorem validateDither_eq_none_iff (cap : Nat) (w h : Int) (len : Nat) :
    validateDither cap w h len = none ↔
      0 < w ∧ 0 < h ∧ (len : Int) = w * h ∧ w * h ≤ (cap : Int) := by
  unfold validateDither
  split
  · simp; omega
  · split
    · simp; omega
    · split
      · simp; omega
      · simp; omega

theorem validatePack_eq_none_iff (cap : Nat) (w h : Int) (len : Nat) :
    validatePack cap w h len = none ↔
      0 < w ∧ 0 < h ∧ (len : Int) = w * h ∧ w * h ≤ (cap : Int) ∧ w % 8 = 0 := by
  unfold validatePack
  split
  · simp; omega
  · split
    · simp; omega
    · split
      · simp; omega
      · simp; omega

/-- Every command whose checks have passed has an image that fits; a packed one has a width of whole bytes. -/
theorem validate_eq_none {cap : Nat} {op : Op} {w h : Int} {len : Nat}
    (hv : validate cap op w h len = none) :
    op ≠ .illegal ∧ 0 < w ∧ 0 < h ∧ (len : Int) = w * h ∧ w * h ≤ (cap : Int) ∧
      (op ≠ .dither → w % 8 = 0) := by
  cases op <;> simp only [validate] at hv
  · obtain ⟨h1, h2, h3, h4⟩ := (validateDither_eq_none_iff _ _ _ _).1 hv
    exact ⟨by simp, h1, h2, h3, h4, by simp⟩
  · obtain ⟨h1, h2, h3, h4, h5⟩ := (validatePack_eq_none_iff _ _ _ _).1 hv
    exact ⟨by simp, h1, h2, h3, h4, fun _ => h5⟩
  · obtain ⟨h1, h2, h3, h4, h5⟩ := (validatePack_eq_none_iff _ _ _ _).1 hv
    exact ⟨by simp, h1, h2, h3, h4, fun _ => h5⟩
  · exact absurd hv (by simp)

end Sys2Proof.Machine
end

