-- ==== Sys2Proof/Laws/Commands.lean ====
section
/-! SUPPORT. What each command can do, said once: the cases of its outcome. -/

namespace Sys2Proof.Machine

/-! ### COPY, SCAN and PACK on a state -/

/-- COPY answers exactly when the run of IN bytes has values, and then with them. -/
theorem Block.copyIn_eq_some {s t : Block} (h : s.copyIn = some t) :
    ∃ bs, readRun (Memory.read? s.inBuf) 0 s.pixels = some bs ∧
      t = { s with monoBuf := Memory.writeRun s.monoBuf 0 bs } := by
  unfold Block.copyIn at h
  split at h
  · rename_i bs hbs
    exact ⟨bs, hbs, (Option.some.inj h).symm⟩
  · exact absurd h (by simp)

/-- COPY gives nothing exactly when an input byte has not been written since reset. -/
theorem Block.copyIn_eq_none_iff (s : Block) :
    s.copyIn = none ↔ ∃ n, n < s.pixels ∧ Memory.read? s.inBuf n = none := by
  unfold Block.copyIn
  split
  · rename_i bs hbs
    simp only [reduceCtorEq, false_iff]
    intro hex
    have := (readRun_eq_none_iff (Memory.read? s.inBuf) 0 s.pixels).2 (by simpa using hex)
    simp [this] at hbs
  · rename_i hn
    simpa using (readRun_eq_none_iff (Memory.read? s.inBuf) 0 s.pixels).1 hn

/-- The dither scan gives nothing exactly when an input byte has not been written since reset. -/
theorem Block.ditherScan_eq_none_iff (s : Block) :
    s.ditherScan = none ↔ ∃ n, n < s.pixels ∧ Memory.read? s.inBuf n = none := by
  rw [← Block.copyIn_eq_none_iff]
  unfold Block.ditherScan
  cases s.copyIn <;> simp

/-- The dither scan copies the input into MONO and then makes every visit. -/
theorem Block.ditherScan_eq_some {s t : Block} (h : s.ditherScan = some t) :
    ∃ bs, readRun (Memory.read? s.inBuf) 0 s.pixels = some bs ∧
      t = { s with
        monoBuf := (visitOrder s.imgW s.imgH).foldl (visit Config.freeMono s.imgW s.imgH)
          (Memory.writeRun s.monoBuf 0 bs) } := by
  unfold Block.ditherScan at h
  cases hc : s.copyIn with
  | none => simp [hc] at h
  | some u =>
    obtain ⟨bs, hbs, rfl⟩ := Block.copyIn_eq_some hc
    rw [hc] at h
    exact ⟨bs, hbs, (Option.some.inj h).symm⟩

/-- Packing changes OUT and nothing else. -/
theorem Block.packWith_eq_some {s t : Block} {op : Op} {ps : List (Nat × Nat)}
    (h : s.packWith op ps = some t) :
    ∃ m, packGroups (s.packSrc op) s.imgW.toNat ps s.outBuf = some m ∧ t = { s with outBuf := m } := by
  unfold Block.packWith at h
  split at h
  · rename_i m hm
    exact ⟨m, hm, (Option.some.inj h).symm⟩
  · exact absurd h (by simp)

theorem Block.packWith_eq_none {s : Block} {op : Op} {ps : List (Nat × Nat)}
    (h : s.packWith op ps = none) : packGroups (s.packSrc op) s.imgW.toNat ps s.outBuf = none := by
  unfold Block.packWith at h
  split at h
  · exact absurd h (by simp)
  · assumption

/-- Packing from MONO always gives a value: an unlisted byte is a free value. -/
theorem Block.packSrc_isSome {s : Block} {op : Op} (h : op ≠ .pack) (n : Nat) :
    (s.packSrc op n).isSome = true := by
  cases op <;> simp_all [Block.packSrc]

theorem Block.packWith_isSome {s : Block} {op : Op} (h : op ≠ .pack) (ps : List (Nat × Nat)) :
    (s.packWith op ps).isSome = true := by
  cases hp : s.packWith op ps with
  | some t => rfl
  | none =>
    obtain ⟨p, -, k, -, hn⟩ := packGroups_eq_none (Block.packWith_eq_none hp)
    have := Block.packSrc_isSome (s := s) h (p.1 * s.imgW.toNat + 8 * p.2 + k)
    simp [hn] at this

/-! ### The commands on an accepted state -/

/-- DITHER: an error before any buffer access, or the completed scan. -/
theorem runDither_next {cap : Nat} {s t : Block} (h : runDither cap s = .next t) :
    (∃ e, validateDither cap s.imgW s.imgH s.imgLen = some e ∧ t = s.raiseError e) ∨
    (validateDither cap s.imgW s.imgH s.imgLen = none ∧
      ∃ u, s.ditherScan = some u ∧ t = (u.enter .finish).complete u.pixels) := by
  unfold runDither at h
  split at h
  · rename_i e he
    exact .inl ⟨e, he, (Host.Outcome.next.inj h).symm⟩
  · rename_i hv
    split at h
    · exact absurd h (by simp)
    · rename_i u hu
      exact .inr ⟨hv, u, hu, (Host.Outcome.next.inj h).symm⟩

/-- PACK: an error before any buffer access, or the completed packing of IN. -/
theorem runPack_next {cap : Nat} {s t : Block} (h : runPack cap s = .next t) :
    (∃ e, validatePack cap s.imgW s.imgH s.imgLen = some e ∧ t = s.raiseError e) ∨
    (validatePack cap s.imgW s.imgH s.imgLen = none ∧
      ∃ u, s.packAll .pack = some u ∧ t = (u.enter .finish).complete u.packedLen) := by
  unfold runPack at h
  split at h
  · rename_i e he
    exact .inl ⟨e, he, (Host.Outcome.next.inj h).symm⟩
  · rename_i hv
    split at h
    · exact absurd h (by simp)
    · rename_i u hu
      exact .inr ⟨hv, u, hu, (Host.Outcome.next.inj h).symm⟩

/-- DITHER_PACK: an error before any buffer access, or the completed scan packed into OUT. -/
theorem runDitherPack_next {cap : Nat} {s t : Block} (h : runDitherPack cap s = .next t) :
    (∃ e, validatePack cap s.imgW s.imgH s.imgLen = some e ∧ t = s.raiseError e) ∨
    (validatePack cap s.imgW s.imgH s.imgLen = none ∧
      ∃ u v, s.ditherScan = some u ∧ u.packAll .ditherPack = some v ∧
        t = (v.enter .finish).complete v.packedLen) := by
  unfold runDitherPack at h
  split at h
  · rename_i e he
    exact .inl ⟨e, he, (Host.Outcome.next.inj h).symm⟩
  · rename_i hv
    split at h
    · exact absurd h (by simp)
    · rename_i u hu
      split at h
      · exact absurd h (by simp)
      · rename_i v hw
        exact .inr ⟨hv, u, v, hu, hw, (Host.Outcome.next.inj h).symm⟩

/-- `exec` of a command is its effect on the block of the state. -/
theorem exec_eq_command (i : Instr) (s : State) : exec i s = s.onBlock (s.toBlock.command i) := by
  cases i <;> rfl

/-- Everything a command can leave in the block: the dropped command while busy; while idle the accepted command's
error, or its completion from a state that differs from the accepted one in MONO and OUT alone. -/
theorem Block.command_next_cases {i : Instr} {s t : Block} (h : s.command i = .next t) :
    (s.busy = true ∧ t = s.dropCommand) ∨
    (s.busy = false ∧
      ((∃ e, t = (s.accept (Op.of i)).raiseError e) ∨
        ∃ mono out len, t =
          (Block.enter { s.accept (Op.of i) with monoBuf := mono, outBuf := out } .finish).complete len)) := by
  cases hb : s.busy with
  | true =>
    refine .inl ⟨rfl, ?_⟩
    cases i <;> simp [Block.command, Block.commandDither, Block.commandPack, Block.commandDitherPack, Block.commandIllegal, hb] at h <;> exact h.symm
  | false =>
    refine .inr ⟨rfl, ?_⟩
    cases i <;> simp only [Block.command, Block.commandDither, Block.commandPack, Block.commandDitherPack, Block.commandIllegal, hb] at h
    · rcases runDither_next h with ⟨e, -, rfl⟩ | ⟨-, u, hu, rfl⟩
      · exact .inl ⟨e, rfl⟩
      · obtain ⟨bs, -, rfl⟩ := Block.ditherScan_eq_some hu
        exact .inr ⟨_, s.outBuf, _, rfl⟩
    · rcases runPack_next h with ⟨e, -, rfl⟩ | ⟨-, u, hu, rfl⟩
      · exact .inl ⟨e, rfl⟩
      · obtain ⟨m, -, rfl⟩ := Block.packWith_eq_some hu
        exact .inr ⟨s.monoBuf, m, _, rfl⟩
    · rcases runDitherPack_next h with ⟨e, -, rfl⟩ | ⟨-, u, v, hu, hv, rfl⟩
      · exact .inl ⟨e, rfl⟩
      · obtain ⟨bs, -, rfl⟩ := Block.ditherScan_eq_some hu
        obtain ⟨m, -, rfl⟩ := Block.packWith_eq_some hv
        exact .inr ⟨_, m, _, rfl⟩
    · exact .inl ⟨_, (Host.Outcome.next.inj h).symm⟩

/-- No command is refused. -/
theorem Block.command_ne_refused (i : Instr) (s : Block) (r : Refusal) : s.command i ≠ .refused r := by
  cases i <;>
    simp only [Block.command, Block.commandDither, Block.commandPack, Block.commandDitherPack, Block.commandIllegal, runDither, runPack, runDitherPack] <;>
    repeat' split
  all_goals simp

/-- Everything `exec` can answer as a next state: the block after the command, and the environment as it was. -/
theorem exec_eq_next {i : Instr} {s t : State} (h : exec i s = .next t) :
    s.toBlock.command i = .next t.toBlock ∧ t = { s with toBlock := t.toBlock } :=
  State.onBlock_eq_next.1 (by rw [← exec_eq_command, h])

theorem exec_ne_refused (i : Instr) (s : State) (r : Refusal) : exec i s ≠ .refused r := by
  rw [exec_eq_command, ne_eq, State.onBlock_eq_refused]
  exact Block.command_ne_refused i s.toBlock r

end Sys2Proof.Machine
end

