-- ==== Sys2Proof/Laws/Bus.lean ====
section
/-! SUPPORT. The laws of the port: which accesses of a buffer are legal, and how their values are laid out. -/

namespace Sys2Proof.Machine

theorem Size.bytes_pos (sz : Size) : 0 < sz.bytes := by
  cases sz <;> simp [Size.bytes]

theorem Data.length_bytes (d : Data) : d.bytes.length = d.size.bytes := by
  cases d <;> rfl

/-- Alignment in a buffer window is alignment of the index: every window starts at a multiple of 4. -/
theorem Size.add_mod (sz : Size) {b : Nat} (hb : b % 4 = 0) (n : Nat) :
    (b + n) % sz.bytes = n % sz.bytes := by
  cases sz <;> simp only [Size.bytes] <;> omega

/-- Offset `IN+n` lies in the IN window. -/
theorem windowOf_in {n : Nat} (h : n < 2 ^ 24) :
    windowOf (BitVec.ofNat 26 (0x1000000 + n)) = .inBuf ∧
      (BitVec.ofNat 26 (0x1000000 + n)).toNat = 0x1000000 + n := by
  have e : (BitVec.ofNat 26 (0x1000000 + n)).toNat = 0x1000000 + n := by simp; omega
  refine ⟨?_, e⟩
  unfold windowOf
  rw [e, if_neg (by omega), if_neg (by omega), if_pos (by omega)]

/-- Offset `MONO+n` lies in the MONO window. -/
theorem windowOf_mono {n : Nat} (h : n < 2 ^ 24) :
    windowOf (BitVec.ofNat 26 (0x2000000 + n)) = .mono ∧
      (BitVec.ofNat 26 (0x2000000 + n)).toNat = 0x2000000 + n := by
  have e : (BitVec.ofNat 26 (0x2000000 + n)).toNat = 0x2000000 + n := by simp; omega
  refine ⟨?_, e⟩
  unfold windowOf
  rw [e, if_neg (by omega), if_neg (by omega), if_neg (by omega), if_pos (by omega)]

/-- Aligned and backed accesses of IN are legal, reads and writes (20_memory.md R56, R58). -/
theorem legalAccess_in {n : Nat} {x : Access} (h0 : n % x.size.bytes = 0)
    (h1 : n + x.size.bytes ≤ Config.maxPixels) :
    legalAccess Config.maxPixels ⟨BitVec.ofNat 26 (0x1000000 + n), x⟩ = true := by
  have hm := Config.maxPixels_le
  have hp := x.size.bytes_pos
  obtain ⟨a, b⟩ := windowOf_in (n := n) (by omega)
  unfold legalAccess
  simp only [a, b, Size.add_mod x.size (b := 0x1000000) (by decide), Window.base, Window.backed]
  cases x <;> simp_all

/-- Aligned and backed reads of MONO are legal (20_memory.md R56, R58). -/
theorem legalAccess_mono {n : Nat} {sz : Size} (h0 : n % sz.bytes = 0)
    (h1 : n + sz.bytes ≤ Config.maxPixels) :
    legalAccess Config.maxPixels ⟨BitVec.ofNat 26 (0x2000000 + n), .read sz⟩ = true := by
  have hm := Config.maxPixels_le
  have hp := sz.bytes_pos
  obtain ⟨a, b⟩ := windowOf_mono (n := n) (by omega)
  unfold legalAccess
  simp only [a, b, Access.size, Size.add_mod sz (b := 0x2000000) (by decide), Window.base, Window.backed]
  simp_all

/-- Offset `OUT+n` lies in the OUT window. -/
theorem windowOf_out {n : Nat} (h : n < 2 ^ 21) :
    windowOf (BitVec.ofNat 26 (0x3000000 + n)) = .out ∧
      (BitVec.ofNat 26 (0x3000000 + n)).toNat = 0x3000000 + n := by
  have e : (BitVec.ofNat 26 (0x3000000 + n)).toNat = 0x3000000 + n := by simp; omega
  refine ⟨?_, e⟩
  unfold windowOf
  rw [e, if_neg (by omega), if_neg (by omega), if_neg (by omega), if_neg (by omega), if_pos (by omega)]

/-- OUT is no larger than its window. -/
theorem Config.outSize_le : Config.outSize Config.maxPixels ≤ 2 ^ 21 := by
  have := Config.maxPixels_le
  unfold Config.outSize
  omega

/-- Aligned and backed reads of OUT are legal (20_memory.md R56, R58). -/
theorem legalAccess_out {n : Nat} {sz : Size} (h0 : n % sz.bytes = 0)
    (h1 : n + sz.bytes ≤ Config.outSize Config.maxPixels) :
    legalAccess Config.maxPixels ⟨BitVec.ofNat 26 (0x3000000 + n), .read sz⟩ = true := by
  have hm := Config.outSize_le
  have hp := sz.bytes_pos
  obtain ⟨a, b⟩ := windowOf_out (n := n) (by omega)
  unfold legalAccess
  simp only [a, b, Access.size, Size.add_mod sz (b := 0x3000000) (by decide), Window.base, Window.backed]
  simp_all

/-! ### What a transaction does -/

/-- A bus error is answered ERROR and changes nothing of the block (20_memory.md R60). -/
theorem hostAccess_of_illegal {cap : Nat} {t : Transaction} (s : State) (h : legalAccess cap t = false) :
    hostAccess cap t s = { s with resp := some .error } := by
  simp [hostAccess, State.hear, Block.access, Block.reply, Transaction.reads, h]

/-- A legal read is answered with its value and changes nothing of the block (20_memory.md R61). -/
theorem hostAccess_read {cap : Nat} {a : Offset} {sz : Size} (s : State)
    (h : legalAccess cap ⟨a, .read sz⟩ = true) :
    hostAccess cap ⟨a, .read sz⟩ s =
      { s with resp := some (.okayRead (readValue cap s a sz)), draws := s.draws + 1 } := by
  simp [hostAccess, State.hear, Block.access, Block.reply, Transaction.reads, readValue, h]

/-- A legal write is answered OKAY and changes the block alone. -/
theorem hostAccess_write {cap : Nat} {a : Offset} {d : Data} (s : State)
    (h : legalAccess cap ⟨a, .write d⟩ = true) :
    hostAccess cap ⟨a, .write d⟩ s = { s with toBlock := writeValue s.toBlock a d, resp := some .okay } := by
  simp [hostAccess, State.hear, Block.access, Block.reply, Transaction.reads, h]

/-- What a host transaction does to the block is what the transaction does on the block. -/
theorem hostAccess_toBlock (cap : Nat) (t : Transaction) (s : State) :
    (hostAccess cap t s).toBlock = s.toBlock.access cap t := rfl

/-- A legal write goes to a register, with a 32-bit value, or to backed bytes of IN (20_memory.md R55, R56, R58). -/
theorem legalAccess_write_cases {cap : Nat} {a : Offset} {d : Data} (h : legalAccess cap ⟨a, .write d⟩ = true) :
    (∃ v, windowOf a = .reg ∧ d = .word v) ∨
    (windowOf a = .inBuf ∧ a.toNat - Window.inBuf.base + d.size.bytes ≤ cap) := by
  unfold legalAccess at h
  cases hw : windowOf a with
  | reg =>
    simp only [hw, Access.size] at h
    cases d with
    | word v => exact .inl ⟨v, rfl, rfl⟩
    | byte v => simp [Data.size] at h
    | half v => simp [Data.size] at h
  | inBuf =>
    simp only [hw, Access.size, Window.backed, Bool.and_eq_true, decide_eq_true_eq] at h
    exact .inr ⟨rfl, h.1.2⟩
  | mono => simp [hw] at h
  | out => simp [hw] at h
  | unmapped => simp [hw] at h

/-- Everything a transaction can do to the block: nothing, or a write of one register or of backed bytes of IN. -/
theorem Block.access_cases (cap : Nat) (t : Transaction) (s : Block) :
    s.access cap t = s ∨
    (∃ v, windowOf t.addr = .reg ∧ t.access = .write (.word v) ∧
      s.access cap t = writeReg s v (regAt t.addr.toNat)) ∨
    (∃ d, windowOf t.addr = .inBuf ∧ t.access = .write d ∧
      t.addr.toNat - Window.inBuf.base + d.size.bytes ≤ cap ∧
      s.access cap t = writeIn s (t.addr.toNat - Window.inBuf.base) d) := by
  obtain ⟨a, x⟩ := t
  cases hl : legalAccess cap ⟨a, x⟩ with
  | false => exact .inl (by simp [Block.access, hl])
  | true =>
    cases x with
    | read sz => exact .inl (by simp [Block.access])
    | write d =>
      rcases legalAccess_write_cases hl with ⟨v, hw, rfl⟩ | ⟨hw, hb⟩
      · exact .inr (.inl ⟨v, hw, rfl, by simp [Block.access, hl, writeValue, hw]⟩)
      · exact .inr (.inr ⟨d, hw, rfl, hb, by cases d <;> simp [Block.access, hl, writeValue, hw]⟩)

end Sys2Proof.Machine
end

