-- ==== Sys2Proof/Laws/Engine.lean ====
section
/-! SUPPORT. The laws of the engine's stages: what entering a stage, ending a command, scanning and packing keep of the invariant. -/

namespace Sys2Proof.Machine

/-- `(W / 8) * H` bytes fit in OUT where W is a multiple of 8 and the image fits in MONO. -/
theorem packed_le_outSize {cap : Nat} {w h : Int} (hw : 0 < w) (hh : 0 < h) (hc : w * h ≤ (cap : Int))
    (h8 : w % 8 = 0) : w.toNat / 8 * h.toNat ≤ Config.outSize cap := by
  obtain ⟨a, rfl⟩ := Int.eq_ofNat_of_zero_le hw.le
  obtain ⟨b, rfl⟩ := Int.eq_ofNat_of_zero_le hh.le
  have hc' : a * b ≤ cap := by exact_mod_cast hc
  simp only [Int.toNat_natCast, Config.outSize]
  obtain ⟨q, rfl⟩ : ∃ q, a = 8 * q := ⟨a / 8, by omega⟩
  rw [Nat.mul_div_cancel_left _ (by decide), Nat.le_div_iff_mul_le (by decide)]
  nlinarith

/-- An idle state with sound buffers, a legal ERR and the direction of its row meets the invariant. -/
theorem Block.inv_of_idle {cap : Nat} {s : Block} (hb : s.BuffersOk cap) (he : s.err.toNat ≤ 3)
    (hd : s.dir = dirOf s.i) (hi : s.busy = false) : s.Inv cap :=
  ⟨hb, ⟨he, fun h => by simp [hi] at h⟩, hd, fun h => by simp [hi] at h⟩

/-- A validated command that enters a stage it has, with MONO written where the stage reads it, meets the
invariant. -/
theorem Block.inv_enter {cap : Nat} {s : Block} (hb : s.BuffersOk cap) (hs : s.StatusOk)
    (hv : s.Validated cap) (st : Stage)
    (h : (st = .copy ∧ (s.op = .dither ∨ s.op = .ditherPack)) ∨
      (st = .scan ∧ (s.op = .dither ∨ s.op = .ditherPack) ∧ s.monoBuf.covers s.pixels) ∨
      (st = .pack ∧ (s.op = .pack ∨ (s.op = .ditherPack ∧ s.monoBuf.covers s.pixels))) ∨ st = .finish) :
    (s.enter st).Inv cap := by
  obtain ⟨hop, hw, hh, hl, hc, h8⟩ := validate_eq_none hv
  refine ⟨hb, hs, rfl, fun _ => ?_⟩
  rcases h with ⟨rfl, h⟩ | ⟨rfl, h, hcov⟩ | ⟨rfl, h⟩ | rfl
  · exact ⟨h, hv⟩
  · exact ⟨h, hv, hh, le_refl _, hw, hcov⟩
  · refine ⟨?_, hv, hh, le_refl _, hw, by simp, ?_⟩
    · rcases h with h | h
      · exact .inl h
      · exact .inr h.1
    · intro ho
      simp only [Block.enter_op] at ho
      rcases h with h | h
      · rw [h] at ho; cases ho
      · exact h.2
  · exact hv

/-- COPY of a validated command keeps the buffers sound and leaves MONO written over the image. -/
theorem Block.copyIn_spec {cap : Nat} {s t : Block} (hb : s.BuffersOk cap) (hv : s.Validated cap)
    (ht : s.copyIn = some t) : t.BuffersOk cap ∧ t.monoBuf.covers s.pixels := by
  obtain ⟨hop, hw, hh, hl, hc, h8⟩ := validate_eq_none hv
  obtain ⟨h1, h2, h3, h4, h5, h6⟩ := hb
  obtain ⟨bs, hbs, rfl⟩ := Block.copyIn_eq_some ht
  obtain ⟨hlen, hrd⟩ := (readRun_eq_some_iff _ _ _ _).1 hbs
  have hpx : s.pixels = (s.imgW * s.imgH).toNat := rfl
  refine ⟨⟨h1, Memory.wf_writeRun 0 bs h2, h3, h4, Memory.below_writeRun 0 bs (by omega) h5, h6⟩, ?_⟩
  intro k hk
  show (Memory.read? (Memory.writeRun s.monoBuf 0 bs) k).isSome = true
  rw [Memory.read?_writeRun, if_pos ⟨by omega, by omega⟩]
  simp
  omega

/-- Visits inside the image of a validated command keep the buffers sound and MONO written. -/
theorem Block.scan_spec {cap : Nat} {s : Block} (hb : s.BuffersOk cap) (hv : s.Validated cap)
    (ps : List (Int × Nat)) (hps : ∀ p ∈ ps, inBounds s.imgW s.imgH p.1 p.2 = true) :
    (s.scan ps).BuffersOk cap ∧
      (s.monoBuf.covers s.pixels → (s.scan ps).monoBuf.covers s.pixels) := by
  obtain ⟨h1, h2, h3, h4, h5, h6⟩ := hb
  obtain ⟨hop, hw, hh, hl, hc, h8⟩ := validate_eq_none hv
  obtain ⟨a, b, c, d⟩ := visits_spec Config.freeMono (w := s.imgW) (h := s.imgH) ps s.monoBuf hps
  exact ⟨⟨h1, a h2, h3, h4, b cap (by omega) h5, h6⟩, c _⟩

/-- Packing groups of the image of a validated packing command keeps the buffers sound. -/
theorem Block.packWith_spec {cap : Nat} {s t : Block} (hb : s.BuffersOk cap) (hv : s.Validated cap)
    (hod : s.op ≠ .dither) (op : Op) (ps : List (Nat × Nat))
    (hps : ∀ p ∈ ps, p.1 < s.imgH.toNat ∧ p.2 < s.imgW.toNat / 8) (ht : s.packWith op ps = some t) :
    t.BuffersOk cap ∧ ∃ m, t = { s with outBuf := m } := by
  obtain ⟨h1, h2, h3, h4, h5, h6⟩ := hb
  obtain ⟨hop, hw, hh, hl, hc, h8⟩ := validate_eq_none hv
  obtain ⟨m, hm, rfl⟩ := Block.packWith_eq_some ht
  obtain ⟨a, b, c⟩ := packGroups_spec _ ps hps hm
  exact ⟨⟨h1, h2, a h3, h4, h5, b _ (packed_le_outSize hw hh hc (h8 hod)) h6⟩, m, rfl⟩

/-- Everything leaving a stage can do: fault where a source byte has no value, or enter the stage after it. -/
theorem leaveStage_cases (st : Stage) (r : Option Block) :
    (r = none ∧ leaveStage st r = .fault .uninitInput) ∨
    (∃ t next, r = some t ∧ nextStage t.op st = some next ∧ leaveStage st r = .next (t.enter next)) ∨
    ∃ t, r = some t ∧ nextStage t.op st = none ∧ leaveStage st r = .refused .stageNotOfCommand := by
  cases r with
  | none => exact .inl ⟨rfl, rfl⟩
  | some t =>
    cases hn : nextStage t.op st with
    | none => exact .inr (.inr ⟨t, rfl, hn, by simp [leaveStage, hn]⟩)
    | some next => exact .inr (.inl ⟨t, next, rfl, hn, by simp [leaveStage, hn]⟩)

/-- Everything VALIDATE can do. -/
theorem validateStage_cases (cap : Nat) (s : Block) :
    (∃ e, validate cap s.op s.imgW s.imgH s.imgLen = some e ∧ validateStage cap s = .next (s.raiseError e)) ∨
    ∃ st, s.Validated cap ∧ nextStage s.op .validate = some st ∧ validateStage cap s = .next (s.enter st) := by
  unfold validateStage
  cases hv : validate cap s.op s.imgW s.imgH s.imgLen with
  | some e => exact .inl ⟨e, rfl, rfl⟩
  | none =>
    have ho := (validate_eq_none hv).1
    cases h : s.op <;> simp_all [nextStage, Block.Validated]

end Sys2Proof.Machine
end

