-- ==== Sys2Proof/Laws/Agents.lean ====
section
/-! SUPPORT. The laws of the agents' turns: the recording of faults, the faulted state, and the step as the turn of the next event. -/

namespace Sys2Proof.Machine

/-! ### Recording a fault -/

@[simp] theorem orRecorded_next (s t : Block) : orRecorded s (.next t) = .next t := rfl

@[simp] theorem orRecorded_fault (s : Block) (r : Fault) :
    orRecorded s (.fault r) = .next (s.recordFault r) := rfl

@[simp] theorem orRecorded_refused (s : Block) (r : Refusal) : orRecorded s (.refused r) = .refused r := rfl

/-- Everything a turn that records can answer as a next block. -/
theorem orRecorded_eq_next {s t : Block} {o : Host.Outcome Block Fault Refusal} (h : orRecorded s o = .next t) :
    o = .next t ∨ ∃ r, o = .fault r ∧ t = s.recordFault r := by
  cases o with
  | next u => exact .inl h
  | fault r => exact .inr ⟨r, rfl, (Host.Outcome.next.inj h).symm⟩
  | refused r => cases h

/-- A turn that records answers no fault. -/
theorem orRecorded_ne_fault (s : Block) (o : Host.Outcome Block Fault Refusal) (r : Fault) :
    orRecorded s o ≠ .fault r := by
  cases o <;> simp

/-- Recording a fault keeps the invariant: it touches nothing that the invariant is about. -/
theorem Block.inv_recordFault {cap : Nat} {s : Block} (r : Fault) (h : s.Inv cap) : (s.recordFault r).Inv cap := h

/-! ### The turns of the block -/

/-- A faulted block answers its fault in every turn but a reset (42_command_sequencing.md R170; log 9). -/
theorem Block.turn_of_fault {s : Block} {e : Event} {r : Fault} (h : s.fault = some r) (he : e ≠ .reset) :
    s.turn e = .fault r := by
  cases e <;> first | exact absurd rfl he | simp [Block.turn, unlessFaulted, h]

/-- What an engine's turn is. -/
theorem engineTurn_eq (run : Block → Host.Outcome Block Fault Refusal) (s : Block) :
    engineTurn run s = if s.busy then orRecorded s (run s) else .next s := rfl

/-- A turn answers a fault only where one is recorded. -/
theorem Block.turn_eq_fault {s : Block} {e : Event} {r : Fault} (h : s.turn e = .fault r) :
    s.fault = some r := by
  cases hf : s.fault with
  | some q =>
    cases e <;> simp [Block.turn, unlessFaulted, hf] at h <;> rw [h]
  | none =>
    cases e <;> simp only [Block.turn, unlessFaulted, hf, commandTurn, engineTurn] at h
    case command => exact absurd h (orRecorded_ne_fault _ _ _)
    case engine | engineStage | engineVisit =>
      split at h
      · exact absurd h (orRecorded_ne_fault _ _ _)
      · cases h
    all_goals cases h

/-- A command issued while busy is dropped (42_command_sequencing.md R161). -/
theorem Block.command_of_busy {s : Block} (i : Instr) (h : s.busy = true) : s.command i = .next s.dropCommand := by
  cases i <;>
    simp [Block.command, Block.commandDither, Block.commandPack, Block.commandDitherPack, Block.commandIllegal, h]

/-! ### The environment beside the block -/

@[simp] theorem State.hear_toBlock (cap : Nat) (t : Transaction) (s : State) :
    (s.hear cap t).toBlock = s.toBlock := rfl

@[simp] theorem State.hear_sched (cap : Nat) (t : Transaction) (s : State) : (s.hear cap t).sched = s.sched := rfl

/-- No event touches the block through the environment. -/
@[simp] theorem State.heard_toBlock (e : Event) (s : State) : (s.heard e).toBlock = s.toBlock := by
  cases e <;> simp only [State.heard]
  case system => split <;> rfl
  all_goals rfl

/-- No event changes what is scheduled after it. -/
@[simp] theorem State.heard_sched (e : Event) (s : State) : (s.heard e).sched = s.sched := by
  cases e <;> simp only [State.heard]
  case system => split <;> rfl
  all_goals rfl

/-! ### Steps -/

/-- The turn of a host access, where no fault is recorded. -/
theorem takeTurn_host {s : State} (t : Transaction) (h : s.fault = none) :
    takeTurn (.host t) s = .next (hostAccess Config.maxPixels t s) := by
  simp [takeTurn, State.heard, Block.turn, unlessFaulted, h, hostAccess]

/-- The turn of an access at a system address, where no fault is recorded. -/
theorem takeTurn_system {s : State} (a : Nat) (x : Access) (h : s.fault = none) :
    takeTurn (.system a x) s = .next (Sys2Proof.Machine.systemAccess Config.maxPixels Config.base a x s) := by
  simp only [takeTurn, State.heard, Block.turn, unlessFaulted, h, Block.systemAccess,
    Sys2Proof.Machine.systemAccess]
  cases blockOffset? Config.base a <;> rfl

/-- A step with an event to come is the turn of that event. -/
theorem step_of_cons {s : State} {e : Event} {rest : List Event} (h : s.sched = e :: rest) :
    step s = takeTurn e { s with sched := rest } := by
  simp [step, nextTurn, h]

/-- A step with no event to come is a turn of the engine. -/
theorem step_of_nil {s : State} (h : s.sched = []) : step s = takeTurn .engine s := by
  simp [step, nextTurn, h]

/-- A turn of the machine answers a fault only where one is recorded. -/
theorem takeTurn_eq_fault {s : State} {e : Event} {r : Fault} (h : takeTurn e s = .fault r) : s.fault = some r :=
  Block.turn_eq_fault (State.onBlock_eq_fault.1 h)

end Sys2Proof.Machine
end

