-- ==== Sys2Proof/Laws/PerInstr.lean ====
section
/-! SUPPORT. Per-instruction facts about the syntax: a well-formed command's word is one of the three legal ones exactly when the command is not ILLEGAL. -/

namespace Sys2Proof.Laws.LegalWord

/-- The word of a well-formed command is a legal word exactly when the command is not ILLEGAL
(30_encoding.md R83, R85). -/
def Statement (i : Instr) : Prop :=
  i.wf = true → (legalWords.contains (encode i) = true ↔ Machine.Op.of i ≠ .illegal)

theorem dither : Statement .dither := by
  intro _
  decide

theorem pack : Statement .pack := by
  intro _
  decide

theorem ditherPack : Statement .ditherPack := by
  intro _
  decide

theorem illegal (w : Word) : Statement (.illegal w) := by
  intro h
  simpa [Instr.wf, Machine.Op.of, encode] using h

end Sys2Proof.Laws.LegalWord
end

