-- ==== Sys2Proof/Tests/Slice0.lean ====
section
/-! SUPPORT. The model's own tests: well-formedness, decoding, vectors of spec/95_test_vectors.md, and one witness for the hypotheses of each statement. -/

namespace Sys2Proof.Tests

open Sys2Proof Sys2Proof.Machine

/-! ### Small states -/

/-- An idle block whose registers and IN hold an image. -/
def img (w h : Nat) (bs : List Byte) : State :=
  { State.reset with
    width := BitVec.ofNat 32 w
    height := BitVec.ofNat 32 h
    inLen := BitVec.ofNat 32 (w * h)
    inBuf := Memory.writeRun [] 0 bs }

/-- The state right after reset and the acceptance of a command. -/
def busy (op : Op) : State := { State.reset with toBlock := State.reset.accept op }

/-- The next state, or the next block, where there is one. -/
def nextOf {σ : Type} (o : Host.Outcome σ Fault Refusal) : Option σ :=
  match o with
  | .next s => some s
  | _ => none

/-- The bytes of a memory, in the order of their indexes. -/
def bytesOf (m : Memory) : List Byte := m.map (fun c => c.2)

/-! ### Well-formedness -/

/-- Ill-formed: an ILLEGAL command that carries DITHER's word, or PACK's, or DITHER_PACK's. -/
theorem test_wf_refuses_legal_words :
    Instr.wf (.illegal 0x00000001#32) = false ∧ Instr.wf (.illegal 0x00000002#32) = false ∧
    Instr.wf (.illegal 0x00000003#32) = false := by decide

theorem test_wf_accepts_the_others :
    Instr.wf .dither = true ∧ Instr.wf .pack = true ∧ Instr.wf .ditherPack = true ∧
    Instr.wf (.illegal 0x00000000#32) = true ∧ Instr.wf (.illegal 0x00000011#32) = true := by decide

/-! ### Decoding: words written out from 30_encoding.md R81, R82 (RSVD in bits 31:4, OP in bits 3:0) -/

theorem test_decode_dither : decode 0b00000000000000000000000000000001#32 = .dither := by decide

theorem test_decode_pack : decode 0b00000000000000000000000000000010#32 = .pack := by decide

theorem test_decode_ditherPack : decode 0b00000000000000000000000000000011#32 = .ditherPack := by decide

/-- V-CMD-12 to V-CMD-16: a reserved OP, and a non-zero RSVD bit beside a legal OP. -/
theorem test_decode_illegal :
    decode 0x00000000#32 = .illegal 0x00000000#32 ∧ decode 0x00000004#32 = .illegal 0x00000004#32 ∧
    decode 0x0000000F#32 = .illegal 0x0000000F#32 ∧ decode 0x00000011#32 = .illegal 0x00000011#32 ∧
    decode 0x80000001#32 = .illegal 0x80000001#32 := by decide

theorem test_decode_table_word :
    decodeTableWord 32 1 = some .dither ∧ decodeTableWord 32 2 = some .pack ∧
    decodeTableWord 32 3 = some .ditherPack ∧ decodeTableWord 32 0 = some (.illegal 0#32) := by decide

/-- The first step after reset runs the placed command: with W = H = 0 it fails with INVALID_DIMENSION
(70_reset_and_hazards.md R243), or with ILLEGAL_COMMAND. -/
theorem test_first_step_runs_the_command :
    (nextOf (step (State.reset.withFetchWord 32 1))).map (fun s => s.statusWord) = some 0x12#32 ∧
    (nextOf (step (State.reset.withFetchWord 32 2))).map (fun s => s.statusWord) = some 0x12#32 ∧
    (nextOf (step (State.reset.withFetchWord 32 3))).map (fun s => s.statusWord) = some 0x12#32 ∧
    (nextOf (step (State.reset.withFetchWord 32 0))).map (fun s => s.statusWord) = some 0x32#32 := by decide

/-! ### The Dither Engine: V-FRAG, V-DROP, V-DIT -/

/-- V-FRAG: -127, -1, 15 and 100, and the discriminator `(7, -9)` of the wrong reading by shifts. -/
theorem test_frag :
    [7, 3, 5, 1].map (fun w => frag w (-127)) = [-55, -23, -39, -7] ∧
    [7, 3, 5, 1].map (fun w => frag w (-1)) = [0, 0, 0, 0] ∧
    [7, 3, 5, 1].map (fun w => frag w 15) = [6, 2, 4, 0] ∧
    [7, 3, 5, 1].map (fun w => frag w 100) = [43, 18, 31, 6] ∧ frag 7 (-9) = -3 := by decide

/-- V-DROP, W = 3, H = 2: the targets kept at (0,0), (2,0), (2,1) and (0,1). -/
theorem test_drop :
    ((targets .forward 0 0).filter (fun t => inBounds 3 2 t.1 t.2.1)) = [(1, 0, 7), (0, 1, 5), (1, 1, 1)] ∧
    ((targets .forward 2 0).filter (fun t => inBounds 3 2 t.1 t.2.1)) = [(1, 1, 3), (2, 1, 5)] ∧
    ((targets .reverse 2 1).filter (fun t => inBounds 3 2 t.1 t.2.1)) = [(1, 1, 7)] ∧
    ((targets .reverse 0 1).filter (fun t => inBounds 3 2 t.1 t.2.1)) = [] := by decide

/-- V-DIT-5: 3 x 3 of 128. -/
theorem test_dither_3x3 :
    (nextOf (runDither 64 ((img 3 3 (List.replicate 9 128#8)).accept .dither))).map
      (fun s => (bytesOf s.monoBuf, s.statusWord, s.outLen, s.outBuf)) =
    some ([255#8, 0#8, 255#8, 0#8, 255#8, 0#8, 255#8, 0#8, 255#8], 0x02#32, 9#32, []) := by decide +kernel

/-- V-WRAP-1: accumulation wraps modulo 256; a clamping block would keep the second pixel WHITE. -/
theorem test_dither_wraps :
    (nextOf (runDither 64 ((img 8 1 [127#8, 255#8, 0#8, 0#8, 0#8, 0#8, 0#8, 0#8]).accept .dither))).map
      (fun s => bytesOf s.monoBuf) = some (List.replicate 8 0#8) := by decide +kernel

/-! ### The Bit Packer: V-PK -/

/-- V-PK-ORDER and V-SRC-2: rows are packed left to right whatever their parity. -/
theorem test_pack_order :
    (nextOf (runPack 64 ((img 16 2 (List.replicate 8 0#8 ++ List.replicate 16 255#8 ++
      List.replicate 4 0#8 ++ List.replicate 4 255#8)).accept .pack))).map
      (fun s => (bytesOf s.outBuf, s.outLen)) = some ([0xFF#8, 0x00#8, 0x00#8, 0xF0#8], 4#32) := by
  decide +kernel

/-- V-PK: MSB first and inverted; bytes other than 0 and 255 pack as BLACK (R147). -/
theorem test_pack_groups :
    packByte [255#8, 0#8, 255#8, 0#8, 255#8, 0#8, 255#8, 0#8] = 0x55#8 ∧
    packByte [0#8, 255#8, 255#8, 255#8, 255#8, 255#8, 255#8, 255#8] = 0x80#8 ∧
    packByte [254#8, 1#8, 128#8, 127#8, 255#8, 0#8, 255#8, 0#8] = 0xF5#8 := by decide

/-! ### DITHER_PACK and ILLEGAL -/

/-- V-SRC-8: the serpentine check; a raster scan would give 0xB6. -/
theorem test_ditherPack_serpentine :
    (nextOf (runDitherPack 64 ((img 8 2 (List.replicate 8 0#8 ++ List.replicate 8 100#8)).accept
      .ditherPack))).map (fun s => (bytesOf s.outBuf, s.outLen)) = some ([0xFF#8, 0x6D#8], 2#32) := by
  decide +kernel

/-- V-DIT-8: wraps in both directions; packed 0xFF, 0x18. -/
theorem test_ditherPack_wraps :
    (nextOf (runDitherPack 64 ((img 8 2 (List.replicate 8 60#8 ++ List.replicate 8 200#8)).accept
      .ditherPack))).map (fun s => bytesOf s.outBuf) = some [0xFF#8, 0x18#8] := by decide +kernel

/-- V-CMD-12 with OVR: the word is accepted and ends with ILLEGAL_COMMAND; OVR and the buffers stay. -/
theorem test_illegal :
    (nextOf (exec (.illegal 0#32) { img 8 1 [] with ovr := true })).map
      (fun s => (s.statusWord, s.outLen, s.monoBuf)) = some (0x36#32, 0#32, []) := by decide

/-! ### Validation: V-CMD, MAX_PIXELS = 64 -/

theorem test_validate_dither :
    validateDither 64 8 8 64 = none ∧ validateDither 64 (-8) 1 8 = some .invalidDimension ∧
    validateDither 64 8 1 7 = some .invalidDimension ∧ validateDither 64 9 8 72 = some .allocationFailure ∧
    validateDither 64 65536 65536 0 = some .invalidDimension ∧ validateDither 64 64 1 64 = none := by decide

theorem test_validate_pack :
    validatePack 64 8 9 72 = some .allocationFailure ∧ validatePack 64 12 8 70 = some .invalidDimension ∧
    validatePack 64 (-8) 1 0 = some .invalidDimension ∧ validatePack 64 12 1 12 = some .invalidDimension ∧
    validatePack 64 8 8 64 = none := by decide

/-! ### Registers and the bus: V-REG, V-BUS, V-IRQ, MAX_PIXELS = 64 -/

/-- V-REG-7 to V-REG-10. -/
theorem test_status_w1c :
    (hostAccess 64 (wr32 Sym.status 2#32) { State.reset with done := true, ovr := true, err := 1#4 }).statusWord
      = 0x14#32 ∧
    (hostAccess 64 (wr32 Sym.status 4#32) { State.reset with done := true, ovr := true, err := 1#4 }).statusWord
      = 0x12#32 ∧
    (hostAccess 64 (wr32 Sym.status 0xFFFFFFF9#32)
      { State.reset with done := true, ovr := true, err := 1#4 }).statusWord = 0x16#32 ∧
    (hostAccess 64 (wr32 Sym.status 0xFFFFFFFF#32)
      { State.reset with done := true, err := 1#4 }).statusWord = 0x10#32 := by decide

/-- V-REG-11, V-REG-12: acceptance keeps OVR and clears DONE and ERR; a second CMD write sets OVR. -/
theorem test_accept_and_drop :
    (hostAccess 64 (wr32 Sym.cmd 1#32)
      { State.reset with done := true, ovr := true, err := 1#4 }).statusWord = 0x05#32 ∧
    (hostAccess 64 (wr32 Sym.cmd 2#32) (hostAccess 64 (wr32 Sym.cmd 1#32) State.reset)).statusWord
      = 0x05#32 := by decide

/-- V-BUS-1, 2, 3, 6, 9, 10, 12, 13, 14: the ERROR responses. -/
theorem test_bus_errors :
    ([⟨0x004#26, .read .byte⟩, ⟨0x006#26, .read .word⟩, ⟨0x000#26, .write (.half 1#16)⟩,
      ⟨0x1000002#26, .read .word⟩, ⟨0x1000040#26, .read .byte⟩, ⟨0x2000000#26, .write (.byte 0#8)⟩,
      ⟨0x3000008#26, .read .byte⟩, ⟨0x0001000#26, .read .word⟩, ⟨0x3200000#26, .read .word⟩].map
      (fun t => (hostAccess 64 t State.reset).resp)) = List.replicate 9 (some Response.error) := by decide

/-- V-BUS-4, V-BUS-5: a word write and a half-word read of the same bytes. -/
theorem test_little_endian :
    (hostAccess 64 (rd16 (Sym.inAt 2)) (hostAccess 64 (wr32 (Sym.inAt 0) 0x04030201#32) State.reset)).resp
      = some (.okayRead (.half 0x0403#16)) := by decide

/-- V-BUS-15: a write to IN while BUSY lands and is recorded. -/
theorem test_in_write_while_busy :
    (hostAccess 64 (wr8 (Sym.inAt 0) 7#8) (busy .dither)).fault = some .hostMutatedInput ∧
    (hostAccess 64 (wr8 (Sym.inAt 0) 7#8) (busy .dither)).inBuf = [(0, 7#8)] := by decide

/-- The three grains of the engine agree on V-DIT-4 (2 x 2). -/
theorem test_grains_agree :
    nextOf (runVisits 64 20 ((img 2 2 [100#8, 200#8, 50#8, 150#8]).accept .dither)) =
      nextOf (runDither 64 ((img 2 2 [100#8, 200#8, 50#8, 150#8]).accept .dither)) ∧
    nextOf (commandRest 64 ((img 2 2 [100#8, 200#8, 50#8, 150#8]).accept .dither)) =
      nextOf (runDither 64 ((img 2 2 [100#8, 200#8, 50#8, 150#8]).accept .dither)) := by decide +kernel

/-! ### Witnesses: states that meet the hypotheses of the statements -/

/-- An 8 x 1 image is ready for every command, whatever its samples. -/
theorem img8_ready (bs : List Byte) (h : bs.length = 8) : (img 8 1 bs).PackReady := by
  have h8 := Config.eight_le_maxPixels
  refine ⟨⟨rfl, ?_, ?_, ?_, ?_, ?_⟩, ?_⟩
  · show (0 : Int) < 8; decide
  · show (0 : Int) < 1; decide
  · rfl
  · show (8 : Int) ≤ (Config.maxPixels : Int); exact_mod_cast h8
  · intro k hk
    have hk' : k < 8 := hk
    show (Memory.read? (Memory.writeRun [] 0 bs) k).isSome = true
    rw [Memory.read?_writeRun, if_pos ⟨by omega, by omega⟩]
    simp
    omega
  · show (8 : Int) % 8 = 0
    decide

theorem witness_ready : (img 8 1 (List.replicate 8 200#8)).PackReady := img8_ready _ rfl

/-- DitherCompletes, DitherOutputIsBlackOrWhite. -/
theorem witness_ditherReady : (img 8 1 (List.replicate 8 200#8)).DitherReady := witness_ready.1

/-- UniformRowsPackUniformly, UniformRowsDitherUniformly: the row of 200 and the row of 50. -/
theorem witness_uniform (v : Byte) :
    (img 8 1 (List.replicate 8 v)).PackReady ∧ (img 8 1 (List.replicate 8 v)).regH = 1 ∧
    ∀ n, n < (img 8 1 (List.replicate 8 v)).regN →
      Memory.read? (img 8 1 (List.replicate 8 v)).inBuf n = some v := by
  refine ⟨img8_ready _ (by simp), rfl, ?_⟩
  intro n hn
  have hn' : n < 8 := hn
  show Memory.read? (Memory.writeRun [] 0 (List.replicate 8 v)) n = some v
  interval_cases n <;> rfl

/-- UniformRowsPackUniformly, the third clause, at W = 1 and W = 9; InvalidDimensionEndsTheCommand, W mod 8. -/
theorem witness_width_not_of_bytes :
    (img 9 1 []).phase = .idle ∧ 0 < (img 9 1 []).regH ∧ (img 9 1 []).regW % 8 ≠ 0 ∧
    (img 1 1 []).regW % 8 ≠ 0 := by decide

/-- StepRunsTheDecodedCommand: both clauses. -/
theorem witness_scheduled_command :
    (State.reset.withFetchWord 32 1).sched = .command 1#32 :: [] ∧ State.reset.fault = none ∧
    decodeTableWord 32 1 = some .dither := by decide

/-- StepTakesTheScheduledTurn: an idle and a running state with any schedule. -/
theorem witness_turns (e : Event) :
    (∃ s : State, s.fault = none ∧ s.sched = e :: [] ∧ s.phase = .idle) ∧
    (∃ s : State, s.fault = none ∧ s.sched = e :: [] ∧ s.phase = .run) ∧
    (∃ s : State, s.fault = none ∧ s.sched = [] ∧ s.phase = .idle) ∧
    ∃ s : State, s.fault = none ∧ s.sched = [] ∧ s.phase = .run :=
  ⟨⟨{ State.reset with sched := [e] }, rfl, rfl, rfl⟩,
    ⟨{ busy .dither with sched := [e] }, rfl, rfl, rfl⟩, ⟨State.reset, rfl, rfl, rfl⟩,
    ⟨busy .dither, rfl, rfl, rfl⟩⟩

/-- FaultedStateStaysFaulted: both clauses. -/
theorem witness_faulted :
    ({ State.reset with fault := some .hostMutatedInput } : State).fault = some .hostMutatedInput ∧
    ({ State.reset with fault := some .hostMutatedInput } : State).sched.head? ≠ some .reset ∧
    ({ State.reset with fault := some .uninitInput, sched := [.reset] } : State).fault = some .uninitInput ∧
    ({ State.reset with fault := some .uninitInput, sched := [.reset] } : State).sched.head? = some .reset := by
  decide

/-- ResetGivesResetValues: a reset while a command runs. -/
theorem witness_reset_while_running :
    ({ busy .pack with sched := [.reset] } : State).sched = .reset :: [] := rfl

/-- CmdWriteWhileIdleIsAccepted, IllegalCommandEndsAtOnce, AtomicCommandIsTheStagedCommand. -/
theorem witness_idle : (img 8 1 []).phase = .idle := rfl

/-- CommandWhileBusyIsDropped, HostAccessesLeaveTheEngineSideAlone, IssueAndLoadActAsTheirExpansions. -/
theorem witness_busy : ((img 8 1 []).accept .dither).phase = .run := rfl

/-- InvalidDimensionEndsTheCommand: W = 0, W negative, H = 0, and a length that differs from W * H. -/
theorem witness_invalid_dimensions :
    (img 0 1 []).phase = .idle ∧ (img 0 1 []).regW ≤ 0 ∧ (img 0xFFFFFFF8 1 []).regW ≤ 0 ∧
    (img 8 0 []).regH ≤ 0 ∧
    (({ img 8 1 [] with inLen := 7#32 } : State).inLen.toNat : Int) ≠
      ({ img 8 1 [] with inLen := 7#32 } : State).regW * ({ img 8 1 [] with inLen := 7#32 } : State).regH := by
  decide

/-- AllocationFailureEndsTheCommand: 2^24 + 8 pixels fit in no block. -/
theorem witness_too_large :
    (img 0x1000008 1 []).phase = .idle ∧ 0 < (img 0x1000008 1 []).regW ∧ 0 < (img 0x1000008 1 []).regH ∧
    ((img 0x1000008 1 []).inLen.toNat : Int) = (img 0x1000008 1 []).regW * (img 0x1000008 1 []).regH ∧
    (Config.maxPixels : Int) < (img 0x1000008 1 []).regW * (img 0x1000008 1 []).regH ∧
    (img 0x1000008 1 []).regW % 8 = 0 := by
  have h := Config.maxPixels_le
  refine ⟨rfl, by decide, by decide, by decide, ?_, by decide⟩
  show (Config.maxPixels : Int) < 0x1000008
  omega

/-- PackFitsInOutExactlyWhenInMono. -/
theorem witness_pack_dimensions : (0 : Int) < 8 ∧ (0 : Int) < 1 ∧ (8 : Int) % 8 = 0 := by decide

/-- UnwrittenInputFaults: the last input byte of an 8 x 1 image has not been written. -/
theorem witness_unwritten :
    (img 8 1 (List.replicate 7 0#8)).phase = .idle ∧ 0 < (img 8 1 (List.replicate 7 0#8)).regW ∧
    0 < (img 8 1 (List.replicate 7 0#8)).regH ∧
    ((img 8 1 (List.replicate 7 0#8)).inLen.toNat : Int) =
      (img 8 1 (List.replicate 7 0#8)).regW * (img 8 1 (List.replicate 7 0#8)).regH ∧
    (img 8 1 (List.replicate 7 0#8)).regW * (img 8 1 (List.replicate 7 0#8)).regH ≤
      (Config.maxPixels : Int) ∧
    7 < (img 8 1 (List.replicate 7 0#8)).regN ∧
    Memory.read? (img 8 1 (List.replicate 7 0#8)).inBuf 7 = none ∧
    (img 8 1 (List.replicate 7 0#8)).regW % 8 = 0 := by
  have h := Config.eight_le_maxPixels
  refine ⟨rfl, by decide, by decide, by decide, ?_, by decide, by decide, by decide⟩
  show (8 : Int) ≤ (Config.maxPixels : Int)
  exact_mod_cast h

/-- CommandFrame: a next state of each command, idle and busy. -/
theorem witness_frame :
    (∃ t, exec .dither State.reset = .next t ∧ t.err ≠ 0#4) ∧ (∃ t, exec .pack State.reset = .next t) ∧
    (∃ t, exec .ditherPack State.reset = .next t) ∧ (∃ t, exec (.illegal 0#32) State.reset = .next t) ∧
    ∃ t, exec .dither (busy .pack) = .next t :=
  ⟨⟨_, rfl, by decide⟩, ⟨_, rfl⟩, ⟨_, rfl⟩, ⟨_, rfl⟩, ⟨_, rfl⟩⟩

/-- FragmentTruncatesTowardZero: the ends of the range of a residual. -/
theorem witness_fragment :
    (0 : Int) < 7 ∧ (-127 : Int) ≤ -127 ∧ (-127 : Int) ≤ 127 ∧ (127 : Int) ≤ 127 := by decide

/-- VisitEffect: the position (0, 0) of a 3 x 2 image has targets inside and outside it, and a byte it leaves. -/
theorem witness_visit :
    (0 : Int) ≤ 0 ∧ (0 : Int) < 3 ∧ ((0 : Nat) : Int) < 2 ∧
    ((1, 0, 7) : Int × Int × Int) ∈ targets (dirOf 0) 0 0 ∧ inBounds 3 2 1 0 = true ∧
    ((-1, 1, 3) : Int × Int × Int) ∈ targets (dirOf 0) 0 0 ∧ inBounds 3 2 (-1) 1 = false ∧
    (∀ t ∈ targets (dirOf 0) 0 0, inBounds 3 2 t.1 t.2.1 = true → 2 ≠ idx 3 t.1 t.2.1) ∧
    2 ≠ idx 3 0 0 := by decide

/-- UpdateOrderDoesNotMatter: the targets in the reverse order. -/
theorem witness_order : ((targets (dirOf 0) 0 0).reverse).Perm (targets (dirOf 0) 0 0) :=
  List.reverse_perm _

/-- ScanOrderIsSerpentine, at an odd row and its last position. -/
theorem witness_scan_order : 0 < 3 ∧ 0 < 2 ∧ 1 < 2 ∧ 2 < 3 ∧ (visitOrder 3 2)[1 * 3 + 2]? = some (0, 1) := by
  decide

/-- TargetsFollowTheTable: a row of each parity. -/
theorem witness_parity : 4 % 2 = 0 ∧ 7 % 2 = 1 := by decide

/-- PackGroupSerialisesAndInverts, at the last group of a 16 x 1 image; R143's own example byte. -/
theorem witness_group :
    [0#8, 255#8, 255#8, 255#8, 255#8, 255#8, 255#8, 255#8].length = 8 ∧
    (∀ k, k < 8 →
      Memory.read? (Memory.writeRun [] 8 [0#8, 255#8, 255#8, 255#8, 255#8, 255#8, 255#8, 255#8]) (0 * 16 + 8 * 1 + k) =
        [0#8, 255#8, 255#8, 255#8, 255#8, 255#8, 255#8, 255#8][k]?) ∧
    packByte [0#8, 255#8, 255#8, 255#8, 255#8, 255#8, 255#8, 255#8] = 0x80#8 := by
  decide

/-- GroupOrderIsRowMajor, at an odd row and its last group. -/
theorem witness_group_order : 1 < 2 ∧ 2 < 24 / 8 ∧ (groupOrder 24 2)[1 * (24 / 8) + 2]? = some (1, 2) := by
  decide

/-- DitherDependsOnItsInputOnly, PackDependsOnItsInputOnly: two states that differ in MONO, OVR and DONE. -/
theorem witness_same_input :
    (img 8 1 (List.replicate 8 9#8)).inBuf.agree
      ({ img 8 1 (List.replicate 8 9#8) with monoBuf := [(0, 1#8)], ovr := true, done := true } : State).inBuf
      (img 8 1 (List.replicate 8 9#8)).regN ∧
    (∃ t, exec .dither State.reset = .next t) ∧
    ({ State.reset with monoBuf := [(0, 1#8)] } : State).width = State.reset.width :=
  ⟨fun _ _ => rfl, ⟨_, rfl⟩, rfl⟩

/-- OnePixelImage. -/
theorem witness_one_pixel :
    (img 1 1 [128#8]).phase = .idle ∧ (img 1 1 [128#8]).regW = 1 ∧ (img 1 1 [128#8]).regH = 1 ∧
    (img 1 1 [128#8]).inLen = 1#32 ∧ Memory.read? (img 1 1 [128#8]).inBuf 0 = some 128#8 := by decide

/-- ReservedRegistersReadZero, at both ends. -/
theorem witness_reserved :
    0x020 ≤ (0x020#26 : Offset).toNat ∧ (0x020#26 : Offset).toNat % 4 = 0 ∧
    (0xFFC#26 : Offset).toNat ≤ 0xFFC ∧ (0xFFC#26 : Offset).toNat % 4 = 0 := by decide

/-- InterruptFollowsCompletion: each clause. -/
theorem witness_interrupt :
    (∃ t, exec .dither { State.reset with doneIe := true } = .next t ∧ t.irq = true) ∧
    (2#32 : Word).getLsbD 1 = true ∧ ∃ t, exec .pack (busy .dither) = .next t :=
  ⟨⟨_, rfl, rfl⟩, rfl, ⟨_, rfl⟩⟩

/-- BusErrorChangesNothing: each of its cases, at MAX_PIXELS = 64 the first unbacked byte of IN and of OUT, and the
ends of the unmapped ranges. -/
theorem witness_bus_errors :
    (windowOf 0x004#26 = .reg ∧ (Access.read .byte).size ≠ .word) ∧
    (windowOf 0x006#26 = .reg ∧ (0x006#26 : Offset).toNat % 4 ≠ 0) ∧
    (windowOf 0x1000002#26 = .inBuf ∧ (0x1000002#26 : Offset).toNat % (Access.read .word).size.bytes ≠ 0) ∧
    (windowOf 0x1000040#26 = .inBuf ∧
      Window.inBuf.backed 64 < (0x1000040#26 : Offset).toNat - Window.inBuf.base + 1) ∧
    (windowOf 0x3000008#26 = .out ∧
      Window.out.backed 64 < (0x3000008#26 : Offset).toNat - Window.out.base + 1) ∧
    (windowOf 0x2000000#26 = .mono ∧ ∃ d, (⟨0x2000000#26, .write (.byte 0#8)⟩ : Transaction).access = .write d) ∧
    windowOf 0x0001000#26 = .unmapped ∧ windowOf 0x0FFFFFF#26 = .unmapped ∧
    windowOf 0x3200000#26 = .unmapped :=
  ⟨by decide, by decide, by decide, by decide, by decide, ⟨by decide, _, rfl⟩, by decide, by decide, by decide⟩

/-- InAccessesAreLittleEndian, OutputReadsAreExactOnlyWhenIdle: a word at index 4 of IN, held and read. -/
theorem witness_in_access :
    4 % (Data.word 0#32).size.bytes = 0 ∧ 4 + (Data.word 0#32).size.bytes ≤ Config.maxPixels ∧
    State.reset.phase = .idle ∧ ([1#8, 2#8, 3#8, 4#8] : List Byte).length = Size.word.bytes ∧
    ∀ k, k < Size.word.bytes →
      Memory.read? (img 8 1 [0#8, 0#8, 0#8, 0#8, 1#8, 2#8, 3#8, 4#8]).inBuf (4 + k) =
        ([1#8, 2#8, 3#8, 4#8] : List Byte)[k]? := by
  have h := Config.eight_le_maxPixels
  refine ⟨rfl, h, rfl, rfl, ?_⟩
  show ∀ k, k < 4 → _
  decide

/-- OutputReadsAreExactOnlyWhenIdle: an idle state with a MONO byte and an OUT byte held and the next bytes not
written, a running state, and the last word of MONO and the last byte of OUT of every block. -/
theorem witness_outputs :
    ({ State.reset with monoBuf := [(0, 255#8)], outBuf := [(0, 1#8)] } : State).phase = .idle ∧
    (busy .dither).phase = .run ∧
    Memory.read? ({ State.reset with monoBuf := [(0, 255#8)], outBuf := [(0, 1#8)] } : State).outBuf 1 = none ∧
    ((Config.maxPixels - 4) % Size.word.bytes = 0 ∧
      Config.maxPixels - 4 + Size.word.bytes ≤ Config.maxPixels) ∧
    ((Config.outSize Config.maxPixels - 1) % Size.byte.bytes = 0 ∧
      Config.outSize Config.maxPixels - 1 + Size.byte.bytes ≤ Config.outSize Config.maxPixels) ∧
    Memory.read? ({ State.reset with monoBuf := [(0, 255#8)], outBuf := [(0, 1#8)] } : State).monoBuf 0 =
      some 255#8 ∧
    Memory.read? ({ State.reset with monoBuf := [(0, 255#8)], outBuf := [(0, 1#8)] } : State).outBuf 0 =
      some 1#8 := by
  have h := Config.eight_le_maxPixels
  have h8 := Config.maxPixels_mod_eight
  simp only [Size.bytes, Config.outSize]
  refine ⟨rfl, rfl, by decide, ⟨by omega, by omega⟩, ⟨by omega, by omega⟩, by decide, by decide⟩

/-- InWriteWhileBusyIsRecorded. -/
theorem witness_in_write_while_busy :
    (State.reset.accept .dither).phase = .run ∧ 0 % (Data.byte 7#8).size.bytes = 0 ∧
    0 + (Data.byte 7#8).size.bytes ≤ Config.maxPixels := by
  have h := Config.eight_le_maxPixels
  refine ⟨rfl, rfl, ?_⟩
  show 0 + 1 ≤ Config.maxPixels
  omega

/-- SystemAddressesReachTheBlock: the first address past the block. -/
theorem witness_outside_the_block : Config.base + 2 ^ 26 ≤ Config.base + 2 ^ 26 := le_refl _

/-- EngineLeavesTheHostSideAlone: a next state at each grain. -/
theorem witness_engine :
    (∃ t, commandRest Config.maxPixels (State.reset.accept .dither) = .next t) ∧
    (∃ t, stageRest Config.maxPixels (State.reset.accept .dither) = .next t) ∧
    ∃ t, visitStep Config.maxPixels (State.reset.accept .dither) = .next t :=
  ⟨⟨_, rfl⟩, ⟨_, rfl⟩, ⟨_, rfl⟩⟩

/-- OvrChangesOnlyAsTheSpecSays: OVR set by a CMD write while busy, by offset and by system address, and cleared by a
STATUS write. -/
theorem witness_ovr :
    (∃ t, step { busy .dither with sched := [.host (wr32 Sym.cmd 1#32)] } = .next t ∧
      t.ovr = true) ∧
    (∃ tr, ({ busy .dither with
        sched := [.system Config.base (.write (.word 1#32))] } : State).nextTransaction? = some tr ∧
      tr.isCmdWrite = true) ∧
    ∃ t, step { State.reset with ovr := true, sched := [.host (wr32 Sym.status 4#32)] } = .next t ∧
      t.ovr = false := by
  refine ⟨⟨_, rfl, rfl⟩, ⟨⟨0#26, .write (.word 1#32)⟩, ?_, rfl⟩, ⟨_, rfl, rfl⟩⟩
  simp [State.nextTransaction?, Event.transaction?, blockOffset?]

/-- DoneChangesOnlyAsTheSpecSays: DONE set by the engine's turn, scheduled or with no event left, and cleared by a
STATUS write and by an acceptance. -/
theorem witness_done :
    (∃ t, step { busy .dither with sched := [.engine] } = .next t ∧ t.done = true) ∧
    (∃ t, step (busy .dither) = .next t ∧ t.done = true) ∧
    (∃ t, step { State.reset with done := true, sched := [.host (wr32 Sym.status 2#32)] } = .next t ∧
      t.done = false) ∧
    ∃ t, step { State.reset with done := true, sched := [.host (wr32 Sym.cmd 0#32)] } = .next t ∧
      t.done = false ∧ t.phase = .run :=
  ⟨⟨_, rfl, rfl⟩, ⟨_, rfl, rfl⟩, ⟨_, rfl, rfl⟩, ⟨_, rfl, rfl, rfl⟩⟩

/-- A running 8 x 1 DITHER whose input has been written meets the invariant. -/
theorem running_inv : ((img 8 1 (List.replicate 8 200#8)).accept .dither).Inv Config.maxPixels := by
  have h8 := Config.eight_le_maxPixels
  refine ⟨⟨by decide, rfl, rfl, ?_, rfl, rfl⟩, ⟨by decide, fun _ => ⟨rfl, rfl, rfl⟩⟩, rfl, fun _ => ⟨rfl, rfl⟩⟩
  exact Memory.below_writeRun 0 (List.replicate 8 200#8) (m := []) (by simp; omega) rfl

/-- StepKeepsTheInvariant, StepStopsOnlyOnTheModelFaults, BlockDependsOnItselfAndTheEventAlone: an idle state that
waits; and a step that faults. -/
theorem witness_inv_step :
    State.reset.Inv Config.maxPixels ∧ (∃ t, step State.reset = .next t) ∧
    step { State.reset with fault := some .hostMutatedInput } = .fault .hostMutatedInput :=
  ⟨Block.inv_of_idle ⟨rfl, rfl, rfl, rfl, rfl, rfl⟩ (by decide) rfl rfl, ⟨_, rfl⟩, rfl⟩

/-- StepStopsOnlyOnTheModelFaults: HOST_MUTATED_INPUT recorded by a host write to IN while busy. -/
theorem witness_records_mutated_input :
    ∃ tr d, ({ busy .dither with sched := [.host (wr8 (Sym.inAt 0) 7#8)] } : State).nextTransaction? =
      some tr ∧ windowOf tr.addr = .inBuf ∧ tr.access = .write d :=
  ⟨wr8 (Sym.inAt 0) 7#8, .byte 7#8, rfl, by decide, rfl⟩

/-- StepStopsOnlyOnTheModelFaults, StepRunsTheDecodedCommand: UNINIT_INPUT recorded by the step that meets an
unwritten input byte, from a state of the invariant; the next step answers it. -/
theorem witness_records_uninit_input :
    ({ img 8 1 [] with sched := [.command 1#32] } : State).Inv Config.maxPixels ∧
    Memory.read? (img 8 1 []).inBuf 0 = none ∧
    ∃ t, step { img 8 1 [] with sched := [.command 1#32] } = .next t ∧ t.fault = some .uninitInput ∧
      step t = .fault .uninitInput := by
  have h := Config.eight_le_maxPixels
  have hx : (img 8 1 []).commandDither = .fault .uninitInput := by
    have hv : validateDither Config.maxPixels 8 1 8 = none := by
      unfold validateDither
      rw [if_neg (by decide), if_neg (by decide), if_neg (by push_cast; omega)]
    show (match validateDither Config.maxPixels 8 1 8 with
      | some e => _
      | none => _) = _
    rw [hv]
    rfl
  refine ⟨Block.inv_of_idle ⟨rfl, rfl, rfl, rfl, rfl, rfl⟩ (by decide) rfl rfl, rfl, ?_⟩
  refine ⟨{ img 8 1 [] with
    toBlock := { (img 8 1 []).accept .dither with fault := some .uninitInput }, resp := some .okay }, ?_, rfl, rfl⟩
  show State.onBlock _ (orRecorded _ (img 8 1 []).commandDither) = _
  rw [hx]
  rfl

/-- RunningCommandEnds: a running command that ends with ALLOCATION_FAILURE and whose input is not written. -/
theorem witness_running_too_large :
    ((img 0x1000008 1 []).accept .dither).Inv Config.maxPixels ∧
    ((img 0x1000008 1 []).accept .dither).phase = .run ∧
    ¬ ((img 0x1000008 1 []).accept .dither).Validated Config.maxPixels := by
  refine ⟨⟨⟨rfl, rfl, rfl, rfl, rfl, rfl⟩, ⟨by decide, fun _ => ⟨rfl, rfl, rfl⟩⟩, rfl, fun _ => ⟨rfl, rfl⟩⟩, rfl, ?_⟩
  intro hv
  obtain ⟨-, -, -, -, hc, -⟩ := validate_eq_none hv
  have h := Config.maxPixels_le
  have hc' : (0x1000008 : Int) * 1 ≤ (Config.maxPixels : Int) := hc
  omega

/-- IssueAndLoadActAsTheirExpansions: three bytes at the start of IN, and a well-formed command. -/
theorem witness_load :
    ([1#8, 2#8, 3#8] : List Byte) ≠ [] ∧ 0 + ([1#8, 2#8, 3#8] : List Byte).length ≤ Config.maxPixels ∧
    0 < 3 ∧ 0 + 3 ≤ Config.maxPixels ∧ Instr.pack.wf = true := by
  have h := Config.eight_le_maxPixels
  exact ⟨by decide, Nat.le_trans (by decide) h, by decide, by omega, rfl⟩

/-- PollEndsAtItsFirstSatisfyingRead: STATUS is a register offset; a poll of two reads that ends with the second. -/
theorem witness_poll :
    Sym.status.toNat < 0x1000 ∧ Sym.status.toNat % 4 = 0 ∧
    pollEnds 0x2#32 0x2#32
      [{ State.reset with resp := some (.okayRead (.word 0x1#32)) },
       { State.reset with resp := some (.okayRead (.word 0x2#32)) }] = true := by decide

/-- BlockDependsOnItselfAndTheEventAlone: two states of one block that differ in all of the environment. -/
theorem witness_same_block :
    State.reset.toBlock =
      ({ State.reset with resp := some .error, draws := 5, sched := [.engine] } : State).toBlock := rfl

/-- RunningCommandEnds, VisitGrainGivesTheSameResult. -/
theorem witness_running :
    ((img 8 1 (List.replicate 8 200#8)).accept .dither).Inv Config.maxPixels ∧
    ((img 8 1 (List.replicate 8 200#8)).accept .dither).phase = .run ∧
    ((img 8 1 (List.replicate 8 200#8)).accept .dither).inBuf.covers
      ((img 8 1 (List.replicate 8 200#8)).accept .dither).pixels :=
  ⟨running_inv, rfl, witness_ditherReady.2.2.2.2.2⟩

end Sys2Proof.Tests
end

section
/-! Proofs about the state (10_state.md): what an engine step can do, and the invariant that every step keeps. -/

namespace Sys2Proof.Machine

/-! ### Steps as turns of the block -/

/-- The event a step takes: the next one of the schedule, or the engine's turn where none is left (log 2). -/
def State.takes (s : State) (e : Event) : Prop := s.sched.head? = some e ∨ (s.sched = [] ∧ e = .engine)

/-- A step is the turn of the block at the event it takes, inside some environment. -/
theorem step_eq_onBlock (s : State) :
    ∃ (e : Event) (s' : State), s.takes e ∧ step s = s'.onBlock (s.toBlock.turn e) := by
  rcases hs : s.sched with _ | ⟨e, rest⟩
  · exact ⟨.engine, s, .inr ⟨hs, rfl⟩, step_of_nil hs⟩
  · exact ⟨e, ({ s with sched := rest } : State).heard e, .inl (by simp [hs]), step_of_cons hs⟩

theorem step_eq_next {s t : State} (h : step s = .next t) :
    ∃ e, s.takes e ∧ s.toBlock.turn e = .next t.toBlock := by
  obtain ⟨e, s', he, hs⟩ := step_eq_onBlock s
  exact ⟨e, he, (State.onBlock_eq_next.1 (hs.symm.trans h)).1⟩

/-- An event that makes a transaction is the schedule's, so the step makes it. -/
theorem State.takes_transaction {s : State} {e : Event} {tr : Transaction} (he : s.takes e)
    (ht : e.transaction? = some tr) : s.nextTransaction? = some tr := by
  rcases he with he | ⟨-, rfl⟩
  · simp [State.nextTransaction?, he, ht]
  · cases ht

/-- The engine's grain that an event runs, if it is an event of the engine. -/
def Event.grain? : Event → Option (Block → Host.Outcome Block Fault Refusal)
  | .engine => some (commandRest Config.maxPixels)
  | .engineStage => some (stageRest Config.maxPixels)
  | .engineVisit => some (visitStep Config.maxPixels)
  | _ => none

/-- Everything a turn can do to the block: nothing; an access; a CMD write whose command runs to its end; a step of the
running engine; a reset. Only a reset is taken in a faulted state. -/
theorem Block.turn_next_cases {e : Event} {s t : Block} (h : s.turn e = .next t) :
    (s.fault = none ∧
      (t = s ∨
        (∃ tr, e.transaction? = some tr ∧ t = s.access Config.maxPixels tr) ∨
        (∃ w, e = .command w ∧ commandTurn w s = .next t) ∨
        ∃ run, e.grain? = some run ∧ s.busy = true ∧ orRecorded s (run s) = .next t)) ∨
    (e = .reset ∧ t = s.resetBlock) := by
  cases hf : s.fault with
  | some r =>
    cases e with
    | reset => exact .inr ⟨rfl, (Host.Outcome.next.inj h).symm⟩
    | _ => rw [Block.turn_of_fault hf (by simp)] at h; cases h
  | none =>
    have hEngine : ∀ run, engineTurn run s = .next t →
        t = s ∨ (s.busy = true ∧ orRecorded s (run s) = .next t) := by
      intro run hr
      rw [engineTurn_eq] at hr
      split at hr
      · rename_i hb
        exact .inr ⟨hb, hr⟩
      · exact .inl (Host.Outcome.next.inj hr).symm
    cases e
    case host tr =>
      simp only [Block.turn, unlessFaulted, hf] at h
      exact .inl ⟨rfl, .inr (.inl ⟨tr, rfl, (Host.Outcome.next.inj h).symm⟩)⟩
    case system a x =>
      simp only [Block.turn, unlessFaulted, hf, Block.systemAccess] at h
      refine .inl ⟨rfl, ?_⟩
      cases ho : blockOffset? Config.base a with
      | none => rw [ho] at h; exact .inl (Host.Outcome.next.inj h).symm
      | some o =>
        rw [ho] at h
        exact .inr (.inl ⟨⟨o, x⟩, by simp [Event.transaction?, ho], (Host.Outcome.next.inj h).symm⟩)
    case command w =>
      simp only [Block.turn, unlessFaulted, hf] at h
      exact .inl ⟨rfl, .inr (.inr (.inl ⟨w, rfl, h⟩))⟩
    case engine | engineStage | engineVisit =>
      simp only [Block.turn, unlessFaulted, hf] at h
      exact .inl ⟨rfl, (hEngine _ h).imp_right fun h => .inr (.inr ⟨_, rfl, h⟩)⟩
    case reset => exact .inr ⟨rfl, (Host.Outcome.next.inj h).symm⟩

/-! ### What a step of the engine can do -/

/-- Everything one step of the engine can leave in the block, whatever the block: an error raised, a command completed,
or MONO, OUT, the stage and the position moved on. -/
inductive Block.EngineMove (s : Block) : Block → Prop where
  | raised (e : CommandError) : s.EngineMove (s.raiseError e)
  | completed (len : Nat) : s.EngineMove (s.complete len)
  | moved (mono out : Memory) (st : Stage) (i : Nat) (j : Int) (d : Dir) :
      s.EngineMove { s with monoBuf := mono, outBuf := out, stage := st, i := i, j := j, dir := d }

/-- What the engine keeps of the block over any number of its steps; DONE is set only where a command ends. -/
structure Block.EngineKeeps (s t : Block) : Prop where
  host : s.KeepsHostSide t
  ovr : t.ovr = s.ovr
  done : t.done = s.done ∨ (t.done = true ∧ t.phase = .idle)

theorem Block.EngineMove.keeps {s t : Block} (h : s.EngineMove t) : s.EngineKeeps t := by
  cases h with
  | raised e => exact ⟨⟨rfl, rfl, rfl, rfl, rfl, rfl⟩, rfl, .inr ⟨rfl, rfl⟩⟩
  | completed len => exact ⟨⟨rfl, rfl, rfl, rfl, rfl, rfl⟩, rfl, .inr ⟨rfl, rfl⟩⟩
  | moved mono out st i j d => exact ⟨⟨rfl, rfl, rfl, rfl, rfl, rfl⟩, rfl, .inl rfl⟩

theorem Block.EngineKeeps.refl (s : Block) : s.EngineKeeps s := ⟨⟨rfl, rfl, rfl, rfl, rfl, rfl⟩, rfl, .inl rfl⟩

/-- The engine goes on only from a block that is still busy. -/
theorem Block.EngineKeeps.trans {s t u : Block} (h : s.EngineKeeps t) (ht : t.busy = true) (h' : t.EngineKeeps u) :
    s.EngineKeeps u := by
  obtain ⟨⟨a1, a2, a3, a4, a5, a6⟩, ao, ad⟩ := h
  obtain ⟨⟨b1, b2, b3, b4, b5, b6⟩, bo, bd⟩ := h'
  refine ⟨⟨b1.trans a1, b2.trans a2, b3.trans a3, b4.trans a4, b5.trans a5, b6.trans a6⟩, bo.trans ao, ?_⟩
  rcases ad with ad | ⟨-, hidle⟩
  · exact bd.imp_left (·.trans ad)
  · rw [Block.busy_iff, hidle] at ht; cases ht

section

variable {cap : Nat} {s t : Block}

/-- Leaving a stage whose result differs from `s` in MONO and OUT alone is a move of the engine. -/
theorem leaveStage_move {st : Stage} {r : Option Block} (h : leaveStage st r = .next t)
    (hr : ∀ u, r = some u → ∃ mono out, u = { s with monoBuf := mono, outBuf := out }) : s.EngineMove t := by
  rcases leaveStage_cases st r with ⟨-, he⟩ | ⟨u, next, hu, -, he⟩ | ⟨u, -, -, he⟩ <;> rw [he] at h
  · cases h
  · obtain ⟨mono, out, rfl⟩ := hr u hu
    cases h
    exact .moved mono out next 0 0 .forward
  · cases h

theorem validateStage_move (h : validateStage cap s = .next t) : s.EngineMove t := by
  rcases validateStage_cases cap s with ⟨e, -, he⟩ | ⟨st, -, -, he⟩ <;> rw [he] at h <;> cases h
  · exact .raised e
  · exact .moved s.monoBuf s.outBuf st 0 0 .forward

theorem finishStage_move (h : finishStage s = .next t) : s.EngineMove t := by
  unfold finishStage at h
  split at h <;> cases h
  exact .completed _

theorem leaveScan_move {ps : List (Int × Nat)} (h : leaveStage .scan (some (s.scan ps)) = .next t) :
    s.EngineMove t :=
  leaveStage_move h fun _ hu => ⟨_, s.outBuf, (Option.some.inj hu).symm⟩

theorem leavePack_move {r : Option Block} (h : leaveStage .pack r = .next t)
    (hr : ∀ u, r = some u → ∃ m, u = { s with outBuf := m }) : s.EngineMove t :=
  leaveStage_move h fun u hu => ⟨s.monoBuf, hr u hu⟩

theorem stageRest_move (h : stageRest cap s = .next t) : s.EngineMove t := by
  unfold stageRest at h
  split at h
  · exact validateStage_move h
  · refine leaveStage_move h fun u hu => ?_
    obtain ⟨bs, -, rfl⟩ := Block.copyIn_eq_some hu
    exact ⟨_, s.outBuf, rfl⟩
  · exact leaveScan_move h
  · refine leavePack_move h fun u hu => ?_
    obtain ⟨m, -, rfl⟩ := Block.packWith_eq_some hu
    exact ⟨m, rfl⟩
  · exact finishStage_move h

theorem scanVisit_move (h : scanVisit s = .next t) : s.EngineMove t := by
  simp only [scanVisit] at h
  split at h
  · cases h; exact .moved _ s.outBuf s.stage s.i _ s.dir
  · split at h
    · cases h; exact .moved _ s.outBuf s.stage _ _ _
    · exact leaveScan_move h

theorem packVisit_move (h : packVisit s = .next t) : s.EngineMove t := by
  unfold packVisit at h
  split at h
  · cases h
  · rename_i u hu
    obtain ⟨m, -, rfl⟩ := Block.packWith_eq_some hu
    split at h
    · cases h; exact .moved s.monoBuf m s.stage s.i _ s.dir
    · split at h
      · cases h; exact .moved s.monoBuf m s.stage _ _ _
      · exact leavePack_move h fun v hv => ⟨m, (Option.some.inj hv).symm⟩

theorem visitStep_move (h : visitStep cap s = .next t) : s.EngineMove t := by
  unfold visitStep at h
  split at h
  · split at h
    · exact scanVisit_move h
    · cases h
  · split at h
    · exact packVisit_move h
    · cases h
  · exact stageRest_move h

/-- Any number of stages keeps the host's side. -/
theorem runStages_keeps (fuel : Nat) (h : runStages cap fuel s = .next t) : s.EngineKeeps t := by
  induction fuel generalizing s with
  | zero => cases h; exact .refl _
  | succ fuel ih =>
    unfold runStages at h
    split at h
    · rename_i u hu
      have hk := (stageRest_move hu).keeps
      split at h
      · rename_i hb
        exact hk.trans hb (ih h)
      · cases h; exact hk
    · cases h
    · cases h

/-- Every grain of the engine keeps the host's side. -/
theorem Event.grain_keeps {e : Event} {run : Block → Host.Outcome Block Fault Refusal} (he : e.grain? = some run)
    (h : run s = .next t) : s.EngineKeeps t := by
  cases e <;> cases he
  · exact runStages_keeps 5 h
  · exact (stageRest_move h).keeps
  · exact (visitStep_move h).keeps

end

/-! ### What the invariant says in each stage -/

section

variable {cap : Nat} {s : Block} (h : s.Inv cap) (hb : s.busy = true)

include h hb

theorem Block.Inv.at_copy (hs : s.stage = .copy) : (s.op = .dither ∨ s.op = .ditherPack) ∧ s.Validated cap := by
  have hp := h.2.2.2 hb
  rwa [hs] at hp

theorem Block.Inv.at_scan (hs : s.stage = .scan) :
    (s.op = .dither ∨ s.op = .ditherPack) ∧ s.Validated cap ∧ (s.i : Int) < s.imgH ∧ 0 ≤ s.j ∧ s.j < s.imgW ∧
      s.monoBuf.covers s.pixels := by
  have hp := h.2.2.2 hb
  rwa [hs] at hp

theorem Block.Inv.at_pack (hs : s.stage = .pack) :
    (s.op = .pack ∨ s.op = .ditherPack) ∧ s.Validated cap ∧ (s.i : Int) < s.imgH ∧ 0 ≤ s.j ∧ s.j < s.imgW ∧
      s.j % 8 = 0 ∧ (s.op = .ditherPack → s.monoBuf.covers s.pixels) := by
  have hp := h.2.2.2 hb
  rwa [hs] at hp

theorem Block.Inv.at_finish (hs : s.stage = .finish) : s.Validated cap := by
  have hp := h.2.2.2 hb
  rwa [hs] at hp

end

/-! ### Unwritten input -/

/-- Some IN byte below the capacity has not been written since reset. -/
def Block.InputUnwritten (cap : Nat) (s : Block) : Prop := ∃ n, n < cap ∧ Memory.read? s.inBuf n = none

/-- An index below N lies below the capacity once the checks have passed. -/
theorem Block.Validated.pixels_le {cap : Nat} {s : Block} (hv : s.Validated cap) : s.pixels ≤ cap := by
  obtain ⟨-, -, -, -, hc, -⟩ := validate_eq_none hv
  unfold Block.pixels
  omega

/-- COPY of a validated command gives nothing only where IN has an unwritten byte. -/
theorem Block.copyIn_eq_none_unwritten {cap : Nat} {s : Block} (hv : s.Validated cap) (h : s.copyIn = none) :
    s.InputUnwritten cap := by
  obtain ⟨n, hn, hr⟩ := (Block.copyIn_eq_none_iff s).1 h
  exact ⟨n, hn.trans_le hv.pixels_le, hr⟩

/-- `N = W * H` as the packer counts it. -/
theorem toNat_mul_toNat {w h : Int} (hw : 0 < w) (hh : 0 < h) : w.toNat * h.toNat = (w * h).toNat := by
  obtain ⟨a, rfl⟩ := Int.eq_ofNat_of_zero_le hw.le
  obtain ⟨b, rfl⟩ := Int.eq_ofNat_of_zero_le hh.le
  norm_cast

/-- The samples of a group of the image lie below `W * H`. -/
theorem group_sample_lt {w h i g k : Nat} (hi : i < h) (hg : g < w / 8) (hk : k < 8) :
    i * w + 8 * g + k < w * h := by
  have h1 : (i + 1) * w ≤ h * w := Nat.mul_le_mul_right _ hi
  have h2 : 8 * g + k < w := by omega
  nlinarith

/-- Packing groups of the image of a validated command gives nothing only where IN has an unwritten byte. -/
theorem Block.packWith_eq_none_unwritten {cap : Nat} {s : Block} {op : Op} {ps : List (Nat × Nat)}
    (hv : s.Validated cap) (hps : ∀ p ∈ ps, p.1 < s.imgH.toNat ∧ p.2 < s.imgW.toNat / 8)
    (h : s.packWith op ps = none) : s.InputUnwritten cap := by
  obtain rfl : op = .pack := by
    by_contra hop
    have := Block.packWith_isSome (s := s) hop ps
    simp [h] at this
  obtain ⟨p, hp, k, hk, hn⟩ := packGroups_eq_none (Block.packWith_eq_none h)
  obtain ⟨h1, h2⟩ := hps p hp
  obtain ⟨-, hw, hh, -⟩ := validate_eq_none hv
  refine ⟨_, (group_sample_lt h1 h2 hk).trans_le ?_, hn⟩
  rw [toNat_mul_toNat hw hh]
  exact hv.pixels_le

/-! ### The engine's outcomes from the invariant -/

/-- An outcome that the invariant allows of an engine step or a command at `s`: a next block that meets the invariant, or
UNINIT_INPUT where IN has an unwritten byte; no refusal. -/
def Block.Allows (cap : Nat) (s : Block) : Host.Outcome Block Fault Refusal → Prop
  | .next t => t.Inv cap
  | .fault r => r = .uninitInput ∧ s.InputUnwritten cap
  | .refused _ => False

/-- Blocks of one IN allow the same outcomes. -/
theorem Block.Allows.of_inBuf {cap : Nat} {s t : Block} (h : t.inBuf = s.inBuf)
    {o : Host.Outcome Block Fault Refusal} (ho : t.Allows cap o) : s.Allows cap o := by
  cases o with
  | next u => exact ho
  | fault r =>
    obtain ⟨hr, n, hn, hread⟩ := ho
    exact ⟨hr, n, hn, h ▸ hread⟩
  | refused r => exact ho

section

variable {cap : Nat} {s : Block}

/-- Leaving a stage is allowed where its result may enter the next stage and no result means unwritten input. -/
theorem Block.Allows.leaveStage {st : Stage} {r : Option Block} (hn : r = none → s.InputUnwritten cap)
    (hs : ∀ t, r = some t → ∃ next, nextStage t.op st = some next ∧ (t.enter next).Inv cap) :
    s.Allows cap (leaveStage st r) := by
  rcases leaveStage_cases st r with ⟨hr, he⟩ | ⟨t, next, hr, hnext, he⟩ | ⟨t, hr, hnext, he⟩
  · rw [he]; exact ⟨rfl, hn hr⟩
  · obtain ⟨next', hnext', hi⟩ := hs t hr
    obtain rfl : next = next' := Option.some.inj (hnext.symm.trans hnext')
    rw [he]; exact hi
  · obtain ⟨next', hnext', -⟩ := hs t hr
    rw [hnext] at hnext'; cases hnext'

/-- A command that ends keeps the invariant: raising an error or completing from sound buffers. -/
theorem Block.inv_raiseError (hb : s.BuffersOk cap) (hd : s.dir = dirOf s.i) (e : CommandError) :
    (s.raiseError e).Inv cap :=
  Block.inv_of_idle hb (by cases e <;> simp [CommandError.code]) hd rfl

theorem Block.inv_complete (hb : s.BuffersOk cap) (hd : s.dir = dirOf s.i) (len : Nat) :
    (s.complete len).Inv cap :=
  Block.inv_of_idle hb (by simp) hd rfl

theorem Block.inv_finished {t : Block} (hb : t.BuffersOk cap) (len : Nat) :
    ((t.enter .finish).complete len).Inv cap :=
  Block.inv_complete (s := t.enter .finish) hb rfl len

theorem validateStage_allowed (h : s.Inv cap) : s.Allows cap (validateStage cap s) := by
  obtain ⟨hbuf, hst, hdir, -⟩ := h
  rcases validateStage_cases cap s with ⟨e, -, he⟩ | ⟨st, hv, hn, he⟩ <;> rw [he]
  · exact Block.inv_raiseError hbuf hdir e
  · refine Block.inv_enter hbuf hst hv st ?_
    cases hop : s.op <;> rw [hop] at hn <;> cases hn <;> simp

/-- Visits inside the image, then on to the stage after SCAN. -/
theorem leaveScan_allowed (h : s.Inv cap) (hb : s.busy = true) (hs : s.stage = .scan) (ps : List (Int × Nat))
    (hps : ∀ p ∈ ps, inBounds s.imgW s.imgH p.1 p.2 = true) :
    s.Allows cap (leaveStage .scan (some (s.scan ps))) := by
  obtain ⟨hop, hv, -, -, -, hcov⟩ := h.at_scan hb hs
  obtain ⟨hbuf, hkeep⟩ := Block.scan_spec h.1 hv ps hps
  refine .leaveStage (by simp) fun t ht => ?_
  cases ht
  rcases hop with hop | hop
  · exact ⟨.finish, by simp [hop, nextStage], Block.inv_enter hbuf h.2.1 hv _ (by simp)⟩
  · exact ⟨.pack, by simp [hop, nextStage],
      Block.inv_enter hbuf h.2.1 hv _ (.inr (.inr (.inl ⟨rfl, .inr ⟨hop, hkeep hcov⟩⟩)))⟩

/-- A result of the packer's stage goes on to FINISH. -/
theorem leavePack_allowed {r : Option Block} (hn : r = none → s.InputUnwritten cap)
    (hs : ∀ t, r = some t → t.BuffersOk cap ∧ t.StatusOk ∧ t.Validated cap ∧ (t.op = .pack ∨ t.op = .ditherPack)) :
    s.Allows cap (leaveStage .pack r) := by
  refine .leaveStage hn fun t ht => ?_
  obtain ⟨hbuf, hst, hv, hop⟩ := hs t ht
  refine ⟨.finish, ?_, Block.inv_enter hbuf hst hv _ (by simp)⟩
  rcases hop with hop | hop <;> rw [hop] <;> rfl

/-- Groups of the image packed in the PACK stage: what the packed block is, and what no result means. -/
theorem packWith_of_inv (h : s.Inv cap) (hb : s.busy = true) (hs : s.stage = .pack) (ps : List (Nat × Nat))
    (hps : ∀ p ∈ ps, p.1 < s.imgH.toNat ∧ p.2 < s.imgW.toNat / 8) :
    (s.packWith s.op ps = none → s.InputUnwritten cap) ∧
    ∀ t, s.packWith s.op ps = some t → t.BuffersOk cap ∧ ∃ m, t = { s with outBuf := m } := by
  obtain ⟨hop, hv, -⟩ := h.at_pack hb hs
  refine ⟨Block.packWith_eq_none_unwritten hv hps, fun t ht => ?_⟩
  exact Block.packWith_spec h.1 hv (by rcases hop with hop | hop <;> simp [hop]) _ ps hps ht

/-- FINISH of a command that has one completes it. -/
theorem finishStage_of_legal (h : s.op ≠ .illegal) : finishStage s = .next (s.complete s.outputLen) := by
  unfold finishStage
  split
  · exact absurd ‹_› h
  · rfl

theorem stageRest_allowed (h : s.Inv cap) (hb : s.busy = true) : s.Allows cap (stageRest cap s) := by
  unfold stageRest
  cases hs : s.stage with
  | validate => exact validateStage_allowed h
  | copy =>
    obtain ⟨hop, hv⟩ := h.at_copy hb hs
    refine .leaveStage (Block.copyIn_eq_none_unwritten hv) fun t ht => ?_
    obtain ⟨hbuf, hcov⟩ := Block.copyIn_spec h.1 hv ht
    obtain ⟨bs, -, rfl⟩ := Block.copyIn_eq_some ht
    refine ⟨.scan, ?_, Block.inv_enter hbuf h.2.1 hv _ (.inr (.inl ⟨rfl, hop, hcov⟩))⟩
    rcases hop with hop | hop <;> simp [hop, nextStage]
  | scan =>
    obtain ⟨-, -, hi, h0, h1, -⟩ := h.at_scan hb hs
    exact leaveScan_allowed h hb hs _ fun p hp => inBounds_of_mem_visitsFrom h0 h1 hi hp
  | pack =>
    obtain ⟨hop, hv, hi, -⟩ := h.at_pack hb hs
    obtain ⟨hn, hsome⟩ := packWith_of_inv h hb hs (groupsFrom s.imgW.toNat s.imgH.toNat (s.j / 8).toNat s.i)
      fun p hp => mem_groupsFrom (by omega) hp
    refine leavePack_allowed hn fun t ht => ?_
    obtain ⟨hbuf, m, rfl⟩ := hsome t ht
    exact ⟨hbuf, h.2.1, hv, hop⟩
  | finish =>
    show s.Allows cap (finishStage s)
    rw [finishStage_of_legal (validate_eq_none (h.at_finish hb hs)).1]
    exact Block.inv_complete h.1 h.2.2.1 _

theorem scanVisit_allowed (h : s.Inv cap) (hb : s.busy = true) (hs : s.stage = .scan) :
    s.Allows cap (scanVisit s) := by
  obtain ⟨hop, hv, hi, h0, h1, hcov⟩ := h.at_scan hb hs
  have hps : ∀ p ∈ [(s.j, s.i)], inBounds s.imgW s.imgH p.1 p.2 = true := by
    simp only [List.mem_singleton, forall_eq, inBounds_iff]
    omega
  obtain ⟨hbuf, hkeep⟩ := Block.scan_spec h.1 hv _ hps
  simp only [scanVisit]
  split
  · rename_i hj
    refine ⟨hbuf, h.2.1, h.2.2.1, fun _ => ?_⟩
    simp only [Block.scan_stage, hs]
    exact ⟨hop, hv, hi, hj.1, hj.2, hkeep hcov⟩
  · split
    · rename_i hrow
      obtain ⟨ha, hz⟩ := Dir.start_bounds (dirOf (s.i + 1)) (w := s.imgW) (by omega)
      refine ⟨hbuf, h.2.1, rfl, fun _ => ?_⟩
      simp only [Block.scan_stage, hs]
      exact ⟨hop, hv, by push_cast; exact hrow, ha, hz, hkeep hcov⟩
    · exact leaveScan_allowed h hb hs _ hps

theorem packVisit_allowed (h : s.Inv cap) (hb : s.busy = true) (hs : s.stage = .pack) :
    s.Allows cap (packVisit s) := by
  obtain ⟨hop, hv, hi, h0, h1, h8, hcov⟩ := h.at_pack hb hs
  obtain ⟨-, hw, -, -, -, hw8⟩ := validate_eq_none hv
  have hw8 : s.imgW % 8 = 0 := hw8 (by rcases hop with hop | hop <;> simp [hop])
  obtain ⟨hn, hsome⟩ := packWith_of_inv h hb hs [(s.i, (s.j / 8).toNat)] (by simp; omega)
  unfold packVisit
  split
  · rename_i hp
    exact ⟨rfl, hn hp⟩
  · rename_i t ht
    obtain ⟨hbuf, m, rfl⟩ := hsome t ht
    split
    · rename_i hj
      refine ⟨hbuf, h.2.1, h.2.2.1, fun _ => ?_⟩
      simp only [hs]
      exact ⟨hop, hv, hi, by omega, hj, by omega, hcov⟩
    · split
      · rename_i hrow
        refine ⟨hbuf, h.2.1, rfl, fun _ => ?_⟩
        simp only [hs]
        exact ⟨hop, hv, by push_cast; exact hrow, le_refl _, hw, by decide, hcov⟩
      · refine leavePack_allowed (by simp) fun u hu => ?_
        cases hu
        exact ⟨hbuf, h.2.1, hv, hop⟩

theorem visitStep_allowed (h : s.Inv cap) (hb : s.busy = true) : s.Allows cap (visitStep cap s) := by
  unfold visitStep
  cases hs : s.stage with
  | scan =>
    have hstage : (nextStage s.op .scan).isSome = true := by
      rcases (h.at_scan hb hs).1 with hop | hop <;> rw [hop] <;> rfl
    simp only [hstage, if_true]
    exact scanVisit_allowed h hb hs
  | pack =>
    have hstage : (nextStage s.op .pack).isSome = true := by
      rcases (h.at_pack hb hs).1 with hop | hop <;> rw [hop] <;> rfl
    simp only [hstage, if_true]
    exact packVisit_allowed h hb hs
  | _ => exact stageRest_allowed h hb

theorem runStages_allowed (fuel : Nat) (h : s.Inv cap) (hb : s.busy = true) :
    s.Allows cap (runStages cap fuel s) := by
  induction fuel generalizing s with
  | zero => exact h
  | succ fuel ih =>
    have hstage := stageRest_allowed h hb
    unfold runStages
    cases hr : stageRest cap s with
    | fault r => rw [hr] at hstage; exact hstage
    | refused r => rw [hr] at hstage; exact hstage
    | next t =>
      rw [hr] at hstage
      by_cases ht : t.busy = true
      · simp only [ht, if_true]
        exact .of_inBuf (stageRest_move hr).keeps.host.2.2.2.2.1 (ih hstage ht)
      · simp only [ht]
        exact hstage

/-- Every grain of the engine answers from the invariant as it may. -/
theorem Event.grain_allowed {s : Block} {e : Event} {run : Block → Host.Outcome Block Fault Refusal}
    (he : e.grain? = some run) (h : s.Inv Config.maxPixels) (hb : s.busy = true) :
    s.Allows Config.maxPixels (run s) := by
  cases e <;> cases he
  · exact runStages_allowed 5 h hb
  · exact stageRest_allowed h hb
  · exact visitStep_allowed h hb

end

/-! ### Commands from the invariant -/

section

variable {s t : Block}

/-- The dither scan is COPY and then every visit. -/
theorem Block.ditherScan_eq_some_scan (h : s.ditherScan = some t) :
    ∃ u, s.copyIn = some u ∧ t = u.scan (visitOrder u.imgW u.imgH) := by
  unfold Block.ditherScan at h
  split at h
  · rename_i u hu
    exact ⟨u, hu, (Option.some.inj h).symm⟩
  · cases h

/-- Every visit of an image lies inside it. -/
theorem inBounds_of_mem_visitOrder {w h : Int} (hw : 0 < w) {p : Int × Nat} (hp : p ∈ visitOrder w h) :
    inBounds w h p.1 p.2 = true := by
  have := mem_rowsVisits hw hp
  rw [inBounds_iff]
  omega

/-- Every group of an image lies inside it. -/
theorem mem_groupOrder {w h : Nat} {p : Nat × Nat} (hp : p ∈ groupOrder w h) : p.1 < h ∧ p.2 < w / 8 := by
  have := mem_rowsGroups hp
  omega

theorem Block.ditherScan_buffersOk {cap : Nat} (hb : s.BuffersOk cap) (hv : s.Validated cap)
    (h : s.ditherScan = some t) : t.BuffersOk cap := by
  obtain ⟨u, hu, rfl⟩ := Block.ditherScan_eq_some_scan h
  have hub := (Block.copyIn_spec hb hv hu).1
  obtain ⟨bs, -, rfl⟩ := Block.copyIn_eq_some hu
  obtain ⟨-, hw, -⟩ := validate_eq_none hv
  exact (Block.scan_spec hub hv _ fun p hp => inBounds_of_mem_visitOrder hw hp).1

theorem Block.packAll_buffersOk {cap : Nat} (hb : s.BuffersOk cap) (hv : s.Validated cap) (hod : s.op ≠ .dither)
    {op : Op} (h : s.packAll op = some t) : t.BuffersOk cap :=
  (Block.packWith_spec hb hv hod op _ (fun _ hp => mem_groupOrder hp) h).1

/-- The dither scan differs from its start in MONO alone. -/
theorem Block.ditherScan_eq_some_mono (h : s.ditherScan = some t) : ∃ m, t = { s with monoBuf := m } := by
  obtain ⟨bs, -, rfl⟩ := Block.ditherScan_eq_some h
  exact ⟨_, rfl⟩

theorem runDither_allowed {cap : Nat} (hop : s.op = .dither) (hb : s.BuffersOk cap) (hd : s.dir = dirOf s.i) :
    s.Allows cap (runDither cap s) := by
  unfold runDither
  cases hv : validateDither cap s.imgW s.imgH s.imgLen with
  | some e => exact Block.inv_raiseError hb hd e
  | none =>
    have hv : s.Validated cap := by rw [Block.Validated, hop]; exact hv
    cases hs : s.ditherScan with
    | none =>
      obtain ⟨n, hn, hr⟩ := (Block.ditherScan_eq_none_iff s).1 hs
      exact ⟨rfl, n, hn.trans_le hv.pixels_le, hr⟩
    | some t =>
      exact Block.inv_finished (Block.ditherScan_buffersOk hb hv hs) _

theorem runPack_allowed {cap : Nat} (hop : s.op = .pack) (hb : s.BuffersOk cap) (hd : s.dir = dirOf s.i) :
    s.Allows cap (runPack cap s) := by
  unfold runPack
  cases hv : validatePack cap s.imgW s.imgH s.imgLen with
  | some e => exact Block.inv_raiseError hb hd e
  | none =>
    have hv : s.Validated cap := by rw [Block.Validated, hop]; exact hv
    cases hs : s.packAll .pack with
    | none => exact ⟨rfl, Block.packWith_eq_none_unwritten hv (fun _ hp => mem_groupOrder hp) hs⟩
    | some t =>
      exact Block.inv_finished (Block.packAll_buffersOk hb hv (by simp [hop]) hs) _

theorem runDitherPack_allowed {cap : Nat} (hop : s.op = .ditherPack) (hb : s.BuffersOk cap)
    (hd : s.dir = dirOf s.i) : s.Allows cap (runDitherPack cap s) := by
  unfold runDitherPack
  cases hv : validatePack cap s.imgW s.imgH s.imgLen with
  | some e => exact Block.inv_raiseError hb hd e
  | none =>
    have hv : s.Validated cap := by rw [Block.Validated, hop]; exact hv
    cases hs : s.ditherScan with
    | none =>
      obtain ⟨n, hn, hr⟩ := (Block.ditherScan_eq_none_iff s).1 hs
      exact ⟨rfl, n, hn.trans_le hv.pixels_le, hr⟩
    | some u =>
      have hub := Block.ditherScan_buffersOk hb hv hs
      obtain ⟨m, rfl⟩ := Block.ditherScan_eq_some_mono hs
      have hsome := Block.packWith_isSome (s := { s with monoBuf := m }) (op := .ditherPack) (by decide)
        (groupOrder s.imgW.toNat s.imgH.toNat)
      obtain ⟨t, ht⟩ := Option.isSome_iff_exists.1 hsome
      have ht' : Block.packAll { s with monoBuf := m } .ditherPack = some t := ht
      simp only [ht']
      exact Block.inv_finished (Block.packAll_buffersOk hub hv (by simp [hop]) ht') _

/-- An issued command keeps the invariant, accepted or dropped. -/
theorem Block.inv_issue {cap : Nat} (h : s.Inv cap) (op : Op) : (s.issue op).Inv cap := by
  unfold Block.issue
  split
  · exact h
  · exact ⟨h.1, ⟨by simp, fun _ => ⟨rfl, rfl, rfl⟩⟩, rfl, fun _ => ⟨rfl, rfl⟩⟩

theorem Block.command_allowed (h : s.Inv Config.maxPixels) (i : Instr) :
    s.Allows Config.maxPixels (s.command i) := by
  by_cases hb : s.busy = true
  · rw [Block.command_of_busy i hb]
    exact h
  · cases i <;> simp only [Block.command, Block.commandDither, Block.commandPack, Block.commandDitherPack,
      Block.commandIllegal, hb]
    · exact .of_inBuf rfl (runDither_allowed (s := s.accept .dither) rfl h.1 rfl)
    · exact .of_inBuf rfl (runPack_allowed (s := s.accept .pack) rfl h.1 rfl)
    · exact .of_inBuf rfl (runDitherPack_allowed (s := s.accept .ditherPack) rfl h.1 rfl)
    · exact Block.inv_raiseError (s := s.accept .illegal) h.1 rfl _

end

/-! ### Host accesses and the invariant -/

section

variable {cap : Nat} {s : Block}

theorem writeReg_inv (h : s.Inv cap) (v : Word) (r : Reg) : (writeReg s v r).Inv cap := by
  cases r with
  | cmd => exact Block.inv_issue h _
  | status =>
    obtain ⟨hbuf, ⟨herr, hst⟩, hpos⟩ := h
    refine ⟨hbuf, ⟨herr, fun hb => ?_⟩, hpos⟩
    obtain ⟨hdone, hrest⟩ := hst hb
    exact ⟨by simp [writeReg, hdone], hrest⟩
  | _ => exact h

theorem writeIn_inv (h : s.Inv cap) {n : Nat} {d : Data} (hn : n + d.size.bytes ≤ cap) : (writeIn s n d).Inv cap := by
  obtain ⟨⟨h1, h2, h3, h4, h5, h6⟩, hst, hpos⟩ := h
  have hIn : Block.Inv cap { s with inBuf := Memory.writeRun s.inBuf n d.bytes } :=
    ⟨⟨Memory.wf_writeRun n _ h1, h2, h3, Memory.below_writeRun n _ (by rwa [Data.length_bytes]) h4, h5, h6⟩, hst, hpos⟩
  simp only [writeIn]
  split
  · exact Block.inv_recordFault _ hIn
  · exact hIn

theorem Block.access_inv (h : s.Inv cap) (tr : Transaction) : (s.access cap tr).Inv cap := by
  rcases Block.access_cases cap tr s with he | ⟨v, -, -, he⟩ | ⟨d, -, -, hn, he⟩ <;> rw [he]
  · exact h
  · exact writeReg_inv h v _
  · exact writeIn_inv h hn

/-- Every reset block meets the invariant: it is idle and its buffers are empty. -/
theorem Block.inv_resetBlock (s : Block) : s.resetBlock.Inv cap :=
  Block.inv_of_idle ⟨rfl, rfl, rfl, rfl, rfl, rfl⟩ (by simp [Block.reset]) rfl rfl

/-- An outcome the invariant allows at `s`, recorded in a block that meets the invariant, keeps it. -/
theorem Block.Allows.recorded {u t : Block} {o : Host.Outcome Block Fault Refusal} (ho : s.Allows cap o)
    (hu : u.Inv cap) (h : orRecorded u o = .next t) : t.Inv cap := by
  rcases orRecorded_eq_next h with rfl | ⟨r, -, rfl⟩
  · exact ho
  · exact Block.inv_recordFault r hu

theorem Block.turn_inv {s t : Block} {e : Event} (hs : s.Inv Config.maxPixels) (h : s.turn e = .next t) :
    t.Inv Config.maxPixels := by
  rcases Block.turn_next_cases h with ⟨-, rfl | ⟨tr, -, rfl⟩ | ⟨w, -, hw⟩ | ⟨run, he, hb, hr⟩⟩ | ⟨-, rfl⟩
  · exact hs
  · exact Block.access_inv hs tr
  · exact (Block.command_allowed hs (decode w)).recorded (Block.inv_issue hs _) hw
  · exact (Event.grain_allowed he hs hb).recorded hs hr
  · exact Block.inv_resetBlock s

end

/-- Settles O53: a step is a turn of the block, and every turn keeps the invariant: an access, a command and each grain
of the engine by their own lemmas. -/
theorem stepKeepsTheInvariant : Obligations.StepKeepsTheInvariant := by
  intro s t hs h
  obtain ⟨e, -, he⟩ := step_eq_next h
  exact Block.turn_inv hs he

/-- Settles O8: the block at reset is idle, with empty buffers. -/
theorem resetMeetsTheInvariant : Obligations.ResetMeetsTheInvariant :=
  Block.inv_resetBlock Block.reset

end Sys2Proof.Machine
end

section
/-! Whole-machine rules (10_state.md R22, R34, R41, R46): which step changes OVR, DONE and the recorded fault, and what host and engine leave alone. -/

namespace Sys2Proof.Machine

/-! ### Register writes at their offsets -/

theorem regAt_eq_cmd {n : Nat} (h : regAt n = .cmd) : n = 0 := by
  unfold regAt at h
  split at h <;> cases h
  rfl

theorem regAt_eq_status {n : Nat} (h : regAt n = .status) : n = 4 := by
  unfold regAt at h
  split at h <;> cases h
  rfl

/-- An issued command is dropped while busy and accepted while idle. -/
theorem Block.issue_of_busy {s : Block} (op : Op) (h : s.busy = true) : s.issue op = s.dropCommand := by
  simp [Block.issue, h]

theorem Block.issue_of_idle {s : Block} (op : Op) (h : s.busy = false) : s.issue op = s.accept op := by
  simp [Block.issue, h]

@[simp] theorem Block.issue_fault (s : Block) (op : Op) : (s.issue op).fault = s.fault := by
  unfold Block.issue
  split <;> rfl

@[simp] theorem writeReg_fault (s : Block) (v : Word) (r : Reg) : (writeReg s v r).fault = s.fault := by
  cases r with
  | cmd => exact Block.issue_fault s _
  | _ => rfl

/-- Everything a transaction can do to DONE and OVR: nothing, a CMD write, or a STATUS write. -/
theorem Block.access_status_cases (cap : Nat) (tr : Transaction) (s : Block) :
    ((s.access cap tr).done = s.done ∧ (s.access cap tr).ovr = s.ovr) ∨
    (tr.isCmdWrite = true ∧ ∃ op, s.access cap tr = s.issue op) ∨
    ∃ v, (∀ k, tr.clears k = v.getLsbD k) ∧ s.access cap tr = s.writeStatus v := by
  rcases Block.access_cases cap tr s with he | ⟨v, -, hx, he⟩ | ⟨d, -, -, -, he⟩ <;> rw [he]
  · exact .inl ⟨rfl, rfl⟩
  · cases hr : regAt tr.addr.toNat with
    | cmd =>
      have ha : tr.addr = 0#26 := BitVec.eq_of_toNat_eq (regAt_eq_cmd hr)
      exact .inr (.inl ⟨by simp [Transaction.isCmdWrite, ha, hx], _, rfl⟩)
    | status =>
      have ha : tr.addr = 0x004#26 := BitVec.eq_of_toNat_eq (regAt_eq_status hr)
      exact .inr (.inr ⟨v, by simp [Transaction.clears, ha, hx], rfl⟩)
    | _ => exact .inl ⟨rfl, rfl⟩
  · simp only [writeIn]
    split <;> exact .inl ⟨rfl, rfl⟩

/-- A transaction records a fault only as a write to IN while busy. -/
theorem Block.access_fault_cases (cap : Nat) (tr : Transaction) (s : Block) :
    (s.access cap tr).fault = s.fault ∨
    ((s.access cap tr).fault = some (s.fault.getD .hostMutatedInput) ∧ s.phase = .run ∧
      windowOf tr.addr = .inBuf ∧ ∃ d, tr.access = .write d) := by
  rcases Block.access_cases cap tr s with he | ⟨v, -, -, he⟩ | ⟨d, hw, hx, -, he⟩ <;> rw [he]
  · exact .inl rfl
  · exact .inl (writeReg_fault s v _)
  · simp only [writeIn]
    split
    · rename_i hb
      exact .inr ⟨rfl, (Block.busy_iff s).1 hb, hw, d, hx⟩
    · exact .inl rfl

/-! ### A CMD write whose command runs to its end -/

/-- A command that ends while the block was idle leaves it idle with DONE set, and keeps the host's side and OVR. -/
theorem Block.command_ends {i : Instr} {s t : Block} (hb : s.busy = false) (h : s.command i = .next t) :
    s.KeepsHostSide t ∧ t.ovr = s.ovr ∧ t.done = true ∧ t.phase = .idle := by
  rcases Block.command_next_cases h with ⟨hb', -⟩ | ⟨-, ⟨e, rfl⟩ | ⟨mono, out, len, rfl⟩⟩
  · rw [hb] at hb'; cases hb'
  · exact ⟨⟨rfl, rfl, rfl, rfl, rfl, rfl⟩, rfl, rfl, rfl⟩
  · exact ⟨⟨rfl, rfl, rfl, rfl, rfl, rfl⟩, rfl, rfl, rfl⟩

/-- Everything the turn of a command word can leave: the dropped command, the ended one, or the accepted block with the
fault that its command met. -/
theorem commandTurn_next_cases {w : Word} {s t : Block} (h : commandTurn w s = .next t) :
    (s.busy = true ∧ t = s.dropCommand) ∨
    (s.busy = false ∧ s.command (decode w) = .next t) ∨
    (s.busy = false ∧ ∃ r, s.command (decode w) = .fault r ∧ t = (s.accept (Op.of (decode w))).recordFault r) := by
  unfold commandTurn at h
  cases hb : s.busy with
  | true =>
    rw [Block.command_of_busy _ hb, orRecorded_next] at h
    exact .inl ⟨rfl, (Host.Outcome.next.inj h).symm⟩
  | false =>
    rw [Block.issue_of_idle _ hb] at h
    rcases orRecorded_eq_next h with hn | ⟨r, hr, rfl⟩
    · exact .inr (.inl ⟨rfl, hn⟩)
    · exact .inr (.inr ⟨rfl, r, hr, rfl⟩)

/-! ### The events that a step takes -/

/-- An event of the engine that a step takes is scheduled, or stands for the empty schedule. -/
theorem State.takes_grain {s : State} {e : Event} {run : Block → Host.Outcome Block Fault Refusal}
    (he : s.takes e) (hg : e.grain? = some run) :
    s.sched = [] ∨ s.sched.head? = some .engine ∨ s.sched.head? = some .engineStage ∨
      s.sched.head? = some .engineVisit := by
  rcases he with he | ⟨he, -⟩
  · cases e <;> cases hg <;> simp [he]
  · exact .inl he

/-- Any other event that a step takes is scheduled. -/
theorem State.takes_scheduled {s : State} {e : Event} (he : s.takes e) (hne : e ≠ .engine) :
    s.sched.head? = some e :=
  he.resolve_right fun h => hne h.2

/-! ### OVR -/

/-- What a turn can do to OVR: keep it, set it by a CMD write while busy, clear it by a STATUS write or a reset. -/
theorem Block.turn_ovr_cases {e : Event} {s t : Block} (h : s.turn e = .next t) :
    t.ovr = s.ovr ∨
    (t.ovr = true ∧ s.phase = .run ∧
      ((∃ w, e = .command w) ∨ ∃ tr, e.transaction? = some tr ∧ tr.isCmdWrite = true)) ∨
    (t.ovr = false ∧ (e = .reset ∨ ∃ tr, e.transaction? = some tr ∧ tr.clears 2 = true)) := by
  rcases Block.turn_next_cases h with ⟨-, rfl | ⟨tr, htr, rfl⟩ | ⟨w, rfl, hw⟩ | ⟨run, he, -, hr⟩⟩ | ⟨rfl, rfl⟩
  · exact .inl rfl
  · rcases Block.access_status_cases Config.maxPixels tr s with ⟨-, ho⟩ | ⟨hc, op, hi⟩ | ⟨v, hv, hs⟩
    · exact .inl ho
    · cases hb : s.busy with
      | true =>
        rw [hi, Block.issue_of_busy op hb]
        exact .inr (.inl ⟨rfl, (Block.busy_iff s).1 hb, .inr ⟨tr, htr, hc⟩⟩)
      | false =>
        rw [hi, Block.issue_of_idle op hb]
        exact .inl rfl
    · rw [hs, Block.writeStatus_ovr]
      cases hbit : v.getLsbD 2 with
      | true => exact .inr (.inr ⟨by simp, .inr ⟨tr, htr, (hv 2).trans hbit⟩⟩)
      | false => exact .inl (by simp)
  · rcases commandTurn_next_cases hw with ⟨hb, rfl⟩ | ⟨hb, hc⟩ | ⟨-, r, -, rfl⟩
    · exact .inr (.inl ⟨rfl, (Block.busy_iff s).1 hb, .inl ⟨w, rfl⟩⟩)
    · exact .inl (Block.command_ends hb hc).2.1
    · exact .inl rfl
  · rcases orRecorded_eq_next hr with hn | ⟨r, -, rfl⟩
    · exact .inl (Event.grain_keeps he hn).ovr
    · exact .inl rfl
  · exact .inr (.inr ⟨rfl, .inl rfl⟩)

/-- Settles O51, from what a turn can do to OVR. -/
theorem ovrChangesOnlyAsTheSpecSays : Obligations.OvrChangesOnlyAsTheSpecSays := by
  intro s t h
  obtain ⟨e, he, ht⟩ := step_eq_next h
  rcases Block.turn_ovr_cases ht with ho | ⟨ho, hp, hev⟩ | ⟨ho, hev⟩
  · constructor <;> intro h1 h2 <;> simp [ho, h1] at h2
  · refine ⟨fun _ _ => ⟨hp, ?_⟩, fun _ h2 => by simp [ho] at h2⟩
    rcases hev with ⟨w, rfl⟩ | ⟨tr, htr, hc⟩
    · exact .inl ⟨w, State.takes_scheduled he (by simp)⟩
    · exact .inr ⟨tr, State.takes_transaction he htr, hc⟩
  · refine ⟨fun _ h2 => by simp [ho] at h2, fun _ _ => ?_⟩
    rcases hev with rfl | ⟨tr, htr, hc⟩
    · exact .inl (State.takes_scheduled he (by simp))
    · exact .inr ⟨tr, State.takes_transaction he htr, hc⟩

/-! ### DONE -/

/-- What a turn can do to DONE: keep it; set it where a command ends; clear it by a reset, a STATUS write or an
acceptance. -/
theorem Block.turn_done_cases {e : Event} {s t : Block} (h : s.turn e = .next t) :
    t.done = s.done ∨
    (t.done = true ∧ t.phase = .idle ∧
      ((s.phase = .run ∧ ∃ run, e.grain? = some run) ∨ (s.phase = .idle ∧ ∃ w, e = .command w))) ∨
    (t.done = false ∧
      (e = .reset ∨ (∃ tr, e.transaction? = some tr ∧ tr.clears 1 = true) ∨
        (s.phase = .idle ∧ t.phase = .run ∧
          ((∃ w, e = .command w) ∨ ∃ tr, e.transaction? = some tr ∧ tr.isCmdWrite = true)))) := by
  rcases Block.turn_next_cases h with ⟨-, rfl | ⟨tr, htr, rfl⟩ | ⟨w, rfl, hw⟩ | ⟨run, he, hb, hr⟩⟩ | ⟨rfl, rfl⟩
  · exact .inl rfl
  · rcases Block.access_status_cases Config.maxPixels tr s with ⟨hd, -⟩ | ⟨hc, op, hi⟩ | ⟨v, hv, hs⟩
    · exact .inl hd
    · cases hb : s.busy with
      | true =>
        rw [hi, Block.issue_of_busy op hb]
        exact .inl rfl
      | false =>
        rw [hi, Block.issue_of_idle op hb]
        exact .inr (.inr ⟨rfl, .inr (.inr ⟨(Block.busy_eq_false_iff s).1 hb, rfl, .inr ⟨tr, htr, hc⟩⟩)⟩)
    · rw [hs, Block.writeStatus_done]
      cases hbit : v.getLsbD 1 with
      | true => exact .inr (.inr ⟨by simp, .inr (.inl ⟨tr, htr, (hv 1).trans hbit⟩)⟩)
      | false => exact .inl (by simp)
  · rcases commandTurn_next_cases hw with ⟨-, rfl⟩ | ⟨hb, hc⟩ | ⟨hb, r, -, rfl⟩
    · exact .inl rfl
    · obtain ⟨-, -, hd, hp⟩ := Block.command_ends hb hc
      exact .inr (.inl ⟨hd, hp, .inr ⟨(Block.busy_eq_false_iff s).1 hb, w, rfl⟩⟩)
    · exact .inr (.inr ⟨rfl, .inr (.inr ⟨(Block.busy_eq_false_iff s).1 hb, rfl, .inl ⟨w, rfl⟩⟩)⟩)
  · rcases orRecorded_eq_next hr with hn | ⟨r, -, rfl⟩
    · rcases (Event.grain_keeps he hn).done with hd | ⟨hd, hp⟩
      · exact .inl hd
      · exact .inr (.inl ⟨hd, hp, .inl ⟨(Block.busy_iff s).1 hb, run, he⟩⟩)
    · exact .inl rfl
  · exact .inr (.inr ⟨rfl, .inl rfl⟩)

/-- Settles O52, from what a turn can do to DONE. -/
theorem doneChangesOnlyAsTheSpecSays : Obligations.DoneChangesOnlyAsTheSpecSays := by
  intro s t h
  obtain ⟨e, he, ht⟩ := step_eq_next h
  rcases Block.turn_done_cases ht with hd | ⟨hd, hp, hev⟩ | ⟨hd, hev⟩
  · constructor <;> intro h1 h2 <;> simp [hd, h1] at h2
  · refine ⟨fun _ _ => ⟨hp, ?_⟩, fun _ h2 => by simp [hd] at h2⟩
    rcases hev with ⟨hrun, run, hg⟩ | ⟨hidle, w, rfl⟩
    · exact .inl ⟨hrun, State.takes_grain he hg⟩
    · exact .inr ⟨hidle, w, State.takes_scheduled he (by simp)⟩
  · refine ⟨fun _ h2 => by simp [hd] at h2, fun _ _ => ?_⟩
    rcases hev with rfl | ⟨tr, htr, hc⟩ | ⟨hidle, hrun, ⟨w, rfl⟩ | ⟨tr, htr, hc⟩⟩
    · exact .inl (State.takes_scheduled he (by simp))
    · exact .inr (.inl ⟨tr, State.takes_transaction he htr, hc⟩)
    · exact .inr (.inr ⟨hidle, hrun, .inl ⟨w, State.takes_scheduled he (by simp)⟩⟩)
    · exact .inr (.inr ⟨hidle, hrun, .inr ⟨tr, State.takes_transaction he htr, hc⟩⟩)

/-! ### Refusals and faults -/

/-- An outcome that the invariant allows is not refused, recorded or not. -/
theorem Block.Allows.recorded_ne_refused {cap : Nat} {s : Block} {o : Host.Outcome Block Fault Refusal}
    (ho : s.Allows cap o) (u : Block) (r : Refusal) : orRecorded u o ≠ .refused r := by
  cases o with
  | next t => simp
  | fault q => simp
  | refused q => exact ho.elim

/-- A turn of the engine from the invariant is not refused. -/
theorem engineTurn_ne_refused {s : Block} {e : Event} {run : Block → Host.Outcome Block Fault Refusal}
    (he : e.grain? = some run) (h : s.Inv Config.maxPixels) (r : Refusal) : engineTurn run s ≠ .refused r := by
  rw [engineTurn_eq]
  split
  · exact (Event.grain_allowed he h ‹_›).recorded_ne_refused s r
  · simp

theorem Block.turn_ne_refused {s : Block} (h : s.Inv Config.maxPixels) (e : Event) (r : Refusal) :
    s.turn e ≠ .refused r := by
  cases hf : s.fault with
  | some q =>
    cases e with
    | reset => simp [Block.turn]
    | _ => simp [Block.turn_of_fault hf]
  | none =>
    cases e <;> simp only [Block.turn, unlessFaulted, hf]
    case command w => exact (Block.command_allowed h (decode w)).recorded_ne_refused _ r
    case engine => exact engineTurn_ne_refused (e := .engine) rfl h r
    case engineStage => exact engineTurn_ne_refused (e := .engineStage) rfl h r
    case engineVisit => exact engineTurn_ne_refused (e := .engineVisit) rfl h r
    all_goals simp

/-- A turn keeps a recorded fault: only a reset is taken, and a reset keeps it. -/
theorem Block.turn_keeps_fault {s t : Block} {e : Event} {r : Fault} (hr : s.fault = some r)
    (h : s.turn e = .next t) : t.fault = some r := by
  rcases Block.turn_next_cases h with ⟨hn, -⟩ | ⟨-, rfl⟩
  · rw [hn] at hr; cases hr
  · exact hr

/-- A fault that a turn records from the invariant: UNINIT_INPUT where IN has an unwritten byte, or
HOST_MUTATED_INPUT where the host writes IN while busy. -/
theorem Block.turn_records {s t : Block} {e : Event} {r : Fault} (hs : s.Inv Config.maxPixels)
    (hn : s.fault = none) (h : s.turn e = .next t) (hr : t.fault = some r) :
    (r = .uninitInput ∧ s.InputUnwritten Config.maxPixels) ∨
    (r = .hostMutatedInput ∧ s.phase = .run ∧
      ∃ tr d, e.transaction? = some tr ∧ windowOf tr.addr = .inBuf ∧ tr.access = .write d) := by
  have hkept : t.fault ≠ s.fault := by rw [hn, hr]; simp
  rcases Block.turn_next_cases h with ⟨-, rfl | ⟨tr, htr, rfl⟩ | ⟨w, rfl, hw⟩ | ⟨run, he, hb, hrun⟩⟩ | ⟨-, rfl⟩
  · exact absurd rfl hkept
  · rcases Block.access_fault_cases Config.maxPixels tr s with hf | ⟨hf, hp, hwin, d, hd⟩
    · exact absurd hf hkept
    · rw [hf, hn] at hr
      exact .inr ⟨(Option.some.inj hr).symm, hp, tr, d, htr, hwin, hd⟩
  · have hall := Block.command_allowed hs (decode w)
    rcases commandTurn_next_cases hw with ⟨-, rfl⟩ | ⟨hb, hc⟩ | ⟨-, q, hc, rfl⟩
    · exact absurd rfl hkept
    · obtain ⟨⟨-, -, -, -, -, hf⟩, -⟩ := Block.command_ends hb hc
      exact absurd hf hkept
    · rw [hc] at hall
      obtain ⟨rfl, hun⟩ := hall
      simp only [Block.recordFault_fault, Block.accept_fault, hn] at hr
      exact .inl ⟨(Option.some.inj hr).symm, hun⟩
  · have hall := Event.grain_allowed he hs hb
    rcases orRecorded_eq_next hrun with hc | ⟨q, hc, rfl⟩
    · obtain ⟨-, -, -, -, -, hf⟩ := (Event.grain_keeps he hc).host
      exact absurd hf hkept
    · rw [hc] at hall
      obtain ⟨rfl, hun⟩ := hall
      simp only [Block.recordFault_fault, hn] at hr
      exact .inl ⟨(Option.some.inj hr).symm, hun⟩
  · exact absurd rfl hkept

/-- Settles O54: the turn of a block of the invariant is never refused, faults with the recorded fault alone, and
records a fault only where the engine or a command met an unwritten byte or the host wrote IN while busy. -/
theorem stepStopsOnlyOnTheModelFaults : Obligations.StepStopsOnlyOnTheModelFaults := by
  intro s hs
  obtain ⟨e', s', -, hstep⟩ := step_eq_onBlock s
  refine ⟨fun r hr => ?_, fun r hr => ?_, fun t ht => ?_⟩
  · exact Block.turn_ne_refused hs e' r (State.onBlock_eq_refused.1 (hstep.symm.trans hr))
  · exact Block.turn_eq_fault (State.onBlock_eq_fault.1 (hstep.symm.trans hr))
  · obtain ⟨e, he, hturn⟩ := step_eq_next ht
    refine ⟨fun r hr => Block.turn_keeps_fault hr hturn, fun r hn hr => ?_⟩
    refine (Block.turn_records hs hn hturn hr).imp_right fun ⟨hq, hp, tr, d, htr, hwin, hd⟩ => ?_
    exact ⟨hq, hp, tr, d, State.takes_transaction he htr, hwin, hd⟩

/-! ### What host and engine leave to each other -/

/-- A register write while busy leaves the engine's side: a CMD write is dropped. -/
theorem writeReg_keepsEngineSide {s : Block} (hb : s.busy = true) (v : Word) (r : Reg) :
    s.KeepsEngineSide (writeReg s v r) := by
  cases r with
  | cmd =>
    rw [writeReg, Block.issue_of_busy _ hb]
    exact ⟨rfl, rfl, rfl, rfl, rfl, rfl, rfl, rfl, rfl, rfl, rfl, rfl, rfl⟩
  | _ => exact ⟨rfl, rfl, rfl, rfl, rfl, rfl, rfl, rfl, rfl, rfl, rfl, rfl, rfl⟩

theorem writeIn_keepsEngineSide (s : Block) (n : Nat) (d : Data) : s.KeepsEngineSide (writeIn s n d) := by
  simp only [writeIn]
  split <;> exact ⟨rfl, rfl, rfl, rfl, rfl, rfl, rfl, rfl, rfl, rfl, rfl, rfl, rfl⟩

/-- Settles O49: a transaction does nothing, writes a register or writes IN, and each leaves the engine's side. -/
theorem hostAccessesLeaveTheEngineSideAlone : Obligations.HostAccessesLeaveTheEngineSideAlone := by
  intro s tr hrun
  rw [hostAccess_toBlock]
  rcases Block.access_cases Config.maxPixels tr s.toBlock with he | ⟨v, -, -, he⟩ | ⟨d, -, -, -, he⟩ <;> rw [he]
  · exact ⟨rfl, rfl, rfl, rfl, rfl, rfl, rfl, rfl, rfl, rfl, rfl, rfl, rfl⟩
  · exact writeReg_keepsEngineSide ((Block.busy_iff _).2 hrun) v _
  · exact writeIn_keepsEngineSide _ _ d

/-- Settles O50, from what each grain of the engine keeps. -/
theorem engineLeavesTheHostSideAlone : Obligations.EngineLeavesTheHostSideAlone := by
  intro s t h
  have hk : s.EngineKeeps t := by
    rcases h with h | h | h
    · exact Event.grain_keeps (e := .engine) rfl h
    · exact Event.grain_keeps (e := .engineStage) rfl h
    · exact Event.grain_keeps (e := .engineVisit) rfl h
  exact ⟨hk.host, hk.ovr⟩

/-! ### The block and its environment -/

/-- A turn of the machine on one block gives one block, whatever the environment. -/
theorem takeTurn_next_of_block_eq {s s' t : State} {e : Event} (hb : s.toBlock = s'.toBlock)
    (h : takeTurn e s = .next t) : ∃ t', takeTurn e s' = .next t' ∧ t.toBlock = t'.toBlock := by
  have hturn := (State.onBlock_eq_next.1 h).1
  rw [hb] at hturn
  exact ⟨{ s'.heard e with toBlock := t.toBlock }, by rw [takeTurn, hturn]; rfl, rfl⟩

theorem takeTurn_fault_of_block_eq {s s' : State} {e : Event} {r : Fault} (hb : s.toBlock = s'.toBlock)
    (h : takeTurn e s = .fault r) : takeTurn e s' = .fault r := by
  have hturn := State.onBlock_eq_fault.1 h
  rw [hb] at hturn
  exact State.onBlock_eq_fault.2 hturn

/-- Settles O60: a step is the turn of the block at the next event, and the environment beside it is only heard. -/
theorem blockDependsOnItselfAndTheEventAlone : Obligations.BlockDependsOnItselfAndTheEventAlone := by
  refine ⟨fun s e rest h => step_of_cons h, fun s h => step_of_nil h, exec_eq_command, fun e s => ?_, fun s s' e hb => ?_⟩
  · exact ⟨State.heard_toBlock e s, State.heard_sched e s⟩
  · exact ⟨fun t => takeTurn_next_of_block_eq hb, fun r => takeTurn_fault_of_block_eq hb⟩

end Sys2Proof.Machine
end

section
/-! The registers and the buffer reads as the host sees them (10_state.md R21 to R33, R45). -/

namespace Sys2Proof.Machine

/-! ### Accesses of a register -/

section

variable {cap : Nat} {a : Offset}

theorem windowOf_reg (ha : a.toNat < 0x1000) : windowOf a = .reg := if_pos ha

/-- A 4-aligned access of 32 bits in the register window is legal (20_memory.md R55). -/
theorem legalAccess_reg (ha : a.toNat < 0x1000) (h4 : a.toNat % 4 = 0) {x : Access} (hx : x.size = .word) :
    legalAccess cap ⟨a, x⟩ = true := by
  simp [legalAccess, windowOf_reg ha, hx, h4]

theorem readValue_reg (ha : a.toNat < 0x1000) (s : State) :
    readValue cap s a .word = .word (readReg cap s.toBlock (regAt a.toNat)) := by
  simp [readValue, Block.readAt, windowOf_reg ha]

/-- A legal register read answers the register's value and changes nothing of the block. -/
theorem hostAccess_readReg (ha : a.toNat < 0x1000) (h4 : a.toNat % 4 = 0) (s : State) :
    hostAccess cap ⟨a, .read .word⟩ s =
      { s with resp := some (.okayRead (.word (readReg cap s.toBlock (regAt a.toNat)))), draws := s.draws + 1 } := by
  rw [hostAccess_read s (legalAccess_reg ha h4 rfl), readValue_reg ha]

/-- A legal register write is the write of that register, answered OKAY. -/
theorem hostAccess_writeReg (ha : a.toNat < 0x1000) (h4 : a.toNat % 4 = 0) (s : State) (v : Word) :
    hostAccess cap ⟨a, .write (.word v)⟩ s =
      { s with toBlock := writeReg s.toBlock v (regAt a.toNat), resp := some .okay } := by
  rw [hostAccess_write s (legalAccess_reg ha h4 rfl)]
  simp [writeValue, windowOf_reg ha]

/-- The offsets past the last register are RESERVED (10_state.md R33). -/
theorem regAt_reserved {n : Nat} (h : 0x020 ≤ n) : regAt n = .reserved := by
  unfold regAt
  split
  case h_9 => rfl
  all_goals omega

end

/-- Settles O35: STATUS is a register, and its write is the write-1-to-clear. -/
theorem statusWriteClearsDoneAndOvrOnly : Obligations.StatusWriteClearsDoneAndOvrOnly :=
  fun s v => hostAccess_writeReg (by decide) (by decide) s v

/-- The bits of STATUS, field by field from bit 0 up (10_state.md R22). -/
theorem Block.getLsbD_statusWord (s : Block) (k : Nat) :
    s.statusWord.getLsbD k =
      if k = 0 then s.busy
      else if k = 1 then s.done
      else if k = 2 then s.ovr
      else if k < 4 then false
      else s.err.getLsbD (k - 4) := by
  show BitVec.getLsbD (w := 24 + 4 + 1 + 1 + 1 + 1)
    (0#24 ++ s.err ++ 0#1 ++ BitVec.ofBool s.ovr ++ BitVec.ofBool s.done ++ BitVec.ofBool s.busy) k = _
  simp only [BitVec.getLsbD_append]
  have herr : ∀ k, (decide (k < 4) && s.err.getLsbD k) = s.err.getLsbD k := by
    simpa using fun k => BitVec.lt_of_getLsbD
  rcases k with _ | _ | _ | _ | k <;> simp [herr]

/-- Settles O36: STATUS reads as its word, whose fields stand at their bits. -/
theorem statusReadShowsItsFields : Obligations.StatusReadShowsItsFields := by
  intro s
  refine ⟨hostAccess_readReg (by decide) (by decide) s, ?_, ?_, ?_, ?_, ?_, ?_⟩
  · rw [Block.getLsbD_statusWord, if_pos rfl, Block.busy_iff]
  · exact Block.getLsbD_statusWord _ 1
  · exact Block.getLsbD_statusWord _ 2
  · exact Block.getLsbD_statusWord _ 3
  · ext k hk
    rw [BitVec.getElem_extractLsb', Block.getLsbD_statusWord, if_neg (by omega), if_neg (by omega), if_neg (by omega),
      if_neg (by omega), Nat.add_sub_cancel_left, BitVec.getLsbD_eq_getElem]
  · ext k hk
    rw [BitVec.getElem_extractLsb', Block.getLsbD_statusWord, if_neg (by omega), if_neg (by omega), if_neg (by omega),
      if_neg (by omega), BitVec.getLsbD_of_ge _ _ (by omega), BitVec.getElem_zero]

/-- Settles O37: each of the three registers is written and read whole. -/
theorem configurationRegistersReadBack : Obligations.ConfigurationRegistersReadBack := by
  intro s v
  exact ⟨hostAccess_writeReg (by decide) (by decide) s v, hostAccess_writeReg (by decide) (by decide) s v,
    hostAccess_writeReg (by decide) (by decide) s v, readValue_reg (by decide) s, readValue_reg (by decide) s,
    readValue_reg (by decide) s⟩

/-- Settles O38: the writes are those of registers that ignore them, and MAX_PIXELS is below 2^32. -/
theorem readOnlyRegistersIgnoreWrites : Obligations.ReadOnlyRegistersIgnoreWrites := by
  intro s v
  refine ⟨hostAccess_writeReg (by decide) (by decide) s v, hostAccess_writeReg (by decide) (by decide) s v,
    readValue_reg (by decide) s, readValue_reg (by decide) s, _, readValue_reg (by decide) s, ?_⟩
  have hmax := Config.maxPixels_le
  show (BitVec.ofNat 32 Config.maxPixels).toNat = Config.maxPixels
  rw [BitVec.toNat_ofNat, Nat.mod_eq_of_lt (by omega)]

/-- Settles O39: past the last register every offset is RESERVED. -/
theorem reservedRegistersReadZero : Obligations.ReservedRegistersReadZero := by
  intro s a v h1 h2 h4
  rw [hostAccess_readReg (by omega) h4, hostAccess_writeReg (by omega) h4, regAt_reserved h1]
  exact ⟨rfl, rfl⟩

/-- IRQ_EN reads as DONE_IE alone (10_state.md R24). -/
theorem Block.irqEnWord_eq (s : Block) : s.irqEnWord = if s.doneIe = true then 1#32 else 0#32 := by
  unfold Block.irqEnWord
  cases s.doneIe <;> rfl

/-- Settles O40: the write stores bit 0, which the interrupt output and the read take from there. -/
theorem irqEnableStoresBitZero : Obligations.IrqEnableStoresBitZero := by
  intro s v
  have hw : hostAccess Config.maxPixels ⟨0x008#26, .write (.word v)⟩ s =
      { s with doneIe := v.getLsbD 0, resp := some .okay } := hostAccess_writeReg (by decide) (by decide) s v
  refine ⟨hw, by rw [hw]; rfl, ?_⟩
  rw [← Block.irqEnWord_eq]
  exact readValue_reg (by decide) s

/-! ### Buffer reads -/

section

variable {s : State} {w : Window} {n : Nat}

/-- A written byte is read exactly, MONO and OUT while idle. -/
theorem hostByte_of_written (hw : s.phase = .idle ∨ (w ≠ .mono ∧ w ≠ .out)) {b : Byte}
    (h : Memory.read? (bufferOf s.toBlock w) n = some b) : hostByte s w n = b := by
  have hfree : (s.busy && (w == .mono || w == .out)) = false := by
    rcases hw with hw | ⟨h1, h2⟩
    · simp [(Block.busy_eq_false_iff _).2 hw]
    · simp [h1, h2]
  simp [hostByte, Block.readByte, hfree, h]

/-- An unwritten byte is a free value. -/
theorem hostByte_of_unwritten (h : Memory.read? (bufferOf s.toBlock w) n = none) :
    hostByte s w n = Config.freeByte s.draws (w.base + n) := by
  simp [hostByte, Block.readByte, h]

/-- A byte of MONO or OUT read while busy is a free value (20_memory.md R63). -/
theorem hostByte_of_busy (hw : w = .mono ∨ w = .out) (h : s.phase = .run) :
    hostByte s w n = Config.freeByte s.draws (w.base + n) := by
  have hb := (Block.busy_iff s.toBlock).2 h
  rcases hw with rfl | rfl <;> simp [hostByte, Block.readByte, hb]

end

/-- A legal read of an output window is answered with the bytes that the host reads there. -/
theorem readValue_mono (s : State) {n : Nat} (hn : n < 2 ^ 24) (sz : Size) :
    readValue Config.maxPixels s (BitVec.ofNat 26 (0x2000000 + n)) sz =
      Data.ofBytes sz (fun k => hostByte s .mono (n + k)) := by
  obtain ⟨hw, ha⟩ := windowOf_mono hn
  simp [readValue, Block.readAt, hw, ha, Block.readBuffer, hostByte, Window.base]

theorem readValue_out (s : State) {n : Nat} (hn : n < 2 ^ 21) (sz : Size) :
    readValue Config.maxPixels s (BitVec.ofNat 26 (0x3000000 + n)) sz =
      Data.ofBytes sz (fun k => hostByte s .out (n + k)) := by
  obtain ⟨hw, ha⟩ := windowOf_out hn
  simp [readValue, Block.readAt, hw, ha, Block.readBuffer, hostByte, Window.base]

/-- Settles O45: the bytes by whether they are written and whether a command runs, the bus reads from the bytes. -/
theorem outputReadsAreExactOnlyWhenIdle : Obligations.OutputReadsAreExactOnlyWhenIdle := by
  intro s n
  refine ⟨fun hi b => hostByte_of_written (w := .mono) (.inl hi), fun hi b => hostByte_of_written (w := .out) (.inl hi),
    fun b => hostByte_of_written (w := .inBuf) (.inr ⟨by decide, by decide⟩), fun h => ?_, fun h => ?_,
    hostByte_of_unwritten (w := .inBuf), fun sz h0 => ⟨fun hn => ?_, fun hn => ?_⟩⟩
  · exact h.elim (hostByte_of_busy (.inl rfl)) (hostByte_of_unwritten (w := .mono))
  · exact h.elim (hostByte_of_busy (.inr rfl)) (hostByte_of_unwritten (w := .out))
  · have hmax := Config.maxPixels_le
    have hpos := sz.bytes_pos
    rw [hostAccess_read s (legalAccess_mono h0 hn), readValue_mono s (by omega)]
  · have hmax := Config.outSize_le
    have hpos := sz.bytes_pos
    rw [hostAccess_read s (legalAccess_out h0 hn), readValue_out s (by omega)]

end Sys2Proof.Machine
end

section
/-! What the four commands leave unchanged, and what the results of PACK and DITHER_PACK depend on (10_state.md R32, R42). -/

namespace Sys2Proof.Machine

/-! ### The frames of the scan and of the packer -/

/-- `(W / 8) * H` as the packer counts it. -/
theorem toNat_div_mul {w h : Int} (hw : 0 < w) : w.toNat / 8 * h.toNat = (w / 8 * h).toNat := by
  obtain ⟨a, rfl⟩ := Int.eq_ofNat_of_zero_le hw.le
  rcases le_total 0 h with hh | hh
  · obtain ⟨b, rfl⟩ := Int.eq_ofNat_of_zero_le hh
    norm_cast
  · rw [Int.toNat_of_nonpos hh, Int.toNat_of_nonpos (mul_nonpos_of_nonneg_of_nonpos (by omega) hh), Nat.mul_zero]

section

variable {s t : Block}

/-- The dither scan changes MONO alone, and only in `[0, N)`. -/
theorem Block.ditherScan_frame (hw : 0 < s.imgW) (h : s.ditherScan = some t) :
    ∃ m, t = { s with monoBuf := m } ∧ ∀ n, s.pixels ≤ n → Memory.read? m n = Memory.read? s.monoBuf n := by
  obtain ⟨bs, hbs, rfl⟩ := Block.ditherScan_eq_some h
  obtain ⟨hlen, -⟩ := (readRun_eq_some_iff _ _ _ _).1 hbs
  refine ⟨_, rfl, fun n hn => ?_⟩
  obtain ⟨-, -, -, hvisits⟩ := visits_spec Config.freeMono (visitOrder s.imgW s.imgH)
    (Memory.writeRun s.monoBuf 0 bs) fun p hp => inBounds_of_mem_visitOrder hw hp
  rw [hvisits n hn, Memory.read?_writeRun, if_neg (by omega)]

/-- Packing an image changes OUT alone, and only in `[0, (W / 8) * H)`. -/
theorem Block.packAll_frame (hw : 0 < s.imgW) {op : Op} (h : s.packAll op = some t) :
    ∃ m, t = { s with outBuf := m } ∧ ∀ n, s.packedLen ≤ n → Memory.read? m n = Memory.read? s.outBuf n := by
  obtain ⟨m, hm, rfl⟩ := Block.packWith_eq_some h
  obtain ⟨-, -, hframe⟩ := packGroups_spec _ _ (fun p hp => mem_groupOrder hp) hm
  exact ⟨m, rfl, fun n hn => hframe n (by rw [toNat_div_mul hw]; exact hn)⟩

/-- What a command that completed from an accepted block `a` left in MONO and OUT: nothing outside the image, OUT whole
by DITHER, MONO whole by PACK; ILLEGAL completes never. -/
structure Block.CompletionFrame (i : Instr) (a : Block) (mono out : Memory) : Prop where
  monoBeyond : ∀ n, a.pixels ≤ n → Memory.read? mono n = Memory.read? a.monoBuf n
  outBeyond : ∀ n, a.packedLen ≤ n → Memory.read? out n = Memory.read? a.outBuf n
  outOfDither : i = .dither → out = a.outBuf
  monoOfPack : i = .pack → mono = a.monoBuf
  legal : ∀ w, i ≠ .illegal w

/-- Everything a command can leave in an idle block: its error, with the buffers as they were, or its completion, with
their frame. -/
theorem Block.command_idle_cases {i : Instr} (hb : s.busy = false) (h : s.command i = .next t) :
    (∃ e, t = (s.accept (Op.of i)).raiseError e) ∨
    ∃ mono out len, (s.accept (Op.of i)).CompletionFrame i mono out ∧
      t = (Block.enter { s.accept (Op.of i) with monoBuf := mono, outBuf := out } .finish).complete len := by
  cases i <;> simp only [Block.command, Block.commandDither, Block.commandPack, Block.commandDitherPack,
    Block.commandIllegal, hb] at h
  case dither =>
    rcases runDither_next h with ⟨e, -, rfl⟩ | ⟨hv, u, hu, rfl⟩
    · exact .inl ⟨e, rfl⟩
    · obtain ⟨hw, -⟩ := (validateDither_eq_none_iff _ _ _ _).1 hv
      obtain ⟨m, rfl, hm⟩ := Block.ditherScan_frame hw hu
      exact .inr ⟨m, s.outBuf, _, ⟨hm, fun _ _ => rfl, fun _ => rfl, nofun, nofun⟩, rfl⟩
  case pack =>
    rcases runPack_next h with ⟨e, -, rfl⟩ | ⟨hv, u, hu, rfl⟩
    · exact .inl ⟨e, rfl⟩
    · obtain ⟨hw, -⟩ := (validatePack_eq_none_iff _ _ _ _).1 hv
      obtain ⟨m, rfl, hm⟩ := Block.packAll_frame hw hu
      exact .inr ⟨s.monoBuf, m, _, ⟨fun _ _ => rfl, hm, nofun, fun _ => rfl, nofun⟩, rfl⟩
  case ditherPack =>
    rcases runDitherPack_next h with ⟨e, -, rfl⟩ | ⟨hv, u, v, hu, hv', rfl⟩
    · exact .inl ⟨e, rfl⟩
    · obtain ⟨hw, -⟩ := (validatePack_eq_none_iff _ _ _ _).1 hv
      obtain ⟨mono, rfl, hmono⟩ := Block.ditherScan_frame hw hu
      obtain ⟨out, rfl, hout⟩ := Block.packAll_frame (s := { s.accept .ditherPack with monoBuf := mono }) hw hv'
      exact .inr ⟨mono, out, _, ⟨hmono, hout, nofun, nofun, nofun⟩, rfl⟩
  case illegal w => exact .inl ⟨_, (Host.Outcome.next.inj h).symm⟩

/-- A command keeps the host's side of the block, busy or idle. -/
theorem Block.command_keepsHostSide {i : Instr} (h : s.command i = .next t) : s.KeepsHostSide t := by
  cases hb : s.busy with
  | true =>
    rw [Block.command_of_busy i hb] at h
    cases h
    exact ⟨rfl, rfl, rfl, rfl, rfl, rfl⟩
  | false => exact (Block.command_ends hb h).1

end

/-- Settles O19: a command while busy is dropped; while idle it ends with an error and whole buffers, or completes with
the frame of its scan and its packing. -/
theorem commandFrame : Obligations.CommandFrame := by
  intro i s t h
  obtain ⟨hc, henv⟩ := exec_eq_next h
  refine ⟨⟨Block.command_keepsHostSide hc, ?_⟩, fun hrun => ?_, fun hidle => ?_⟩
  · rw [henv]
    exact ⟨rfl, rfl, rfl⟩
  · rw [Block.command_of_busy i ((Block.busy_iff _).2 hrun)] at hc
    rw [henv, ← Host.Outcome.next.inj hc]
    rfl
  · have hb := (Block.busy_eq_false_iff s.toBlock).2 hidle
    refine ⟨(Block.command_ends hb hc).2.1, ?_⟩
    rcases Block.command_idle_cases hb hc with ⟨e, ht⟩ | ⟨mono, out, len, hf, ht⟩ <;> rw [ht]
    · exact ⟨fun _ => ⟨rfl, rfl⟩, fun _ _ => rfl, fun _ _ => rfl, fun _ => rfl, fun _ => rfl, fun _ _ => ⟨rfl, rfl⟩⟩
    · exact ⟨fun herr => absurd rfl herr, hf.monoBeyond, hf.outBeyond, hf.outOfDither, hf.monoOfPack,
        fun w hw => absurd hw (hf.legal w)⟩

/-! ### Scanning and packing inputs that read alike -/

/-- Runs of reads that read alike are equal. -/
theorem readRun_congr {src src' : Nat → Option Byte} {n len : Nat} (h : ∀ k, k < len → src (n + k) = src' (n + k)) :
    readRun src n len = readRun src' n len := by
  ext bs
  rw [readRun_eq_some_iff, readRun_eq_some_iff]
  exact and_congr_right fun _ => forall₂_congr fun k hk => by rw [h k hk]

theorem Memory.agree_write {m m' : Memory} {N : Nat} (h : m.agree m' N) (n : Nat) (v : Byte) :
    (Memory.write m n v).agree (Memory.write m' n v) N := by
  intro k hk
  rw [Memory.read?_write, Memory.read?_write, h k hk]

theorem Memory.readOr_agree {m m' : Memory} {N n : Nat} (h : m.agree m' N) (hn : n < N) (fill : Nat → Byte) :
    Memory.readOr fill m n = Memory.readOr fill m' n := by
  rw [Memory.readOr, Memory.readOr, h n hn]

section

variable {fill : Nat → Byte} {w h : Int} {m m' : Memory}

theorem diffuse_agree (ha : m.agree m' (w * h).toNat) (err : Int) (t : Int × Int × Int) :
    (diffuse fill w h err m t).agree (diffuse fill w h err m' t) (w * h).toNat := by
  intro n hn
  rw [read?_diffuse, read?_diffuse, Memory.readOr_agree ha hn, ha n hn]

theorem foldl_diffuse_agree (err : Int) (ts : List (Int × Int × Int)) (ha : m.agree m' (w * h).toNat) :
    (ts.foldl (diffuse fill w h err) m).agree (ts.foldl (diffuse fill w h err) m') (w * h).toNat := by
  induction ts generalizing m m' with
  | nil => exact ha
  | cons t ts ih => exact ih (diffuse_agree ha err t)

/-- A visit inside the image reads and writes in `[0, N)` alone. -/
theorem visit_agree (ha : m.agree m' (w * h).toNat) {p : Int × Nat} (hp : inBounds w h p.1 p.2 = true) :
    (visit fill w h m p).agree (visit fill w h m' p) (w * h).toNat := by
  have hold := Memory.readOr_agree ha (idx_lt hp) fill
  simp only [visit, hold]
  exact foldl_diffuse_agree _ _ (Memory.agree_write ha _ _)

theorem visits_agree (ps : List (Int × Nat)) (hps : ∀ p ∈ ps, inBounds w h p.1 p.2 = true)
    (ha : m.agree m' (w * h).toNat) :
    (ps.foldl (visit fill w h) m).agree (ps.foldl (visit fill w h) m') (w * h).toNat := by
  induction ps generalizing m m' with
  | nil => exact ha
  | cons p ps ih =>
    exact ih (fun q hq => hps q (List.mem_cons_of_mem _ hq)) (visit_agree ha (hps p (by simp)))

end

/-- Packing from sources that read alike gives nothing from both, or memories that read alike at every byte packed and
wherever they did before. -/
theorem packGroups_congr {src src' : Nat → Option Byte} {w : Nat} (ps : List (Nat × Nat)) (out out' : Memory)
    (hsrc : ∀ p ∈ ps, ∀ k, k < 8 → src (p.1 * w + 8 * p.2 + k) = src' (p.1 * w + 8 * p.2 + k)) :
    (packGroups src w ps out = none ∧ packGroups src' w ps out' = none) ∨
    ∃ m m', packGroups src w ps out = some m ∧ packGroups src' w ps out' = some m' ∧
      ∀ n, (Memory.read? out n = Memory.read? out' n ∨ ∃ p ∈ ps, n = p.1 * (w / 8) + p.2) →
        Memory.read? m n = Memory.read? m' n := by
  induction ps generalizing out out' with
  | nil => exact .inr ⟨out, out', rfl, rfl, fun n hn => hn.resolve_right (by simp)⟩
  | cons p ps ih =>
    have hrun := readRun_congr (hsrc p (by simp))
    simp only [packGroups, packGroup, ← hrun]
    cases readRun src (p.1 * w + 8 * p.2) 8 with
    | none => exact .inl ⟨rfl, rfl⟩
    | some bs =>
      refine (ih _ _ fun q hq => hsrc q (List.mem_cons_of_mem _ hq)).imp_right fun ⟨m, m', hm, hm', hread⟩ => ?_
      refine ⟨m, m', hm, hm', fun n hn => hread n ?_⟩
      rw [Memory.read?_write, Memory.read?_write]
      rcases hn with hn | ⟨q, hq, rfl⟩
      · exact .inl (by rw [hn])
      · rcases List.mem_cons.1 hq with rfl | hq
        · exact .inl (by simp)
        · exact .inr ⟨q, hq, rfl⟩

/-- Every group inside an image is one of its groups. -/
theorem mem_groupOrder_of_lt {w h i g : Nat} (hi : i < h) (hg : g < w / 8) : (i, g) ∈ groupOrder w h := by
  have hrows : ∀ n i₀, i₀ ≤ i → i < i₀ + n → (i, g) ∈ rowsGroups w i₀ n := by
    intro n
    induction n with
    | zero => omega
    | succ n ih =>
      intro i₀ h0 hn
      rw [rowsGroups, List.mem_append]
      rcases Nat.eq_or_lt_of_le h0 with rfl | h0
      · exact .inl (by simp [rowGroups, List.mem_range'_1, hg])
      · exact .inr (ih _ h0 (by omega))
  exact hrows h 0 (by omega) (by omega)

/-- Every byte below `(W / 8) * H` is that of a group of the image. -/
theorem exists_group_of_lt {w h n : Nat} (hn : n < w / 8 * h) : ∃ p ∈ groupOrder w h, n = p.1 * (w / 8) + p.2 := by
  have hpos : 0 < w / 8 := Nat.pos_of_mul_pos_right (Nat.zero_lt_of_lt hn)
  refine ⟨(n / (w / 8), n % (w / 8)), mem_groupOrder_of_lt ?_ (Nat.mod_lt _ hpos), (Nat.div_add_mod' n _).symm⟩
  exact Nat.div_lt_of_lt_mul hn

/-- Two accepted blocks of one command's input: equal latched operands, and equal IN bytes in `[0, N)`. -/
structure Block.SameInput (s s' : Block) : Prop where
  latW : s.latW = s'.latW
  latH : s.latH = s'.latH
  latLen : s.latLen = s'.latLen
  input : s.inBuf.agree s'.inBuf s.pixels

section

variable {s s' : Block} (h : s.SameInput s')

include h

theorem Block.SameInput.imgW : s'.imgW = s.imgW := by rw [Block.imgW, Block.imgW, h.latW]

theorem Block.SameInput.imgH : s'.imgH = s.imgH := by rw [Block.imgH, Block.imgH, h.latH]

theorem Block.SameInput.imgLen : s'.imgLen = s.imgLen := by rw [Block.imgLen, Block.imgLen, h.latLen]

theorem Block.SameInput.pixels : s'.pixels = s.pixels := by rw [Block.pixels, Block.pixels, h.imgW, h.imgH]

theorem Block.SameInput.packedLen : s'.packedLen = s.packedLen := by
  rw [Block.packedLen, Block.packedLen, h.imgW, h.imgH]

/-- The dither scans of one input give nothing both, or MONO bytes that are equal in `[0, N)`. -/
theorem Block.SameInput.ditherScan (hw : 0 < s.imgW) :
    (s.ditherScan = none ∧ s'.ditherScan = none) ∨
    ∃ m m', s.ditherScan = some { s with monoBuf := m } ∧ s'.ditherScan = some { s' with monoBuf := m' } ∧
      m.agree m' s.pixels := by
  have hrun : readRun (Memory.read? s'.inBuf) 0 s.pixels = readRun (Memory.read? s.inBuf) 0 s.pixels :=
    readRun_congr fun k hk => (h.input _ (by omega)).symm
  unfold Block.ditherScan Block.copyIn
  rw [h.pixels, hrun]
  cases hbs : readRun (Memory.read? s.inBuf) 0 s.pixels with
  | none => exact .inl ⟨rfl, rfl⟩
  | some bs =>
    obtain ⟨hlen, -⟩ := (readRun_eq_some_iff _ _ _ _).1 hbs
    refine .inr ⟨_, _, rfl, rfl, ?_⟩
    show Memory.agree _ ((visitOrder s'.imgW s'.imgH).foldl (visit Config.freeMono s'.imgW s'.imgH) _) _
    rw [h.imgW, h.imgH]
    refine visits_agree _ (fun p hp => inBounds_of_mem_visitOrder hw hp) fun k hk => ?_
    have hk : k < s.pixels := hk
    rw [Memory.read?_writeRun, Memory.read?_writeRun, if_pos (by omega), if_pos (by omega)]

/-- Packing one image from sources equal in `[0, N)` gives nothing from both, or OUT bytes that are equal in
`[0, (W / 8) * H)`. -/
theorem Block.SameInput.packAll (hw : 0 < s.imgW) (hh : 0 < s.imgH) (op : Op)
    (hsrc : ∀ n, n < s.pixels → s.packSrc op n = s'.packSrc op n) :
    (s.packAll op = none ∧ s'.packAll op = none) ∨
    ∃ m m', s.packAll op = some { s with outBuf := m } ∧ s'.packAll op = some { s' with outBuf := m' } ∧
      m.agree m' s.packedLen := by
  have hgroups : ∀ p ∈ groupOrder s.imgW.toNat s.imgH.toNat, ∀ k, k < 8 →
      s.packSrc op (p.1 * s.imgW.toNat + 8 * p.2 + k) = s'.packSrc op (p.1 * s.imgW.toNat + 8 * p.2 + k) := by
    intro p hp k hk
    obtain ⟨h1, h2⟩ := mem_groupOrder hp
    refine hsrc _ ?_
    rw [Block.pixels, ← toNat_mul_toNat hw hh]
    exact group_sample_lt h1 h2 hk
  unfold Block.packAll Block.packWith
  rw [h.imgW, h.imgH]
  rcases packGroups_congr _ s.outBuf s'.outBuf hgroups with ⟨hn, hn'⟩ | ⟨m, m', hm, hm', hread⟩
  · exact .inl (by rw [hn, hn']; exact ⟨rfl, rfl⟩)
  · refine .inr ⟨m, m', by rw [hm], by rw [hm'], fun n hn => hread n (.inr (exists_group_of_lt ?_))⟩
    rwa [toNat_div_mul hw]

end

/-! ### Outcomes that are alike -/

/-- Two outcomes of one kind, with next blocks related by `R`. -/
def SameOutcome (R : Block → Block → Prop) : (o o' : Host.Outcome Block Fault Refusal) → Prop
  | .next t, .next t' => R t t'
  | .fault r, .fault r' => r = r'
  | .refused r, .refused r' => r = r'
  | _, _ => False

/-- Two blocks that hold one result of a packing command accepted at `a`: ERR, OUT_LEN and, after a success, the bytes
written to OUT and those that DITHER_PACK wrote to MONO. -/
def Block.SameResult (i : Instr) (a t t' : Block) : Prop :=
  t.err = t'.err ∧ t.outLen = t'.outLen ∧
    (t.err = 0#4 → t.outBuf.agree t'.outBuf a.packedLen ∧ (i = .ditherPack → t.monoBuf.agree t'.monoBuf a.pixels))

section

variable {cap : Nat} {s s' : Block} {i : Instr}

/-- One error is one result: no error has the code of success. -/
theorem Block.sameResult_raiseError (e : CommandError) :
    s.SameResult i (s.raiseError e) (s'.raiseError e) :=
  ⟨rfl, rfl, fun herr => by cases e <;> simp [CommandError.code] at herr⟩

/-- Completions of one length that agree in the bytes of the image are one result. -/
theorem Block.sameResult_complete {u u' : Block} {len len' : Nat} (hlen : len = len')
    (hout : u.outBuf.agree u'.outBuf s.packedLen) (hmono : i = .ditherPack → u.monoBuf.agree u'.monoBuf s.pixels) :
    s.SameResult i ((u.enter .finish).complete len) ((u'.enter .finish).complete len') := by
  subst hlen
  exact ⟨rfl, rfl, fun _ => ⟨hout, hmono⟩⟩

theorem runPack_sameOutcome (h : s.SameInput s') :
    SameOutcome (s.SameResult .pack) (runPack cap s) (runPack cap s') := by
  unfold runPack
  rw [h.imgW, h.imgH, h.imgLen]
  cases hv : validatePack cap s.imgW s.imgH s.imgLen with
  | some e => exact Block.sameResult_raiseError e
  | none =>
    obtain ⟨hw, hh, -⟩ := (validatePack_eq_none_iff _ _ _ _).1 hv
    rcases h.packAll hw hh .pack h.input with ⟨hn, hn'⟩ | ⟨m, m', hm, hm', ha⟩
    · rw [hn, hn']
      exact rfl
    · rw [hm, hm']
      exact Block.sameResult_complete h.packedLen.symm ha nofun

theorem runDitherPack_sameOutcome (h : s.SameInput s') :
    SameOutcome (s.SameResult .ditherPack) (runDitherPack cap s) (runDitherPack cap s') := by
  unfold runDitherPack
  rw [h.imgW, h.imgH, h.imgLen]
  cases hv : validatePack cap s.imgW s.imgH s.imgLen with
  | some e => exact Block.sameResult_raiseError e
  | none =>
    obtain ⟨hw, hh, -⟩ := (validatePack_eq_none_iff _ _ _ _).1 hv
    rcases h.ditherScan hw with ⟨hn, hn'⟩ | ⟨m, m', hm, hm', hmono⟩
    · rw [hn, hn']
      exact rfl
    · rw [hm, hm']
      have hu : Block.SameInput { s with monoBuf := m } { s' with monoBuf := m' } := ⟨h.latW, h.latH, h.latLen, h.input⟩
      have hsrc : ∀ n, n < s.pixels → Block.packSrc { s with monoBuf := m } .ditherPack n =
          Block.packSrc { s' with monoBuf := m' } .ditherPack n :=
        fun n hn => congrArg some (Memory.readOr_agree hmono hn _)
      rcases hu.packAll hw hh .ditherPack hsrc with ⟨hn, hn'⟩ | ⟨out, out', hout, hout', ha⟩
      · simp only [hn, hn']
        exact rfl
      · simp only [hout, hout']
        exact Block.sameResult_complete h.packedLen.symm ha fun _ => hmono

/-- Packing commands accepted on one input have one outcome. -/
theorem Block.command_sameOutcome (hi : i = .pack ∨ i = .ditherPack) (hb : s.busy = false) (hb' : s'.busy = false)
    (h : (s.accept (Op.of i)).SameInput (s'.accept (Op.of i))) :
    SameOutcome ((s.accept (Op.of i)).SameResult i) (s.command i) (s'.command i) := by
  rcases hi with rfl | rfl
  · simp only [Block.command, Block.commandPack, hb, hb']
    exact runPack_sameOutcome h
  · simp only [Block.command, Block.commandDitherPack, hb, hb']
    exact runDitherPack_sameOutcome h

end

/-- Settles O29: the packer's groups and the scan's visits read the input bytes of the image alone, so accepted blocks of
one input have one outcome. -/
theorem packDependsOnItsInputOnly : Obligations.PackDependsOnItsInputOnly := by
  intro i s s' hi hidle hidle' hwidth hheight hlen hin
  have hsame := Block.command_sameOutcome hi ((Block.busy_eq_false_iff _).2 hidle)
    ((Block.busy_eq_false_iff _).2 hidle') ⟨hwidth, hheight, hlen, hin⟩
  rw [exec_eq_command i s']
  refine ⟨fun t ht => ?_, fun hf => ?_⟩
  · rw [(exec_eq_next ht).1] at hsame
    cases hc' : s'.toBlock.command i with
    | next t' => rw [hc'] at hsame; exact ⟨_, rfl, hsame⟩
    | fault r => rw [hc'] at hsame; exact hsame.elim
    | refused r => rw [hc'] at hsame; exact hsame.elim
  · rw [exec_eq_command] at hf
    rw [State.onBlock_eq_fault.1 hf] at hsame
    cases hc' : s'.toBlock.command i with
    | next t' => rw [hc'] at hsame; exact hsame.elim
    | fault r => rw [hc'] at hsame; rw [← show Fault.uninitInput = r from hsame]; rfl
    | refused r => rw [hc'] at hsame; exact hsame.elim

end Sys2Proof.Machine
end

section
/-! The bus as the host sees it, and where a command meets an unwritten input byte (20_memory.md). -/

namespace Sys2Proof.Machine

/-! ### Bus errors and reads -/

/-- What the port asks of a transaction that it performs (20_memory.md R55, R56, R58, R59). -/
theorem legalAccess_rules {cap : Nat} {t : Transaction} (h : legalAccess cap t = true) :
    windowOf t.addr ≠ .unmapped ∧
    (windowOf t.addr = .reg → t.access.size = .word ∧ t.addr.toNat % 4 = 0) ∧
    (windowOf t.addr ≠ .reg → t.addr.toNat % t.access.size.bytes = 0 ∧
      t.addr.toNat - (windowOf t.addr).base + t.access.size.bytes ≤ (windowOf t.addr).backed cap) ∧
    ∀ d, t.access = .write d → windowOf t.addr = .reg ∨ windowOf t.addr = .inBuf := by
  unfold legalAccess at h
  cases hw : windowOf t.addr <;> simp only [hw] at h
  case reg => simpa using h
  case unmapped => cases h
  all_goals
    obtain ⟨hb, hd⟩ := Bool.and_eq_true_iff.1 h
    refine ⟨nofun, nofun, fun _ => of_decide_eq_true hb, fun d hx => ?_⟩
    simp [hx] at hd ⊢

/-- Settles O43: each of the conditions breaks a rule that every performed transaction meets. -/
theorem busErrorChangesNothing : Obligations.BusErrorChangesNothing := by
  intro cap s t herr
  refine hostAccess_of_illegal s (Bool.eq_false_iff.2 fun hl => ?_)
  obtain ⟨hmap, hreg, hbuf, hwrite⟩ := legalAccess_rules hl
  rcases herr with ⟨hw, hbad⟩ | ⟨hw, hbad⟩ | ⟨hw, d, hd⟩ | hw
  · obtain ⟨hsize, halign⟩ := hreg hw
    exact hbad.elim (· hsize) (· halign)
  · obtain ⟨halign, hbacked⟩ := hbuf (by rcases hw with hw | hw | hw <;> simp [hw])
    exact hbad.elim (· halign) (not_lt.2 hbacked)
  · rcases hw with hw | hw <;> simpa [hw] using hwrite d hd
  · exact hmap hw

/-- Settles O42: a read is a bus error or is answered with its value, and neither touches the block. -/
theorem readsHaveNoSideEffect : Obligations.ReadsHaveNoSideEffect := by
  intro s a sz
  cases hl : legalAccess Config.maxPixels ⟨a, .read sz⟩ with
  | false => exact ⟨_, s.draws, hostAccess_of_illegal s hl⟩
  | true => exact ⟨_, _, hostAccess_read s hl⟩

/-! ### System addresses -/

theorem blockOffset?_inside (base : Nat) (a : Offset) : blockOffset? base (base + a.toNat) = some a := by
  have ha := a.isLt
  rw [blockOffset?, if_pos (by omega), Nat.add_sub_cancel_left, BitVec.ofNat_toNat, BitVec.setWidth_eq]

theorem blockOffset?_outside {base addr : Nat} (h : addr < base ∨ base + 2 ^ 26 ≤ addr) :
    blockOffset? base addr = none :=
  if_neg (by omega)

/-- Settles O47: inside the block's 2^26 bytes a system address is an offset, outside it is none. -/
theorem systemAddressesReachTheBlock : Obligations.SystemAddressesReachTheBlock := by
  refine ⟨Config.base_mod, fun s addr x => ⟨fun a => ?_, fun hout => ?_⟩⟩
  · simp [systemAccess, blockOffset?_inside]
  · simp [systemAccess, blockOffset?_outside hout]

/-! ### Writes to IN -/

theorem writeIn_of_idle {s : Block} (h : s.busy = false) (n : Nat) (d : Data) :
    writeIn s n d = { s with inBuf := Memory.writeRun s.inBuf n d.bytes } := by
  simp [writeIn, h]

theorem writeIn_of_busy {s : Block} (h : s.busy = true) (n : Nat) (d : Data) :
    writeIn s n d =
      { s with
        inBuf := Memory.writeRun s.inBuf n d.bytes
        fault := some (s.fault.getD .hostMutatedInput) } := by
  simp [writeIn, h, Block.recordFault]

/-- An aligned, backed write at `IN+n` writes IN from index `n` on and is answered OKAY (20_memory.md R56, R57). -/
theorem hostAccess_writeIn {n : Nat} {d : Data} (s : State) (h0 : n % d.size.bytes = 0)
    (hn : n + d.size.bytes ≤ Config.maxPixels) :
    hostAccess Config.maxPixels ⟨BitVec.ofNat 26 (0x1000000 + n), .write d⟩ s =
      { s with toBlock := writeIn s.toBlock n d, resp := some .okay } := by
  have hmax := Config.maxPixels_le
  have hpos := d.size.bytes_pos
  obtain ⟨hw, ha⟩ := windowOf_in (n := n) (by omega)
  rw [hostAccess_write s (legalAccess_in h0 hn)]
  simp [writeValue, hw, ha, Window.base]

/-- Settles O46: while busy the write of IN lands and records the fault. -/
theorem inWriteWhileBusyIsRecorded : Obligations.InWriteWhileBusyIsRecorded := by
  intro s n d hrun h0 hn
  rw [hostAccess_writeIn s h0 hn, writeIn_of_busy ((Block.busy_iff _).2 hrun)]

/-! ### The bytes of a value -/

/-- A bus value as a number. -/
def Data.value : Data → Nat
  | .byte v => v.toNat
  | .half v => v.toNat
  | .word v => v.toNat

@[simp] theorem Data.size_ofBytes (sz : Size) (get : Nat → Byte) : (Data.ofBytes sz get).size = sz := by
  cases sz <;> rfl

/-- Byte `k` of a value is its bits from `8k` on (20_memory.md R57). -/
theorem Data.getElem?_bytes (d : Data) {k : Nat} (hk : k < d.size.bytes) :
    d.bytes[k]? = some (BitVec.ofNat 8 (d.value / 2 ^ (8 * k))) := by
  cases d with
  | byte v =>
    obtain rfl : k = 0 := Nat.lt_one_iff.1 hk
    simp [Data.bytes, Data.value]
  | half v =>
    change k < 2 at hk
    interval_cases k <;> simp [Data.bytes, Data.value, BitVec.extractLsb', Nat.shiftRight_eq_div_pow]
  | word v =>
    change k < 4 at hk
    interval_cases k <;> simp [Data.bytes, Data.value, BitVec.extractLsb', Nat.shiftRight_eq_div_pow]

theorem toNat_append_byte {w : Nat} (hi : BitVec w) (lo : Byte) : (hi ++ lo).toNat = hi.toNat * 256 + lo.toNat := by
  rw [BitVec.toNat_append, ← Nat.shiftLeft_add_eq_or_of_lt lo.isLt, Nat.shiftLeft_eq]

/-- A sum over a range, term by term: unfolding the fold itself would have the kernel unfold the powers in it. -/
theorem foldl_range_succ (f : Nat → Nat) (n : Nat) :
    (List.range (n + 1)).foldl (fun acc k => acc + f k) 0 = (List.range n).foldl (fun acc k => acc + f k) 0 + f n := by
  rw [List.range_succ, List.foldl_append, List.foldl_cons, List.foldl_nil]

/-- The value that is put together of bytes is their sum, byte `k` times `2 ^ (8 * k)` (20_memory.md R57). -/
theorem Data.value_ofBytes (sz : Size) (get : Nat → Byte) :
    (Data.ofBytes sz get).value =
      (List.range sz.bytes).foldl (fun acc k => acc + (get k).toNat * 2 ^ (8 * k)) 0 := by
  cases sz <;>
    simp only [Data.ofBytes, Data.value, toNat_append_byte, Size.bytes, foldl_range_succ, List.range_zero,
      List.foldl_nil] <;>
    omega

/-- A legal read at `IN+n` is answered with the bytes that the host reads there. -/
theorem readValue_in (s : State) {n : Nat} (hn : n < 2 ^ 24) (sz : Size) :
    readValue Config.maxPixels s (BitVec.ofNat 26 (0x1000000 + n)) sz =
      Data.ofBytes sz (fun k => hostByte s .inBuf (n + k)) := by
  obtain ⟨hw, ha⟩ := windowOf_in hn
  simp [readValue, Block.readAt, hw, ha, Block.readBuffer, hostByte, Window.base]

/-- Settles O44: a write stores the bytes of its value in a run, and a read puts together the bytes it covers. -/
theorem inAccessesAreLittleEndian : Obligations.InAccessesAreLittleEndian := by
  intro s n
  refine ⟨fun d h0 hn hidle => ?_, fun sz bs h0 hn hlen hbs => ?_⟩
  · refine ⟨Memory.writeRun s.inBuf n d.bytes, ?_, fun k hk => ⟨BitVec.ofNat 8 (d.value / 2 ^ (8 * k)), ?_, ?_⟩,
      fun k hk => ?_⟩
    · rw [hostAccess_writeIn s h0 hn, writeIn_of_idle ((Block.busy_eq_false_iff _).2 hidle)]
    · rw [Memory.read?_writeRun, Data.length_bytes, if_pos (by omega), Nat.add_sub_cancel_left, d.getElem?_bytes hk]
    · exact BitVec.toNat_ofNat _ _
    · rw [Memory.read?_writeRun, Data.length_bytes, if_neg (by omega)]
  · have hmax := Config.maxPixels_le
    have hpos := sz.bytes_pos
    have hbyte : ∀ k, k < sz.bytes → hostByte s .inBuf (n + k) = bs.getD k 0#8 := fun k hk => by
      have hk' : k < bs.length := hlen ▸ hk
      refine hostByte_of_written (w := .inBuf) (.inr ⟨by decide, by decide⟩) ((hbs k hk).trans ?_)
      simp [hk']
    refine ⟨Data.ofBytes sz (fun k => hostByte s .inBuf (n + k)), Data.size_ofBytes _ _, ?_,
      (Data.value_ofBytes _ _).trans (List.foldl_ext _ _ _ fun acc k hk => ?_)⟩
    · rw [hostAccess_read s (legalAccess_in h0 hn), readValue_in s (by omega)]
    · rw [hbyte k (List.mem_range.1 hk)]

/-! ### Unwritten input bytes -/

/-- Packing gives nothing exactly where a source byte of one of its groups has no value. -/
theorem packGroups_eq_none_iff {src : Nat → Option Byte} {w : Nat} {ps : List (Nat × Nat)} {m : Memory} :
    packGroups src w ps m = none ↔ ∃ p ∈ ps, ∃ k, k < 8 ∧ src (p.1 * w + 8 * p.2 + k) = none := by
  refine ⟨packGroups_eq_none, ?_⟩
  rintro ⟨p, hp, hk⟩
  induction ps generalizing m with
  | nil => cases hp
  | cons q ps ih =>
    rw [packGroups]
    rcases List.mem_cons.1 hp with rfl | hp
    · simp [packGroup, (readRun_eq_none_iff src _ 8).2 hk]
    · cases packGroup src w m q with
      | none => rfl
      | some out => exact ih hp

/-- Every index of an image of whole bytes is a sample of one of its groups. -/
theorem exists_sample_of_lt {w h n : Nat} (h8 : w % 8 = 0) (hn : n < w * h) :
    ∃ p ∈ groupOrder w h, ∃ k, k < 8 ∧ p.1 * w + 8 * p.2 + k = n := by
  obtain ⟨q, rfl⟩ := Nat.dvd_of_mod_eq_zero h8
  have hq : 8 * q / 8 = q := Nat.mul_div_cancel_left q (by decide)
  rw [Nat.mul_assoc] at hn
  obtain ⟨p, hp, e⟩ := exists_group_of_lt (w := 8 * q) (h := h) (n := n / 8) (by rw [hq]; omega)
  rw [hq] at e
  refine ⟨p, hp, n % 8, Nat.mod_lt _ (by decide), ?_⟩
  rw [Nat.mul_left_comm]
  omega

section

variable {cap : Nat} {s : Block} (hun : ∃ n, n < s.pixels ∧ Memory.read? s.inBuf n = none)
include hun

theorem Block.packAll_pack_eq_none (hw : 0 < s.imgW) (hh : 0 < s.imgH) (h8 : s.imgW % 8 = 0) :
    s.packAll .pack = none := by
  obtain ⟨n, hn, hr⟩ := hun
  rw [Block.pixels, ← toNat_mul_toNat hw hh] at hn
  obtain ⟨p, hp, k, hk, rfl⟩ := exists_sample_of_lt (by omega) hn
  have hnone : packGroups (s.packSrc .pack) s.imgW.toNat (groupOrder s.imgW.toNat s.imgH.toNat) s.outBuf = none :=
    packGroups_eq_none_iff.2 ⟨p, hp, k, hk, hr⟩
  simp [Block.packAll, Block.packWith, hnone]

/-- DITHER whose checks pass meets an unwritten input byte in COPY (20_memory.md R74). -/
theorem runDither_of_unwritten (hv : validateDither cap s.imgW s.imgH s.imgLen = none) :
    runDither cap s = .fault .uninitInput := by
  simp [runDither, hv, s.ditherScan_eq_none_iff.2 hun]

/-- PACK whose checks pass meets it in the group that it is a sample of. -/
theorem runPack_of_unwritten (hv : validatePack cap s.imgW s.imgH s.imgLen = none) :
    runPack cap s = .fault .uninitInput := by
  obtain ⟨hw, hh, -, -, h8⟩ := (validatePack_eq_none_iff _ _ _ _).1 hv
  simp [runPack, hv, Block.packAll_pack_eq_none hun hw hh h8]

/-- DITHER_PACK whose checks pass meets it in COPY. -/
theorem runDitherPack_of_unwritten (hv : validatePack cap s.imgW s.imgH s.imgLen = none) :
    runDitherPack cap s = .fault .uninitInput := by
  simp [runDitherPack, hv, s.ditherScan_eq_none_iff.2 hun]

end

/-- Settles O15: the accepted command passes its checks, and its scan or its packing reads the unwritten byte. -/
theorem unwrittenInputFaults : Obligations.UnwrittenInputFaults := by
  intro s n hidle hw hh hlen hcap hn hr
  have hb : s.busy = false := (Block.busy_eq_false_iff _).2 hidle
  have hun : ∀ op, ∃ n, n < (s.accept op).pixels ∧ Memory.read? (s.accept op).inBuf n = none := fun _ => ⟨n, hn, hr⟩
  have hpack : s.regW % 8 = 0 → validatePack Config.maxPixels s.regW s.regH s.inLen.toNat = none :=
    fun h8 => (validatePack_eq_none_iff _ _ _ _).2 ⟨hw, hh, hlen, hcap, h8⟩
  simp only [exec_eq_command, State.onBlock_eq_fault, Block.command, Block.commandDither, Block.commandPack,
    Block.commandDitherPack, hb]
  exact ⟨runDither_of_unwritten (hun _) ((validateDither_eq_none_iff _ _ _ _).2 ⟨hw, hh, hlen, hcap⟩),
    fun h8 => ⟨runPack_of_unwritten (hun _) (hpack h8), runDitherPack_of_unwritten (hun _) (hpack h8)⟩⟩

/-! ### Scheduled commands -/

/-- A step at a scheduled command word is the turn of that word, answered OKAY. -/
theorem step_command {s : State} {w : Word} {rest : List Event} (hs : s.sched = .command w :: rest)
    (hf : s.fault = none) :
    step s = ({ s with sched := rest, resp := some .okay } : State).onBlock (commandTurn w s.toBlock) := by
  rw [step_of_cons hs]
  simp [takeTurn, State.heard, Block.turn, unlessFaulted, hf]

/-- The command that a faulting `exec` met was accepted. -/
theorem Block.busy_of_command_fault {i : Instr} {s : Block} {r : Fault} (h : s.command i = .fault r) :
    s.busy = false := by
  refine Bool.eq_false_iff.2 fun hb => ?_
  rw [Block.command_of_busy i hb] at h
  cases h

/-- The step at a scheduled command word is `exec` of the decoded command, whose fault it records in the accepted
block. -/
theorem step_command_exec {s : State} {w : Word} {rest : List Event} (hs : s.sched = .command w :: rest)
    (hf : s.fault = none) :
    (∀ t, exec (decode w) { s with sched := rest, resp := some .okay } = .next t → step s = .next t) ∧
    ∀ r, exec (decode w) { s with sched := rest, resp := some .okay } = .fault r →
      step s = .next
        { s with
          toBlock := { s.accept (Op.of (decode w)) with fault := some r }
          sched := rest
          resp := some .okay } := by
  rw [step_command hs hf, exec_eq_command]
  refine ⟨fun t h => ?_, fun r h => ?_⟩
  · obtain ⟨hc, ht⟩ := State.onBlock_eq_next.1 h
    rw [commandTurn, show s.toBlock.command (decode w) = _ from hc]
    exact congrArg _ ht.symm
  · have hc : s.toBlock.command (decode w) = .fault r := State.onBlock_eq_fault.1 h
    rw [commandTurn, hc, Block.issue_of_idle _ (Block.busy_of_command_fault hc)]
    simp [Block.recordFault, hf]

/-- Settles O4: the placed word is the next event of the schedule, and its step is `exec` of the decoded command. -/
theorem stepRunsTheDecodedCommand : Obligations.StepRunsTheDecodedCommand := by
  refine ⟨exec_ne_refused, fun s w rest hs hf => step_command_exec hs hf, fun s nbits w i hi hf => ?_⟩
  unfold decodeTableWord at hi
  split at hi <;> cases hi
  exact step_command_exec (s := s.withFetchWord nbits w) rfl hf

end Sys2Proof.Machine
end

section
/-! The command words: the fields, the decoder and the encoder (30_encoding.md R81 to R85). -/

namespace Sys2Proof

/-- A word is put together of its two fields in one way (format CMD32, R81). -/
theorem eq_cmdWord_iff {w : Word} {rsvd : BitVec 28} {op : BitVec 4} :
    w = cmdWord rsvd op ↔ rsvdField w = rsvd ∧ opField w = op := by
  constructor
  · rintro rfl
    exact ⟨BitVec.extractLsb'_append_eq_left, BitVec.extractLsb'_append_eq_right⟩
  · rintro ⟨rfl, rfl⟩
    have happ : rsvdField w ++ opField w = w.extractLsb' 0 32 := BitVec.extractLsb'_append_extractLsb'_eq_extractLsb' rfl
    exact (happ.trans BitVec.extractLsb'_eq_self).symm

/-- A word is one of the three legal ones exactly when RSVD is zero and OP is one of the three legal operations
(R82, R83). -/
theorem mem_legalWords_iff {w : Word} :
    w ∈ legalWords ↔ rsvdField w = 0#28 ∧ (opField w = 0x1#4 ∨ opField w = 0x2#4 ∨ opField w = 0x3#4) := by
  have h : legalWords = [cmdWord 0#28 0x1#4, cmdWord 0#28 0x2#4, cmdWord 0#28 0x3#4] := rfl
  simp [h, eq_cmdWord_iff, and_or_left]

/-- Everything a word can decode to (R83): one of the three legal words to its command, any other to ILLEGAL. -/
theorem decode_cases (w : Word) :
    (w = 0x00000001#32 ∧ decode w = .dither) ∨ (w = 0x00000002#32 ∧ decode w = .pack) ∨
    (w = 0x00000003#32 ∧ decode w = .ditherPack) ∨ (w ∉ legalWords ∧ decode w = .illegal w) := by
  rw [mem_legalWords_iff]
  unfold decode
  split_ifs with hr h1 h2 h3
  · exact .inr (.inr (.inr ⟨fun h => hr h.1, rfl⟩))
  · exact .inl ⟨eq_cmdWord_iff.2 ⟨not_not.1 hr, h1⟩, rfl⟩
  · exact .inr (.inl ⟨eq_cmdWord_iff.2 ⟨not_not.1 hr, h2⟩, rfl⟩)
  · exact .inr (.inr (.inl ⟨eq_cmdWord_iff.2 ⟨not_not.1 hr, h3⟩, rfl⟩))
  · exact .inr (.inr (.inr ⟨fun h => h.2.elim h1 (·.elim h2 h3), rfl⟩))

theorem decode_of_not_mem_legalWords {w : Word} (h : w ∉ legalWords) : decode w = .illegal w := by
  rcases decode_cases w with ⟨rfl, -⟩ | ⟨rfl, -⟩ | ⟨rfl, -⟩ | ⟨-, hd⟩
  · exact absurd (by decide) h
  · exact absurd (by decide) h
  · exact absurd (by decide) h
  · exact hd

/-- A well-formed command is read back from its word (R82). -/
theorem decode_encode {i : Instr} (h : i.wf = true) : decode (encode i) = i := by
  cases i with
  | dither => decide
  | pack => decide
  | ditherPack => decide
  | illegal w => exact decode_of_not_mem_legalWords (by simpa [Instr.wf, encode] using h)

/-- A legal word is its command's word, and an ILLEGAL command carries its word whole (R82, R85). -/
theorem encode_decode (w : Word) : encode (decode w) = w := by
  rcases decode_cases w with ⟨rfl, hd⟩ | ⟨rfl, hd⟩ | ⟨rfl, hd⟩ | ⟨-, hd⟩ <;> rw [hd] <;> rfl

theorem wf_decode (w : Word) : (decode w).wf = true := by
  rcases decode_cases w with ⟨-, hd⟩ | ⟨-, hd⟩ | ⟨-, hd⟩ | ⟨hw, hd⟩ <;> rw [hd]
  case inr.inr.inr => simpa [Instr.wf] using hw
  all_goals rfl

/-- Settles O2: by the four things that a word can decode to. -/
theorem decodeAndEncodeAgree : Obligations.DecodeAndEncodeAgree :=
  ⟨fun _ => decode_encode, fun w => ⟨encode_decode w, wf_decode w⟩⟩

/-- A word decodes to a well-formed command exactly when it is that command's word (R83). -/
theorem decode_eq_iff {w : Word} {i : Instr} (hi : i.wf = true) : decode w = i ↔ w = encode i := by
  constructor
  · rintro rfl
    exact (encode_decode w).symm
  · rintro rfl
    exact decode_encode hi

/-- Settles O1: each legal word has its one command, and all others are ILLEGAL. -/
theorem decodeNamesEveryWord : Obligations.DecodeNamesEveryWord := fun _ =>
  ⟨decode_eq_iff (i := .dither) rfl, decode_eq_iff (i := .pack) rfl, decode_eq_iff (i := .ditherPack) rfl,
    decode_of_not_mem_legalWords⟩

/-- Settles O3: the legal words by their fields, and the others as words that are not legal. -/
theorem sampleWordsDecode : Obligations.SampleWordsDecode :=
  ⟨decode_encode (i := .dither) rfl, decode_encode (i := .pack) rfl, decode_encode (i := .ditherPack) rfl,
    decode_of_not_mem_legalWords (by decide), decode_of_not_mem_legalWords (by decide),
    decode_of_not_mem_legalWords (by decide), decode_of_not_mem_legalWords (by decide)⟩

end Sys2Proof
end

section
/-! The pseudo-instructions of a host program (30_encoding.md R86, R87). -/

namespace Sys2Proof.Machine

/-! ### Register writes -/

/-- Settles O48: every transaction is the write of its register, one after the other. -/
theorem configAndAckActAsTheirExpansions : Obligations.ConfigAndAckActAsTheirExpansions := by
  intro s w h len
  refine ⟨?_, hostAccess_writeReg (by decide) (by decide) s _⟩
  simp only [pseudoConfig, wr32, List.foldl_cons, List.foldl_nil]
  rw [hostAccess_writeReg (by decide) (by decide), hostAccess_writeReg (by decide) (by decide),
    hostAccess_writeReg (by decide) (by decide)]
  rfl

/-- A CMD write issues the command that its word decodes to (20_memory.md R71). -/
theorem hostAccess_cmd (s : State) (w : Word) :
    hostAccess Config.maxPixels (wr32 Sym.cmd w) s =
      { s with toBlock := s.issue (Op.of (decode w)), resp := some .okay } :=
  hostAccess_writeReg (by decide) (by decide) s w

/-! ### Runs of byte writes to IN -/

/-- An 8-bit write at `IN+n`: the byte is stored, and while busy the fault of R64 is recorded with it. -/
theorem hostAccess_wr8_inAt {n : Nat} (s : State) (b : Byte) (hn : n < Config.maxPixels) :
    hostAccess Config.maxPixels (wr8 (Sym.inAt n) b) s =
      { s with
        inBuf := Memory.write s.inBuf n b
        fault := if s.phase = .run then some (s.fault.getD .hostMutatedInput) else s.fault
        resp := some .okay } := by
  refine (hostAccess_writeIn (d := .byte b) s (Nat.mod_one n) hn).trans ?_
  cases hp : s.phase with
  | idle => rw [writeIn_of_idle ((Block.busy_eq_false_iff _).2 hp)]; simp [Data.bytes, Memory.writeRun, hp]
  | run => rw [writeIn_of_busy ((Block.busy_iff _).2 hp)]; simp [Data.bytes, Memory.writeRun, hp]

theorem pseudoLoad8_cons (n : Nat) (b : Byte) (bs : List Byte) :
    pseudoLoad8 n (b :: bs) = wr8 (Sym.inAt n) b :: pseudoLoad8 (n + 1) bs := by
  simp [pseudoLoad8, List.zipIdx_succ, Nat.add_assoc, Nat.add_comm 1]

/-- A `LOAD8` of at least one byte writes its bytes as one run, and while busy records the fault of R64 once. -/
theorem foldl_pseudoLoad8 (s : State) {n : Nat} {bs : List Byte} (hbs : bs ≠ [])
    (hn : n + bs.length ≤ Config.maxPixels) :
    (pseudoLoad8 n bs).foldl (fun t x => hostAccess Config.maxPixels x t) s =
      { s with
        inBuf := Memory.writeRun s.inBuf n bs
        fault := if s.phase = .run then some (s.fault.getD .hostMutatedInput) else s.fault
        resp := some .okay } := by
  induction bs generalizing n s with
  | nil => exact absurd rfl hbs
  | cons b bs ih =>
    rw [List.length_cons] at hn
    rw [pseudoLoad8_cons, List.foldl_cons, hostAccess_wr8_inAt s b (by omega)]
    by_cases hne : bs = []
    · subst hne; rfl
    · rw [ih _ hne (by omega)]
      cases s.phase <;> rfl

/-- Settles O58: the commands are CMD writes, and the bytes of a load are one run of writes. -/
theorem issueAndLoadActAsTheirExpansions : Obligations.IssueAndLoadActAsTheirExpansions := by
  intro s
  refine ⟨fun w => ⟨fun hp => ?_, fun hp => ?_⟩, fun i hi hp => ?_, fun n bs hbs hn => ?_, fun n c v hc hn => ?_⟩
  · refine (hostAccess_cmd s w).trans ?_
    rw [Block.issue_of_idle _ ((Block.busy_eq_false_iff _).2 hp)]
  · refine (hostAccess_cmd s w).trans ?_
    rw [Block.issue_of_busy _ ((Block.busy_iff _).2 hp)]
    rfl
  · refine (hostAccess_cmd s (encode i)).trans ?_
    rw [decode_encode hi, Block.issue_of_idle _ ((Block.busy_eq_false_iff _).2 hp)]
  · refine ⟨_, foldl_pseudoLoad8 s hbs hn, fun k hk => ?_, fun k hk => ?_⟩
    · rw [Memory.read?_writeRun, if_pos (by omega), Nat.add_sub_cancel_left]
    · rw [Memory.read?_writeRun, if_neg (by omega)]
  · have hlen : (List.replicate c v).length = c := List.length_replicate
    refine ⟨_, foldl_pseudoLoad8 s (mt (List.replicate_eq_nil_iff v).1 hc.ne') (hlen.symm ▸ hn),
      fun k hk => ?_, fun k hk => ?_⟩
    · rw [Memory.read?_writeRun, hlen, if_pos (by omega), Nat.add_sub_cancel_left]
      simp [hk]
    · rw [Memory.read?_writeRun, hlen, if_neg (by omega)]

/-! ### Polls -/

section

variable {mask val : Word}

/-- One more read before the last one goes on with the poll (R87). -/
theorem pollEnds_cons (s : State) {reads : List State} (h : reads ≠ []) :
    pollEnds mask val (s :: reads) = (!pollSatisfied mask val s && pollEnds mask val reads) := by
  cases reads with
  | nil => exact absurd rfl h
  | cons => rfl

theorem pollEnds_append_singleton (before : List State) (last : State) :
    pollEnds mask val (before ++ [last]) = true ↔
      pollSatisfied mask val last = true ∧ ∀ t ∈ before, pollSatisfied mask val t = false := by
  induction before with
  | nil => simp [pollEnds]
  | cons s before ih =>
    rw [List.cons_append, pollEnds_cons s (by simp), Bool.and_eq_true, ih, List.forall_mem_cons, Bool.not_eq_true',
      and_left_comm]

/-- A poll ends with its last read exactly when that is the first to satisfy the test. -/
theorem pollEnds_iff (reads : List State) :
    pollEnds mask val reads = true ↔
      ∃ before last, reads = before ++ [last] ∧ pollSatisfied mask val last = true ∧
        ∀ t ∈ before, pollSatisfied mask val t = false := by
  constructor
  · intro h
    rcases List.eq_nil_or_concat' reads with rfl | ⟨before, last, rfl⟩
    · cases h
    · exact ⟨before, last, rfl, (pollEnds_append_singleton before last).1 h⟩
  · rintro ⟨before, last, rfl, h⟩
    exact (pollEnds_append_singleton before last).2 h

/-- The test of a read is that of the value read, and a bus error satisfies none (20_memory.md R60). -/
theorem pollSatisfied_rd32 (s : State) (a : Offset) :
    pollSatisfied mask val (hostAccess Config.maxPixels (rd32 a) s) = true ↔
      legalAccess Config.maxPixels (rd32 a) = true ∧
        ∃ v : Word, readValue Config.maxPixels s a .word = .word v ∧ v &&& mask = val := by
  cases hl : legalAccess Config.maxPixels (rd32 a) with
  | false => simp [hostAccess_of_illegal s hl, pollSatisfied]
  | true =>
    rw [rd32] at hl ⊢
    rw [hostAccess_read s hl]
    cases hv : readValue Config.maxPixels s a .word <;> simp [pollSatisfied]

/-- Reads in a row of a register all answer its value, and leave the block as it is (20_memory.md R61). -/
theorem foldl_pseudoPoll_reg {a : Offset} (ha : a.toNat < 0x1000) (h4 : a.toNat % 4 = 0) (s : State) (k : Nat) :
    (pseudoPoll a k).foldl (fun t x => hostAccess Config.maxPixels x t) s =
      { s with
        resp := some (.okayRead (.word (readReg Config.maxPixels s.toBlock (regAt a.toNat))))
        draws := s.draws + (k + 1) } := by
  induction k generalizing s with
  | zero => exact hostAccess_readReg ha h4 s
  | succ k ih =>
    have hcons : pseudoPoll a (k + 1) = rd32 a :: pseudoPoll a k := rfl
    rw [hcons, List.foldl_cons, rd32, hostAccess_readReg ha h4, ih, Nat.add_assoc, Nat.add_comm 1]

end

/-- The test of `WAIT_DONE` on a STATUS word is its bit DONE (10_state.md R22). -/
theorem Block.statusWord_and_done (s : Block) : (s.statusWord &&& 0x2#32 == 0x2#32) = s.done := by
  have hbit : s.statusWord.getLsbD 1 = s.done := s.getLsbD_statusWord 1
  have hmask : s.statusWord &&& 0x2#32 = if s.done = true then 0x2#32 else 0#32 := hbit ▸ BitVec.and_twoPow _ 1
  rw [hmask]
  cases s.done <;> rfl

/-- Settles O59: the reads of a poll by its last one, and STATUS by its bit DONE. -/
theorem pollEndsAtItsFirstSatisfyingRead : Obligations.PollEndsAtItsFirstSatisfyingRead := by
  intro mask val
  refine ⟨pollEnds_iff, fun s a => ⟨pollSatisfied_rd32 s a, fun k ha h4 => foldl_pseudoPoll_reg ha h4 s k, fun k => ?_⟩⟩
  rw [pseudoWaitDone, foldl_pseudoPoll_reg (by decide) (by decide)]
  exact s.statusWord_and_done

end Sys2Proof.Machine
end

section
/-! The Dither Engine on one pixel and on one visit (40_dither_engine.md R105 to R113). -/

namespace Sys2Proof.Machine

/-! ### Threshold, residual, fragment and accumulation -/

theorem threshold_cases (old : Byte) : threshold old = white ∨ threshold old = black := by
  unfold threshold
  split
  · exact .inl rfl
  · exact .inr rfl

theorem threshold_eq_white_iff (old : Byte) : threshold old = white ↔ 127 < old.toNat := by
  unfold threshold
  split <;> simp [white, black, *]

theorem threshold_eq_black_iff (old : Byte) : threshold old = black ↔ old.toNat ≤ 127 := by
  unfold threshold
  split <;> simp [white, black] <;> omega

theorem residual_eq (old : Byte) :
    residual old = if 127 < old.toNat then (old.toNat : Int) - 255 else (old.toNat : Int) := by
  unfold residual threshold
  split
  · rfl
  · exact sub_zero _

theorem residual_bounds (old : Byte) : -127 ≤ residual old ∧ residual old ≤ 127 := by
  have hlt := old.isLt
  rw [residual_eq]
  split <;> omega

theorem residual_eq_zero_iff (old : Byte) : residual old = 0 ↔ old = 0#8 ∨ old = 255#8 := by
  have hzero : old = 0#8 ↔ old.toNat = 0 := BitVec.toNat_inj.symm
  have hfull : old = 255#8 ↔ old.toNat = 255 := BitVec.toNat_inj.symm
  rw [residual_eq, hzero, hfull]
  split <;> omega

/-- Settles O20, by the two branches of the threshold. -/
theorem thresholdAndResidual : Obligations.ThresholdAndResidual := fun old =>
  ⟨rfl, residual_eq old, (residual_bounds old).1, (residual_bounds old).2, residual_eq_zero_iff old⟩

/-- Truncation toward zero, by sign and magnitude (R109). -/
theorem tdiv_eq_sign_mul_natAbs_div (n : Nat) : ∀ x : Int, x.tdiv n = x.sign * ((x.natAbs / n : Nat) : Int)
  | 0 => by simp
  | (_ + 1 : Nat) => (one_mul _).symm
  | .negSucc _ => (neg_one_mul _).symm

theorem frag_neg (w err : Int) : frag w (-err) = -frag w err := by
  rw [frag, Int.mul_neg, Int.neg_tdiv, frag]

/-- The magnitude of a fragment is that of the weighted error, rounded down. -/
theorem natAbs_frag (w err : Int) : (frag w err).natAbs = w.natAbs * err.natAbs / 16 := by
  rw [frag, Int.natAbs_tdiv, Int.natAbs_mul]
  rfl

theorem natAbs_frag_le (w : Int) {err : Int} (h1 : -127 ≤ err) (h2 : err ≤ 127) :
    (frag w err).natAbs ≤ (frag w 127).natAbs := by
  rw [natAbs_frag, natAbs_frag]
  exact Nat.div_le_div_right (Nat.mul_le_mul_left _ (by omega))

/-- Settles O21: the sign and the magnitude of a fragment are those of its quotient. -/
theorem fragmentTruncatesTowardZero : Obligations.FragmentTruncatesTowardZero := by
  refine ⟨fun w err hw => ⟨tdiv_eq_sign_mul_natAbs_div 16 _, frag_neg w err, ?_, natAbs_frag_le w⟩, by decide⟩
  lift w to Nat using hw.le
  rw [← Int.natAbs_eq_zero, natAbs_frag, Nat.div_eq_zero_iff_lt (by decide), Int.natAbs_natCast]
  norm_cast

theorem toNat_accumulate (old : Byte) (f : Int) :
    ((accumulate old f).toNat : Int) = ((old.toNat : Int) + f) % 256 := by
  rw [accumulate, BitVec.toNat_ofInt]
  exact Int.toNat_of_nonneg (Int.emod_nonneg _ (by decide))

/-- Settles O23: accumulation is in an 8-bit container, and the rule's two examples are evaluated. -/
theorem accumulationWraps : Obligations.AccumulationWraps :=
  ⟨toNat_accumulate, by decide⟩

/-! ### The targets of a visit -/

theorem dirOf_of_even {i : Nat} (h : i % 2 = 0) : dirOf i = .forward := if_pos h

theorem dirOf_of_odd {i : Nat} (h : i % 2 = 1) : dirOf i = .reverse := if_neg (by omega)

/-- Settles O22: the step of a row's direction is 1 in an even row and -1 in an odd one. -/
theorem targetsFollowTheTable : Obligations.TargetsFollowTheTable := by
  refine fun i j => ⟨fun hi => ?_, fun hi => ?_⟩
  · rw [dirOf_of_even hi]
    rfl
  · rw [dirOf_of_odd hi]
    rfl

/-- A target of a visit is the next pixel of the row, or lies in the row below. -/
theorem mem_targets_cases {d : Dir} {j i : Int} {t : Int × Int × Int} (ht : t ∈ targets d j i) :
    (t.1 = j + d.step ∧ t.2.1 = i) ∨ t.2.1 = i + 1 := by
  simp only [targets, List.mem_cons, List.not_mem_nil, or_false] at ht
  rcases ht with rfl | rfl | rfl | rfl
  · exact .inl ⟨rfl, rfl⟩
  all_goals exact .inr rfl

/-! ### One visit -/

section

variable {fill : Nat → Byte} {w h : Int} {m : Memory}

/-- A visit leaves every byte but those of the visited pixel and of its targets inside the image. -/
theorem read?_visit_of_ne {p : Int × Nat} {n : Nat} (hn : n ≠ idx w p.1 p.2)
    (hts : ∀ t ∈ targets (dirOf p.2) p.1 p.2, inBounds w h t.1 t.2.1 = true → n ≠ idx w t.1 t.2.1) :
    Memory.read? (visit fill w h m p) n = Memory.read? m n :=
  ((read?_foldl_diffuse _ _ _ _ _ _ (targets_pairwise _ _ _)).2 n hts).trans (Memory.read?_write_of_ne _ _ hn)

variable {p : Int × Nat} (hp : inBounds w h p.1 p.2 = true)
include hp

/-- No target of a visit inside the image is at the visited pixel. -/
theorem idx_target_ne {t : Int × Int × Int} (ht : t ∈ targets (dirOf p.2) p.1 p.2)
    (hb : inBounds w h t.1 t.2.1 = true) : idx w t.1 t.2.1 ≠ idx w p.1 p.2 :=
  fun e => targets_ne_self ht (idx_inj hb hp e)

theorem read?_visit_self :
    Memory.read? (visit fill w h m p) (idx w p.1 p.2) = some (threshold (Memory.readOr fill m (idx w p.1 p.2))) :=
  ((read?_foldl_diffuse _ _ _ _ _ _ (targets_pairwise _ _ _)).2 _ fun _ ht hb => (idx_target_ne hp ht hb).symm).trans
    (Memory.read?_write_self _ _ _)

theorem read?_visit_target {t : Int × Int × Int} (ht : t ∈ targets (dirOf p.2) p.1 p.2)
    (hb : inBounds w h t.1 t.2.1 = true) :
    Memory.read? (visit fill w h m p) (idx w t.1 t.2.1) =
      some (accumulate (Memory.readOr fill m (idx w t.1 t.2.1))
        (frag t.2.2 (residual (Memory.readOr fill m (idx w p.1 p.2))))) := by
  refine ((read?_foldl_diffuse _ _ _ _ _ _ (targets_pairwise _ _ _)).1 t ht hb).trans ?_
  rw [Memory.readOr, Memory.read?_write_of_ne _ _ (idx_target_ne hp ht hb), ← Memory.readOr]

end

/-- Settles O24: the visited pixel, its targets, and every other byte. -/
theorem visitEffect : Obligations.VisitEffect := by
  intro fill m w h j i h0 hj hi
  have hp : inBounds w h j i = true := (inBounds_iff _ _ _ _).2 ⟨h0, hj, i.cast_nonneg, hi⟩
  exact ⟨read?_visit_self (p := (j, i)) hp, fun x y wt ht hb => read?_visit_target (p := (j, i)) hp ht hb,
    fun n hn hts => read?_visit_of_ne (p := (j, i)) hn fun t => hts t.1 t.2.1 t.2.2⟩

/-- The updates of distinct targets give memories that read alike in any order. -/
theorem read?_foldl_diffuse_perm (fill : Nat → Byte) (w h err : Int) (m : Memory) {ts us : List (Int × Int × Int)}
    (hperm : ts.Perm us) (hts : ts.Pairwise fun a b => ¬(a.1 = b.1 ∧ a.2.1 = b.2.1)) (n : Nat) :
    Memory.read? (ts.foldl (diffuse fill w h err) m) n = Memory.read? (us.foldl (diffuse fill w h err) m) n := by
  have hus := (hperm.pairwise_iff fun hne he => hne ⟨he.1.symm, he.2.symm⟩).1 hts
  obtain ⟨hupdate, hframe⟩ := read?_foldl_diffuse fill w h err ts m hts
  obtain ⟨hupdate', hframe'⟩ := read?_foldl_diffuse fill w h err us m hus
  by_cases hn : ∃ t ∈ ts, inBounds w h t.1 t.2.1 = true ∧ n = idx w t.1 t.2.1
  · obtain ⟨t, ht, hb, rfl⟩ := hn
    rw [hupdate t ht hb, hupdate' t (hperm.mem_iff.1 ht) hb]
  · rw [hframe n fun t ht hb e => hn ⟨t, ht, hb, e⟩,
      hframe' n fun t ht hb e => hn ⟨t, hperm.mem_iff.2 ht, hb, e⟩]

/-- Settles O25: the targets of a visit are distinct pixels. -/
theorem updateOrderDoesNotMatter : Obligations.UpdateOrderDoesNotMatter := by
  intro fill m w h err j i ts _ _ _ hperm n
  exact (read?_foldl_diffuse_perm fill w h err m hperm.symm (targets_pairwise _ _ _) n).symm

end Sys2Proof.Machine
end

section
/-! The serpentine scan and what DITHER leaves in MONO (40_dither_engine.md R100 to R104, R115, R116, R119). -/

namespace Sys2Proof.Machine

/-! ### The serpentine order -/

/-- The visit number `k` of row `i`: from the left in an even row, from the right in an odd one (R104). -/
def visitAt (w i k : Nat) : Int × Nat := if i % 2 = 0 then ((k : Int), i) else ((w : Int) - 1 - (k : Int), i)

/-- A whole row is its visits by number. -/
theorem rowVisits_start (w i : Nat) :
    rowVisits (dirOf i) w ((dirOf i).start w) i = (List.range w).map (visitAt w i) := by
  unfold rowVisits visitAt
  rcases Nat.mod_two_eq_zero_or_one i with hi | hi <;> simp [dirOf, Dir.start, colsFrom, hi]

theorem length_rowsVisits (w i n : Nat) : (rowsVisits w i n).length = w * n := by
  induction n generalizing i with
  | zero => rfl
  | succ n ih =>
    rw [rowsVisits, List.length_append, ih, rowVisits_start, List.length_map, List.length_range, Nat.mul_succ,
      Nat.add_comm]

/-- Row `r` of a run of rows stands at positions `r * W` to `r * W + W - 1` of it. -/
theorem getElem?_rowsVisits {w n r k : Nat} (i : Nat) (hr : r < n) (hk : k < w) :
    (rowsVisits w i n)[r * w + k]? = some (visitAt w (i + r) k) := by
  induction n generalizing i r with
  | zero => omega
  | succ n ih =>
    have hlen : ((List.range w).map (visitAt w i)).length = w := by simp
    rw [rowsVisits, rowVisits_start]
    cases r with
    | zero => rw [List.getElem?_append_left (by omega)]; simp [hk]
    | succ r =>
      rw [List.getElem?_append_right (by rw [hlen, Nat.succ_mul]; omega), hlen,
        show (r + 1) * w + k - w = r * w + k by rw [Nat.succ_mul]; omega, ih (i + 1) (by omega), Nat.add_right_comm,
        Nat.add_assoc]

theorem getElem?_visitOrder {w h i k : Nat} (hi : i < h) (hk : k < w) :
    (visitOrder w h)[i * w + k]? = some (visitAt w i k) := by
  simpa [visitOrder] using getElem?_rowsVisits 0 hi hk

/-- `p` is visited before `q`: in an earlier row, or further back in the direction of the row. -/
def VisitedBefore (p q : Int × Nat) : Prop :=
  p.2 < q.2 ∨ (p.2 = q.2 ∧ 0 < (q.1 - p.1) * (dirOf q.2).step)

theorem VisitedBefore.ne {p q : Int × Nat} (h : VisitedBefore p q) : p ≠ q := by
  rintro rfl
  simp [VisitedBefore] at h

/-- No target of a visit has been visited before: it lies in a later row, or further on in the row. -/
theorem VisitedBefore.not_target {p q : Int × Nat} (h : VisitedBefore p q) {t : Int × Int × Int}
    (ht : t ∈ targets (dirOf q.2) q.1 q.2) : ¬(t.1 = p.1 ∧ t.2.1 = p.2) := by
  rintro ⟨hx, hy⟩
  rcases mem_targets_cases ht with ⟨hnext, hrow⟩ | hbelow
  · rcases h with hlt | ⟨-, hback⟩
    · omega
    · have hcol : q.1 - p.1 = -(dirOf q.2).step := by omega
      rw [hcol, neg_mul] at hback
      have hsquare := mul_self_nonneg (dirOf q.2).step
      omega
  · rcases h with hlt | ⟨heq, -⟩ <;> omega

theorem visitedBefore_visitAt (w i : Nat) {k l : Nat} (h : k < l) : VisitedBefore (visitAt w i k) (visitAt w i l) := by
  unfold VisitedBefore visitAt
  rcases Nat.mod_two_eq_zero_or_one i with hi | hi <;> simp [dirOf, Dir.step, hi, h]

@[simp] theorem visitAt_row (w i k : Nat) : (visitAt w i k).2 = i := by
  unfold visitAt
  split <;> rfl

/-- The visits of whole rows stand in the order in which they are made. -/
theorem pairwise_rowsVisits {w : Nat} (hw : 0 < w) (i n : Nat) : (rowsVisits w i n).Pairwise VisitedBefore := by
  induction n generalizing i with
  | zero => exact List.Pairwise.nil
  | succ n ih =>
    rw [rowsVisits, rowVisits_start, List.pairwise_append]
    refine ⟨?_, ih (i + 1), fun p hp q hq => .inl ?_⟩
    · exact List.pairwise_map.2 (List.pairwise_lt_range.imp (visitedBefore_visitAt w i))
    · obtain ⟨k, -, rfl⟩ := List.mem_map.1 hp
      obtain ⟨-, -, hrow, -⟩ := mem_rowsVisits (Int.natCast_pos.2 hw) hq
      rw [visitAt_row]
      omega

/-- Settles O26: the visits of a row by their numbers, and no visit before itself. -/
theorem scanOrderIsSerpentine : Obligations.ScanOrderIsSerpentine := by
  intro w h hw _
  refine ⟨?_, fun i k => getElem?_visitOrder, (pairwise_rowsVisits hw 0 _).imp VisitedBefore.ne,
    fun i => ⟨dirOf_of_even, dirOf_of_odd⟩, rfl, rfl⟩
  rw [visitOrder, length_rowsVisits, Int.toNat_natCast]

/-! ### The command DITHER -/

section

variable {cap : Nat} {s : Block}

/-- A scan whose input bytes are written copies them into MONO and makes every visit. -/
theorem Block.ditherScan_of_readRun {bs : List Byte} (h : readRun (Memory.read? s.inBuf) 0 s.pixels = some bs) :
    s.ditherScan = some { s with
      monoBuf := (visitOrder s.imgW s.imgH).foldl (visit Config.freeMono s.imgW s.imgH)
        (Memory.writeRun s.monoBuf 0 bs) } := by
  unfold Block.ditherScan Block.copyIn
  rw [h]
  rfl

/-- DITHER whose checks pass completes with its scan. -/
theorem runDither_of_ditherScan {t : Block} (hv : validateDither cap s.imgW s.imgH s.imgLen = none)
    (h : s.ditherScan = some t) : runDither cap s = .next ((t.enter .finish).complete t.pixels) := by
  simp [runDither, hv, h]

end

/-- Settles O16: the input is written over the image, so COPY and the scan answer. -/
theorem ditherCompletes : Obligations.DitherCompletes := by
  rintro s ⟨hidle, hw, hh, hlen, hcap, hcov⟩
  have hb : s.busy = false := (Block.busy_eq_false_iff _).2 hidle
  obtain ⟨bs, hbs, hbslen⟩ := readRun_of_covers hcov
  refine ⟨bs, hbslen, by simpa using ((readRun_eq_some_iff _ _ _ _).1 hbs).2, ?_⟩
  rw [exec_eq_command, Block.command, Block.commandDither, hb]
  have hrun := runDither_of_ditherScan (s := s.accept .dither)
    ((validateDither_eq_none_iff _ _ _ _).2 ⟨hw, hh, hlen, hcap⟩) (Block.ditherScan_of_readRun hbs)
  simp only [Bool.false_eq_true, if_false]
  rw [hrun]
  rfl

/-! ### Black and white -/

theorem idx_visitAt {w k : Nat} (i : Nat) (hk : k < w) :
    idx w (visitAt w i k).1 i = i * w + if i % 2 = 0 then k else w - 1 - k := by
  unfold idx visitAt
  rw [← Nat.cast_mul]
  split <;> simp only <;> omega

/-- Every index of an image is that of a visited pixel. -/
theorem exists_visit_of_lt {w h : Int} (hw : 0 < w) (hh : 0 < h) {n : Nat} (hn : n < (w * h).toNat) :
    ∃ p ∈ visitOrder w h, idx w p.1 p.2 = n := by
  lift w to Nat using hw.le
  lift h to Nat using hh.le
  have hw : 0 < w := Int.natCast_pos.1 hw
  have hcol : n % w < w := Nat.mod_lt _ hw
  have hk : (if n / w % 2 = 0 then n % w else w - 1 - n % w) < w := by split <;> omega
  refine ⟨_, List.mem_of_getElem? (getElem?_visitOrder (Nat.div_lt_of_lt_mul (by exact_mod_cast hn)) hk), ?_⟩
  rw [visitAt_row, idx_visitAt _ hk]
  have hdiv := Nat.div_add_mod' n w
  split <;> omega

section

variable {fill : Nat → Byte} {w h : Int} {m : Memory}

/-- Later visits leave a pixel that has been visited. -/
theorem read?_visits_of_before {p : Int × Nat} (hp : inBounds w h p.1 p.2 = true) (ps : List (Int × Nat))
    (hps : ∀ q ∈ ps, inBounds w h q.1 q.2 = true) (hbefore : ∀ q ∈ ps, VisitedBefore p q) :
    Memory.read? (ps.foldl (visit fill w h) m) (idx w p.1 p.2) = Memory.read? m (idx w p.1 p.2) := by
  induction ps generalizing m with
  | nil => rfl
  | cons q ps ih =>
    obtain ⟨hq, hps⟩ := List.forall_mem_cons.1 hps
    obtain ⟨hpq, hbefore⟩ := List.forall_mem_cons.1 hbefore
    refine (ih hps hbefore).trans (read?_visit_of_ne (fun e => ?_) fun t ht hb e => ?_)
    · obtain ⟨hx, hy⟩ := idx_inj hp hq e
      exact hpq.ne (Prod.ext hx (Int.natCast_inj.1 hy))
    · obtain ⟨hx, hy⟩ := idx_inj hp hb e
      exact hpq.not_target ht ⟨hx.symm, hy.symm⟩

/-- A pixel keeps the threshold that its visit gave it. -/
theorem visits_white_or_black (ps : List (Int × Nat)) (hps : ∀ q ∈ ps, inBounds w h q.1 q.2 = true)
    (horder : ps.Pairwise VisitedBefore) {p : Int × Nat} (hp : p ∈ ps) :
    Memory.read? (ps.foldl (visit fill w h) m) (idx w p.1 p.2) = some white ∨
      Memory.read? (ps.foldl (visit fill w h) m) (idx w p.1 p.2) = some black := by
  induction ps generalizing m with
  | nil => cases hp
  | cons q ps ih =>
    obtain ⟨hq, hps'⟩ := List.forall_mem_cons.1 hps
    obtain ⟨hfirst, horder⟩ := List.pairwise_cons.1 horder
    rcases List.mem_cons.1 hp with rfl | hp
    · rw [List.foldl_cons, read?_visits_of_before hq ps hps' hfirst, read?_visit_self hq]
      exact (threshold_cases _).imp (congrArg some) (congrArg some)
    · exact ih hps' horder hp

/-- After the whole scan every byte of the image is WHITE or BLACK (R115). -/
theorem twoValued_visitOrder (hw : 0 < w) (hh : 0 < h) :
    Memory.twoValued ((visitOrder w h).foldl (visit fill w h) m) (w * h).toNat := by
  intro n hn
  obtain ⟨p, hp, rfl⟩ := exists_visit_of_lt hw hh hn
  have horder : (visitOrder w h).Pairwise VisitedBefore := by
    lift w to Nat using hw.le
    exact pairwise_rowsVisits (Int.natCast_pos.1 hw) 0 _
  exact visits_white_or_black _ (fun q hq => inBounds_of_mem_visitOrder hw hq) horder hp

end

/-- Settles O27: the scan leaves every pixel at its threshold. -/
theorem ditherOutputIsBlackOrWhite : Obligations.DitherOutputIsBlackOrWhite := by
  intro s hready
  obtain ⟨bs, -, -, hexec⟩ := ditherCompletes s hready
  obtain ⟨-, hw, hh, -, hcap, -⟩ := hready
  refine ⟨_, hexec, twoValued_visitOrder hw hh, ?_⟩
  have hmax := Config.maxPixels_le
  show (BitVec.ofNat 32 s.regN).toNat = s.regN
  rw [BitVec.toNat_ofNat, Nat.mod_eq_of_lt (by unfold Block.regN; omega)]

/-! ### DITHER on inputs that read alike -/

section

variable {R : Block → Block → Prop} {o' : Host.Outcome Block Fault Refusal}

/-- An outcome that is alike with a next block is a related next block, and with a fault the same fault. -/
theorem SameOutcome.of_next {t : Block} (h : SameOutcome R (.next t) o') : ∃ t', o' = .next t' ∧ R t t' := by
  cases o' with
  | next t' => exact ⟨t', rfl, h⟩
  | fault r => exact h.elim
  | refused r => exact h.elim

theorem SameOutcome.of_fault {r : Fault} (h : SameOutcome R (.fault r) o') : o' = .fault r := by
  cases o' with
  | next t' => exact h.elim
  | fault r' => exact congrArg _ (Eq.symm h)
  | refused r' => exact h.elim

end

/-- Commands of one outcome answer related next states, or the same fault. -/
theorem exec_of_sameOutcome {R : Block → Block → Prop} {i : Instr} {s s' : State}
    (h : SameOutcome R (s.toBlock.command i) (s'.toBlock.command i)) :
    (∀ t, exec i s = .next t → ∃ t', exec i s' = .next t' ∧ R t.toBlock t'.toBlock) ∧
    ∀ r, exec i s = .fault r → exec i s' = .fault r := by
  refine ⟨fun t ht => ?_, fun r hr => ?_⟩
  · rw [(exec_eq_next ht).1] at h
    obtain ⟨b, hb, hR⟩ := h.of_next
    exact ⟨{ s' with toBlock := b }, by rw [exec_eq_command, hb, State.onBlock_next], hR⟩
  · rw [exec_eq_command, State.onBlock_eq_fault] at hr ⊢
    rw [hr] at h
    exact h.of_fault

/-- Two blocks that hold one result of a DITHER of `n` pixels: ERR, OUT_LEN and, after a success, the bytes of MONO. -/
def Block.SameDither (n : Nat) (t t' : Block) : Prop :=
  t.err = t'.err ∧ t.outLen = t'.outLen ∧ (t.err = 0#4 → t.monoBuf.agree t'.monoBuf n)

theorem Block.sameDither_raiseError (n : Nat) (s s' : Block) (e : CommandError) :
    Block.SameDither n (s.raiseError e) (s'.raiseError e) :=
  ⟨rfl, rfl, fun herr => by cases e <;> simp [CommandError.code] at herr⟩

theorem Block.sameDither_complete {n len len' : Nat} {u u' : Block} (hlen : len = len')
    (hmono : u.monoBuf.agree u'.monoBuf n) :
    Block.SameDither n ((u.enter .finish).complete len) ((u'.enter .finish).complete len') :=
  ⟨rfl, congrArg (BitVec.ofNat 32) hlen, fun _ => hmono⟩

theorem runDither_sameOutcome {cap : Nat} {s s' : Block} (h : s.SameInput s') :
    SameOutcome (Block.SameDither s.pixels) (runDither cap s) (runDither cap s') := by
  unfold runDither
  rw [h.imgW, h.imgH, h.imgLen]
  cases hv : validateDither cap s.imgW s.imgH s.imgLen with
  | some e => exact Block.sameDither_raiseError _ _ _ e
  | none =>
    obtain ⟨hw, -⟩ := (validateDither_eq_none_iff _ _ _ _).1 hv
    rcases h.ditherScan hw with ⟨hn, hn'⟩ | ⟨m, m', hm, hm', ha⟩
    · rw [hn, hn']
      exact rfl
    · rw [hm, hm']
      exact Block.sameDither_complete h.pixels.symm ha

/-- Settles O28: the scans of one input agree in `MONO[0 .. N)`. -/
theorem ditherDependsOnItsInputOnly : Obligations.DitherDependsOnItsInputOnly := by
  intro s s' hidle hidle' hwidth hheight hlen hin
  have hsame : SameOutcome (Block.SameDither s.regN) (s.toBlock.command .dither) (s'.toBlock.command .dither) := by
    simp only [Block.command, Block.commandDither, (Block.busy_eq_false_iff _).2 hidle,
      (Block.busy_eq_false_iff _).2 hidle']
    exact runDither_sameOutcome (s := s.accept .dither) (s' := s'.accept .dither) ⟨hwidth, hheight, hlen, hin⟩
  obtain ⟨hnext, hfault⟩ := exec_of_sameOutcome hsame
  exact ⟨hnext, hfault _⟩

end Sys2Proof.Machine
end

section
/-! Images of one row and of one pixel (the inference of 40_dither_engine.md R120). -/

namespace Sys2Proof.Machine

/-! ### One row -/

/-- The only target of a visit in an image of one row is the next pixel, where there is one. -/
theorem target_inBounds_oneRow {w k : Nat} {t : Int × Int × Int} (ht : t ∈ targets (dirOf 0) k (0 : Nat))
    (hb : inBounds w 1 t.1 t.2.1 = true) : k + 1 < w ∧ t.1 = (k + 1 : Nat) ∧ t.2.1 = (0 : Nat) := by
  obtain ⟨-, hright, -, hdown⟩ := (inBounds_iff _ _ _ _).1 hb
  have hstep : (dirOf 0).step = 1 := rfl
  rcases mem_targets_cases ht with ⟨hnext, hrow⟩ | hbelow <;> omega

/-- A visit in an image of one row gives the pixel its threshold and the next pixel its fragment, and nothing else. -/
theorem read?_visit_oneRow (fill : Nat → Byte) (m : Memory) {w k : Nat} (hk : k < w) (n : Nat) :
    Memory.read? (visit fill w 1 m ((k : Int), 0)) n =
      if n = k then some (threshold (Memory.readOr fill m k))
      else if n = k + 1 ∧ n < w then
        some (accumulate (Memory.readOr fill m n) (frag 7 (residual (Memory.readOr fill m k))))
      else Memory.read? m n := by
  have hp : inBounds w 1 k (0 : Nat) = true := by simp [inBounds_iff, hk]
  have hidx : ∀ a : Nat, idx w a (0 : Nat) = a := by simp [idx]
  split_ifs with hself hnext
  · subst hself
    simpa only [hidx] using read?_visit_self (fill := fill) (m := m) (p := ((n : Int), 0)) hp
  · obtain ⟨rfl, hw⟩ := hnext
    simpa only [hidx] using read?_visit_target (fill := fill) (m := m) (p := ((k : Int), 0)) hp
      (t := ((k + 1 : Nat), (0 : Nat), 7)) (by simp [targets, dirOf, Dir.step]) (by simp [inBounds_iff]; omega)
  · refine read?_visit_of_ne (by simpa only [hidx] using hself) fun t ht hb => ?_
    obtain ⟨hw, hx, hy⟩ := target_inBounds_oneRow ht hb
    rw [hx, hy, hidx]
    omega

/-- The scan of a row of bytes `v` before pixel `k`: pixels behind it have the sample `c`, its own value has the
threshold `c`, and those beyond are untouched. -/
structure UniformUpTo (v c : Byte) (w k : Nat) (m : Memory) : Prop where
  behind : ∀ n, n < k → Memory.read? m n = some c
  here : k < w → ∃ b, Memory.read? m k = some b ∧ threshold b = c
  beyond : ∀ n, k < n → n < w → Memory.read? m n = some v

section

variable {v c : Byte} (hstep : ∀ b, threshold b = c → threshold (accumulate v (frag 7 (residual b))) = c)
include hstep

theorem UniformUpTo.visit {fill : Nat → Byte} {w k : Nat} {m : Memory} (h : UniformUpTo v c w k m) (hk : k < w) :
    UniformUpTo v c w (k + 1) (visit fill w 1 m ((k : Int), 0)) := by
  obtain ⟨b, hb, hbc⟩ := h.here hk
  have hread := read?_visit_oneRow fill m hk
  rw [Memory.readOr_of_read? hb, hbc] at hread
  refine ⟨fun n hn => ?_, fun hw => ⟨_, ?_, hstep b hbc⟩, fun n hn hw => ?_⟩
  · rw [hread]
    split_ifs with hself hnext
    · rfl
    · omega
    · exact h.behind n (by omega)
  · rw [hread, if_neg (by omega), if_pos ⟨rfl, hw⟩, Memory.readOr_of_read? (h.beyond _ (by omega) hw)]
  · rw [hread, if_neg (by omega), if_neg (by omega)]
    exact h.beyond n (by omega) hw

/-- The whole row, pixel by pixel. -/
theorem uniformUpTo_visits {fill : Nat → Byte} {w : Nat} {m : Memory} (h : UniformUpTo v c w 0 m) {k : Nat}
    (hk : k ≤ w) : UniformUpTo v c w k (((List.range k).map (visitAt w 0)).foldl (visit fill w 1) m) := by
  induction k with
  | zero => exact h
  | succ k ih =>
    rw [List.range_succ, List.map_append, List.foldl_append]
    exact (ih (by omega)).visit hstep hk

/-- A row of bytes `v` dithers to a row of `c` whatever its width, where `v` and every value that a visit makes of it
have the threshold `c` (R120). -/
theorem uniformRow_dithers (hv : threshold v = c) {s : State} (hready : s.DitherReady) (hone : s.regH = 1)
    (hin : ∀ n, n < s.regN → Memory.read? s.inBuf n = some v) :
    ∃ t, exec .dither s = .next t ∧ ∀ n, n < s.regN → Memory.read? t.monoBuf n = some c := by
  obtain ⟨bs, hlen, hbs, hexec⟩ := ditherCompletes s hready
  obtain ⟨-, hw, -⟩ := hready
  obtain ⟨w, hw⟩ := Int.eq_ofNat_of_zero_le hw.le
  have hN : s.regN = w := by rw [Block.regN, hone, hw]; simp
  have hcopy : ∀ n, n < w → Memory.read? (Memory.writeRun s.monoBuf 0 bs) n = some v := fun n hn => by
    rw [Memory.read?_writeRun, if_pos (by omega), Nat.sub_zero, ← hbs n (by omega), hin n (by omega)]
  have hrow : visitOrder w 1 = (List.range w).map (visitAt w 0) := by
    simp only [visitOrder, Int.toNat_one, rowsVisits, rowVisits_start, List.append_nil]
  have hall := uniformUpTo_visits (fill := Config.freeMono) hstep
    ⟨nofun, fun h0 => ⟨v, hcopy 0 h0, hv⟩, fun n _ => hcopy n⟩ (le_refl w)
  refine ⟨_, hexec, fun n hn => ?_⟩
  rw [hone, hw, hrow]
  exact hall.behind n (hN ▸ hn)

end

theorem natAbs_frag_seven_le (b : Byte) : (frag 7 (residual b)).natAbs ≤ 55 :=
  natAbs_frag_le 7 (residual_bounds b).1 (residual_bounds b).2

/-- What a visit makes of a 200 stays above the threshold: its fragment lowers the 200 by 55 at most. -/
theorem threshold_accumulate_200 (b : Byte) : threshold (accumulate 200#8 (frag 7 (residual b))) = white := by
  have hfrag := natAbs_frag_seven_le b
  have hsum := toNat_accumulate 200#8 (frag 7 (residual b))
  rw [BitVec.toNat_ofNat] at hsum
  rw [threshold_eq_white_iff]
  omega

/-- What the visit of a BLACK pixel makes of a 50 stays below it: its fragment raises the 50 by 55 at most. -/
theorem threshold_accumulate_50 {b : Byte} (hb : threshold b = black) :
    threshold (accumulate 50#8 (frag 7 (residual b))) = black := by
  have hfrag := natAbs_frag_seven_le b
  have hsum := toNat_accumulate 50#8 (frag 7 (residual b))
  rw [BitVec.toNat_ofNat] at hsum
  rw [threshold_eq_black_iff] at hb ⊢
  have hnonneg : 0 ≤ frag 7 (residual b) := by
    rw [residual_eq, if_neg (by omega)]
    exact Int.tdiv_nonneg (by omega) (by decide)
  omega

/-- Settles O33: the threshold of a uniform row's byte is that of every value that a visit makes of it. -/
theorem uniformRowsDitherUniformly : Obligations.UniformRowsDitherUniformly := fun _ hready hone =>
  ⟨uniformRow_dithers (fun b _ => threshold_accumulate_200 b) rfl hready hone,
    uniformRow_dithers (fun _ => threshold_accumulate_50) rfl hready hone⟩

/-! ### One pixel -/

/-- A visit of the only pixel of an image thresholds it: every target lies outside. -/
theorem visit_onePixel (fill : Nat → Byte) (m : Memory) :
    visit fill 1 1 m (0, 0) = Memory.write m 0 (threshold (Memory.readOr fill m 0)) := rfl

/-- Settles O34: the copy of the one byte, and its one visit. -/
theorem onePixelImage : Obligations.OnePixelImage := by
  intro s b hidle hw hh hlen hr
  have hN : s.regN = 1 := by rw [Block.regN, hw, hh]; rfl
  have hready : s.DitherReady := by
    have hmax := Config.eight_le_maxPixels
    refine ⟨hidle, by omega, by omega, by rw [hlen, hw, hh]; rfl, by rw [hw, hh]; omega, fun k hk => ?_⟩
    obtain rfl : k = 0 := by omega
    rw [hr]
    rfl
  obtain ⟨bs, hbslen, hbs, hexec⟩ := ditherCompletes s hready
  rw [hN] at hbslen hexec
  obtain ⟨a, rfl⟩ := List.length_eq_one_iff.1 hbslen
  obtain rfl : b = a := by simpa [hr] using hbs 0 (by omega)
  rw [hexec, hw, hh, show visitOrder 1 1 = [(0, 0)] from rfl, List.foldl_cons, List.foldl_nil, visit_onePixel]
  rw [Memory.writeRun, Memory.writeRun, Memory.readOr_of_read? (Memory.read?_write_self _ _ _)]
  rfl

end Sys2Proof.Machine
end

section
/-! The Bit Packer on one group and its group order (41_bit_packer.md R141 to R143). -/

namespace Sys2Proof.Machine

/-! ### One group -/

/-- The bit of one sample in the accumulator. -/
theorem getLsbD_sample (b : Byte) {k n : Nat} (hk : k < 8) (hn : n < 8) :
    (if b = white then 1#8 <<< (7 - k) else 0#8).getLsbD (7 - n) = true ↔ n = k ∧ b = white := by
  split
  · rename_i hb
    rw [← BitVec.twoPow_eq, BitVec.getLsbD_twoPow]
    simp only [hb, and_true, Bool.and_eq_true, decide_eq_true_eq]
    omega
  · rename_i hb
    simp [hb]

/-- The accumulator of samples from offset `k` on: bit `7 - n` is set exactly by a WHITE sample at offset `n` (R142). -/
theorem getLsbD_serialise {k n : Nat} {bs : List Byte} (hlen : k + bs.length ≤ 8) (hn : n < 8) :
    (serialise k bs).getLsbD (7 - n) = true ↔ k ≤ n ∧ bs[n - k]? = some white := by
  induction bs generalizing k with
  | nil => simp [serialise]
  | cons b bs ih =>
    rw [List.length_cons] at hlen
    rw [serialise, BitVec.getLsbD_or, Bool.or_eq_true, getLsbD_sample b (by omega) hn, ih (by omega)]
    rcases Nat.lt_trichotomy n k with h | rfl | h
    · omega
    · simp
    · have hnext : n - k = n - (k + 1) + 1 := by omega
      rw [hnext, List.getElem?_cons_succ]
      simp [h.ne', h.le, Nat.succ_le_of_lt h]

/-- The emitted byte of eight samples: bit `7 - k` is set exactly where the sample at offset `k` is not WHITE (R143). -/
theorem getLsbD_packByte {bs : List Byte} (hlen : bs.length = 8) {k : Nat} (hk : k < 8) :
    (packByte bs).getLsbD (7 - k) = true ↔ bs[k]? ≠ some white := by
  have hacc := getLsbD_serialise (k := 0) (bs := bs) (by omega) hk
  rw [packByte, BitVec.getLsbD_not, decide_eq_true (by omega : 7 - k < 8), Bool.true_and, Bool.not_eq_true',
    ← Bool.not_eq_true, hacc]
  simp

/-- A group whose samples have values writes its byte. -/
theorem packGroup_of_readRun {src : Nat → Option Byte} {w : Nat} {p : Nat × Nat} {bs : List Byte}
    (h : readRun src (p.1 * w + 8 * p.2) 8 = some bs) (out : Memory) :
    packGroup src w out p = some (Memory.write out (p.1 * (w / 8) + p.2) (packByte bs)) := by
  rw [packGroup, h]

/-- Settles O30: the group's bit in the accumulator, and the one write of its complement. -/
theorem packGroupSerialisesAndInverts : Obligations.PackGroupSerialisesAndInverts := by
  intro src w out i g bs hlen hsrc
  have hrun : readRun src (i * w + 8 * g) 8 = some bs := (readRun_eq_some_iff _ _ _ _).2 ⟨hlen, hsrc⟩
  refine ⟨serialise 0 bs, _, packGroup_of_readRun (p := (i, g)) hrun out, fun k hk => ?_,
    Memory.read?_write_self _ _ _, fun n hn => Memory.read?_write_of_ne _ _ hn⟩
  rw [getLsbD_serialise (by omega) hk]
  simp [white]

/-! ### The order of the groups -/

/-- A whole row is its groups by number, from left to right. -/
theorem rowGroups_zero (w i : Nat) : rowGroups w 0 i = (List.range (w / 8)).map (fun g => (i, g)) := by
  rw [rowGroups, Nat.sub_zero, List.range_eq_range']

theorem length_rowsGroups (w i n : Nat) : (rowsGroups w i n).length = w / 8 * n := by
  induction n generalizing i with
  | zero => rfl
  | succ n ih =>
    rw [rowsGroups, List.length_append, ih, rowGroups_zero, List.length_map, List.length_range, Nat.mul_succ,
      Nat.add_comm]

/-- Row `r` of a run of rows stands at positions `r * (W / 8)` to `r * (W / 8) + W / 8 - 1` of it. -/
theorem getElem?_rowsGroups {w n r g : Nat} (i : Nat) (hr : r < n) (hg : g < w / 8) :
    (rowsGroups w i n)[r * (w / 8) + g]? = some (i + r, g) := by
  induction n generalizing i r with
  | zero => omega
  | succ n ih =>
    have hlen : ((List.range (w / 8)).map (fun g => (i, g))).length = w / 8 := by simp
    rw [rowsGroups, rowGroups_zero]
    cases r with
    | zero => rw [List.getElem?_append_left (by omega)]; simp [hg]
    | succ r =>
      have hpos : (r + 1) * (w / 8) + g = w / 8 + (r * (w / 8) + g) := by rw [Nat.succ_mul]; omega
      rw [List.getElem?_append_right (by omega), hlen, hpos, Nat.add_sub_cancel_left, ih (i + 1) (by omega)]
      simp only [Option.some.injEq, Prod.mk.injEq, and_true]
      omega

/-- Settles O31: the rows one after the other, each by its groups' numbers. -/
theorem groupOrderIsRowMajor : Obligations.GroupOrderIsRowMajor := fun w h =>
  ⟨length_rowsGroups w 0 h, fun i g hi hg => by simpa [groupOrder] using getElem?_rowsGroups 0 hi hg⟩

end Sys2Proof.Machine
end

section
/-! What packing a whole image leaves in OUT, and the commands that pack (41_bit_packer.md R144 to R149). -/

namespace Sys2Proof.Machine

/-! ### A sequence of groups -/

section

variable {src : Nat → Option Byte} {w : Nat}

/-- Packing answers exactly when the first group's samples have values and the rest packs onto its byte. -/
theorem packGroups_cons_eq_some {p : Nat × Nat} {ps : List (Nat × Nat)} {out m : Memory} :
    packGroups src w (p :: ps) out = some m ↔
      ∃ bs, readRun src (p.1 * w + 8 * p.2) 8 = some bs ∧
        packGroups src w ps (Memory.write out (p.1 * (w / 8) + p.2) (packByte bs)) = some m := by
  rw [packGroups, packGroup]
  cases readRun src (p.1 * w + 8 * p.2) 8 <;> simp

/-- Packing leaves every byte that is none of its groups'. -/
theorem read?_packGroups_of_ne {ps : List (Nat × Nat)} {out m : Memory} {n : Nat}
    (hr : packGroups src w ps out = some m) (hn : ∀ p ∈ ps, n ≠ p.1 * (w / 8) + p.2) :
    Memory.read? m n = Memory.read? out n := by
  induction ps generalizing out with
  | nil => cases hr; rfl
  | cons p ps ih =>
    obtain ⟨hp, hps⟩ := List.forall_mem_cons.1 hn
    obtain ⟨bs, -, hr⟩ := packGroups_cons_eq_some.1 hr
    rw [ih hr hps, Memory.read?_write_of_ne _ _ hp]

/-- Groups inside the rows have their own output bytes. -/
theorem group_index_inj {c : Nat} {p q : Nat × Nat} (hp : p.2 < c) (hq : q.2 < c)
    (h : p.1 * c + p.2 = q.1 * c + q.2) : p = q := by
  have hparts : ∀ r : Nat × Nat, r.2 < c → (r.1 * c + r.2) / c = r.1 ∧ (r.1 * c + r.2) % c = r.2 := fun r hr =>
    (Nat.div_mod_unique (by omega)).2 ⟨by rw [Nat.add_comm, Nat.mul_comm], hr⟩
  obtain ⟨hp1, hp2⟩ := hparts p hp
  obtain ⟨hq1, hq2⟩ := hparts q hq
  exact Prod.ext (hp1.symm.trans (h ▸ hq1)) (hp2.symm.trans (h ▸ hq2))

/-- Packing leaves in each of its groups' bytes the packing of the group's samples. -/
theorem read?_packGroups_of_mem {ps : List (Nat × Nat)} {out m : Memory} (hr : packGroups src w ps out = some m)
    (hps : ∀ p ∈ ps, p.2 < w / 8) {p : Nat × Nat} (hp : p ∈ ps) :
    ∃ bs, readRun src (p.1 * w + 8 * p.2) 8 = some bs ∧
      Memory.read? m (p.1 * (w / 8) + p.2) = some (packByte bs) := by
  induction ps generalizing out with
  | nil => cases hp
  | cons q ps ih =>
    obtain ⟨hq, htail⟩ := List.forall_mem_cons.1 hps
    obtain ⟨bs, hbs, hr⟩ := packGroups_cons_eq_some.1 hr
    by_cases hmem : p ∈ ps
    · exact ih hr htail hmem
    · obtain rfl : p = q := (List.mem_cons.1 hp).resolve_right hmem
      refine ⟨bs, hbs, ?_⟩
      rw [read?_packGroups_of_ne hr fun p' hp' e => hmem (group_index_inj hq (htail p' hp') e ▸ hp'),
        Memory.read?_write_self]

end

/-! ### A whole image -/

/-- Packing every group of an image from the samples of `buf` leaves their packing in OUT. -/
theorem packingOf_packGroups {src : Nat → Option Byte} {w h : Nat} {buf out m : Memory}
    (hsrc : ∀ n, n < w * h → src n = Memory.read? buf n) (hr : packGroups src w (groupOrder w h) out = some m) :
    PackingOf buf m w h := by
  intro i g hi hg
  obtain ⟨bs, hbs, hread⟩ :=
    read?_packGroups_of_mem hr (fun p hp => (mem_groupOrder hp).2) (mem_groupOrder_of_lt hi hg)
  obtain ⟨hlen, hsamples⟩ := (readRun_eq_some_iff _ _ _ _).1 hbs
  refine ⟨_, hread, fun k hk => ?_⟩
  rw [getLsbD_packByte hlen hk, ← hsamples k hk, hsrc _ (group_sample_lt hi hg hk)]

/-- Samples that are all `c` pack to 0x00 in every group where `c` is WHITE, and to 0xFF where it is not. -/
theorem PackingOf.read?_of_uniform {src out : Memory} {w h : Nat} (hp : PackingOf src out w h) {c : Byte}
    (hc : ∀ n, n < w * h → Memory.read? src n = some c) {i g : Nat} (hi : i < h) (hg : g < w / 8) :
    Memory.read? out (i * (w / 8) + g) = some (if c = white then 0x00#8 else 0xFF#8) := by
  obtain ⟨b, hread, hbits⟩ := hp i g hi hg
  rw [hread, Option.some.injEq]
  refine BitVec.eq_of_getLsbD_eq fun j hj => ?_
  have hbit : b.getLsbD j = true ↔ c ≠ white := by
    have := hbits (7 - j) (by omega)
    rwa [hc _ (group_sample_lt hi hg (by omega)), ne_eq, Option.some.injEq, show 7 - (7 - j) = j by omega] at this
  have hones : (0xFF#8).getLsbD j = true := (BitVec.getLsbD_allOnes (v := 8)).trans (decide_eq_true hj)
  split
  · rename_i hwhite
    simpa [hwhite] using hbit
  · rename_i hblack
    rw [hones, hbit]
    exact hblack

section

variable {s : Block}

/-- Packing an image whose source has the bytes of `buf`, all of them with a value, leaves their packing in OUT and
keeps OUT from `(W / 8) * H` on (R148). -/
theorem Block.packAll_of_covers {op : Op} {buf : Memory} (hw : 0 < s.imgW) (hh : 0 < s.imgH)
    (hsrc : ∀ n, n < s.pixels → s.packSrc op n = Memory.read? buf n) (hcov : buf.covers s.pixels) :
    ∃ out, PackingOf buf out s.imgW.toNat s.imgH.toNat ∧
      (∀ n, s.packedLen ≤ n → Memory.read? out n = Memory.read? s.outBuf n) ∧
      s.packAll op = some { s with outBuf := out } := by
  rw [Block.pixels, ← toNat_mul_toNat hw hh] at hsrc hcov
  cases hr : s.packAll op with
  | none =>
    obtain ⟨p, hp, k, hk, hnone⟩ := packGroups_eq_none (Block.packWith_eq_none hr)
    obtain ⟨hi, hg⟩ := mem_groupOrder hp
    have hlt := group_sample_lt hi hg hk
    have hsome := hcov _ hlt
    rw [← hsrc _ hlt, hnone] at hsome
    cases hsome
  | some t =>
    obtain ⟨out, hout, rfl⟩ := Block.packWith_eq_some hr
    obtain ⟨_, h, hframe⟩ := Block.packAll_frame hw hr
    cases h
    exact ⟨out, packingOf_packGroups hsrc hout, hframe, rfl⟩

/-- DITHER_PACK packs the MONO bytes that have values (R148). -/
theorem Block.packSrc_ditherPack {N n : Nat} (hcov : s.monoBuf.covers N) (hn : n < N) :
    s.packSrc .ditherPack n = Memory.read? s.monoBuf n := by
  obtain ⟨b, hb⟩ := Option.isSome_iff_exists.1 (hcov n hn)
  rw [hb]
  exact congrArg some (Memory.readOr_of_read? hb)

/-! ### The commands PACK and DITHER_PACK -/

variable {cap : Nat}

/-- PACK whose checks fail ends with their error. -/
theorem runPack_of_error {e : CommandError} (hv : validatePack cap s.imgW s.imgH s.imgLen = some e) :
    runPack cap s = .next (s.raiseError e) := by
  simp [runPack, hv]

/-- PACK whose checks pass completes with its packing. -/
theorem runPack_of_packAll {t : Block} (hv : validatePack cap s.imgW s.imgH s.imgLen = none)
    (h : s.packAll .pack = some t) : runPack cap s = .next ((t.enter .finish).complete t.packedLen) := by
  simp [runPack, hv, h]

/-- DITHER_PACK whose checks pass completes with the packing of its scan. -/
theorem runDitherPack_of_packAll {t u : Block} (hv : validatePack cap s.imgW s.imgH s.imgLen = none)
    (ht : s.ditherScan = some t) (hu : t.packAll .ditherPack = some u) :
    runDitherPack cap s = .next ((u.enter .finish).complete u.packedLen) := by
  simp [runDitherPack, hv, ht, hu]

/-- The packing commands reject a width that is no whole number of bytes whatever LEN is (42_command_sequencing.md
R164). -/
theorem validatePack_of_width {w h : Int} {len : Nat} (h8 : w % 8 ≠ 0) :
    validatePack cap w h len = some .invalidDimension :=
  if_pos (.inr (.inl h8))

/-- A block that is ready to pack passes the checks of the packing commands. -/
theorem Block.PackReady.validatePack_eq_none (h : s.PackReady) :
    validatePack Config.maxPixels s.regW s.regH s.inLen.toNat = none := by
  obtain ⟨⟨-, hw, hh, hlen, hcap, -⟩, h8⟩ := h
  exact (validatePack_eq_none_iff _ _ _ _).2 ⟨hw, hh, hlen, hcap, h8⟩

end

section

variable {s : State}

theorem exec_pack_of_idle (hidle : s.phase = .idle) :
    exec .pack s = s.onBlock (runPack Config.maxPixels (s.accept .pack)) := by
  rw [exec_eq_command, Block.command, Block.commandPack, (Block.busy_eq_false_iff _).2 hidle]
  rfl

theorem exec_ditherPack_of_idle (hidle : s.phase = .idle) :
    exec .ditherPack s = s.onBlock (runDitherPack Config.maxPixels (s.accept .ditherPack)) := by
  rw [exec_eq_command, Block.command, Block.commandDitherPack, (Block.busy_eq_false_iff _).2 hidle]
  rfl

end

/-- Settles O17: the checks pass and IN is written over the image, so every group packs. -/
theorem packCompletes : Obligations.PackCompletes := by
  intro s hready
  have hv := hready.validatePack_eq_none
  obtain ⟨⟨hidle, hw, hh, -, -, hcov⟩, -⟩ := hready
  obtain ⟨out, hpack, hframe, hall⟩ := Block.packAll_of_covers (s := s.accept .pack) (op := .pack) hw hh
    (fun _ _ => rfl) hcov
  refine ⟨out, hpack, hframe, ?_⟩
  rw [exec_pack_of_idle hidle, runPack_of_packAll hv hall]
  rfl

section

variable {s t : State}

/-- The scan of every command accepted where DITHER completes leaves the MONO that DITHER does. -/
theorem ditherScan_of_exec_dither (hready : s.DitherReady) (ht : exec .dither s = .next t) (op : Op) :
    (s.accept op).ditherScan = some { s.accept op with monoBuf := t.monoBuf } := by
  obtain ⟨bs, hlen, hbs, hexec⟩ := ditherCompletes s hready
  obtain rfl := Host.Outcome.next.inj (hexec.symm.trans ht)
  exact Block.ditherScan_of_readRun (s := s.accept op)
    ((readRun_eq_some_iff _ _ _ _).2 ⟨hlen, fun k hk => by simpa using hbs k hk⟩)

/-- DITHER that completes has given every byte of the image a value. -/
theorem covers_of_exec_dither (hready : s.DitherReady) (ht : exec .dither s = .next t) : t.monoBuf.covers s.regN := by
  obtain ⟨t', hexec, htwo, -⟩ := ditherOutputIsBlackOrWhite s hready
  obtain rfl := Host.Outcome.next.inj (hexec.symm.trans ht)
  intro n hn
  rcases htwo n hn with h | h <;> rw [h] <;> rfl

/-- DITHER_PACK leaves in MONO what DITHER does, and in OUT the packing of it (42_command_sequencing.md R162). -/
theorem exec_ditherPack_of_exec_dither (hready : s.PackReady) (ht : exec .dither s = .next t) :
    ∃ out, PackingOf t.monoBuf out s.regW.toNat s.regH.toNat ∧
      (∀ n, (s.regW / 8 * s.regH).toNat ≤ n → Memory.read? out n = Memory.read? s.outBuf n) ∧
      exec .ditherPack s = .next
        { s.endedWith .ditherPack .finish 0#4 (s.regW / 8 * s.regH).toNat with
          monoBuf := t.monoBuf, outBuf := out } := by
  have hscan := ditherScan_of_exec_dither hready.1 ht .ditherPack
  have hcov := covers_of_exec_dither hready.1 ht
  have hv := hready.validatePack_eq_none
  obtain ⟨⟨hidle, hw, hh, -⟩, -⟩ := hready
  obtain ⟨out, hpack, hframe, hall⟩ := Block.packAll_of_covers (op := .ditherPack)
    (s := { s.accept .ditherPack with monoBuf := t.monoBuf }) hw hh (fun _ => Block.packSrc_ditherPack hcov) hcov
  refine ⟨out, hpack, hframe, ?_⟩
  rw [exec_ditherPack_of_idle hidle, runDitherPack_of_packAll hv hscan hall]
  rfl

/-- A row that dithers to `c` packs to 0x00 in every group where `c` is WHITE, and to 0xFF where it is not (R149). -/
theorem uniformRow_packs (hready : s.PackReady) (hone : s.regH = 1) {c : Byte}
    (hrow : ∃ t, exec .dither s = .next t ∧ ∀ n, n < s.regN → Memory.read? t.monoBuf n = some c) :
    ∃ t, exec .ditherPack s = .next t ∧ (∀ n, n < s.regN → Memory.read? t.monoBuf n = some c) ∧
      ∀ g, g < s.regN / 8 → Memory.read? t.outBuf g = some (if c = white then 0x00#8 else 0xFF#8) := by
  obtain ⟨t, ht, hmono⟩ := hrow
  obtain ⟨out, hpack, -, hexec⟩ := exec_ditherPack_of_exec_dither hready ht
  have hN : s.regN = s.regW.toNat := by rw [Block.regN, hone, mul_one]
  rw [hone, Int.toNat_one] at hpack
  refine ⟨_, hexec, hmono, fun g hg => ?_⟩
  simpa using hpack.read?_of_uniform (i := 0) (g := g) (fun n hn => hmono n (by omega)) (by decide) (by omega)

end

/-- Settles O32: the rows dither to one sample, whose groups all pack to one byte; a width of no whole number of bytes
fails PACK's checks. -/
theorem uniformRowsPackUniformly : Obligations.UniformRowsPackUniformly := by
  refine ⟨fun s hready hone hin => ?_, fun s hready hone hin => ?_, fun s hidle _ h8 => ?_⟩
  · exact uniformRow_packs hready hone ((uniformRowsDitherUniformly s hready.1 hone).1 hin)
  · exact uniformRow_packs hready hone ((uniformRowsDitherUniformly s hready.1 hone).2 hin)
  · rw [exec_pack_of_idle hidle, runPack_of_error (s := s.accept .pack) (validatePack_of_width h8)]
    exact ⟨_, rfl, rfl⟩

end Sys2Proof.Machine
end

section
/-! Issue and dispatch of the commands (42_command_sequencing.md R160 to R162, R168), and the turns that a step takes (R170). -/

namespace Sys2Proof.Machine

/-! ### Issue -/

/-- Settles O9: CMD is a register, and its write while idle is the acceptance of the decoded word. -/
theorem cmdWriteWhileIdleIsAccepted : Obligations.CmdWriteWhileIdleIsAccepted := by
  intro s w hidle
  refine (hostAccess_cmd s w).trans ?_
  rw [Block.issue_of_idle _ ((Block.busy_eq_false_iff _).2 hidle)]
  rfl

/-- Settles O10: a CMD write while busy is the drop, and so is every command. -/
theorem commandWhileBusyIsDropped : Obligations.CommandWhileBusyIsDropped := by
  intro s hrun
  have hb : s.busy = true := (Block.busy_iff _).2 hrun
  refine ⟨fun w => (hostAccess_cmd s w).trans ?_, fun i => ?_⟩
  · rw [Block.issue_of_busy _ hb]
    rfl
  · rw [exec_eq_command, Block.command_of_busy i hb]
    rfl

theorem Block.commandIllegal_of_idle {s : Block} (hb : s.busy = false) (w : Word) :
    s.commandIllegal w = .next ((s.accept .illegal).raiseError .illegalCommand) := by
  simp [Block.commandIllegal, hb]

/-- Settles O13: the accepted command raises its error at once. -/
theorem illegalCommandEndsAtOnce : Obligations.IllegalCommandEndsAtOnce := by
  intro s w hidle
  rw [exec_eq_command, Block.command, Block.commandIllegal_of_idle ((Block.busy_eq_false_iff _).2 hidle)]
  rfl

/-- Settles O18: DITHER completes, and DITHER_PACK packs the MONO that DITHER leaves. -/
theorem ditherPackCompletes : Obligations.DitherPackCompletes := by
  intro s hready
  obtain ⟨bs, -, -, hdither⟩ := ditherCompletes s hready.1
  obtain ⟨out, hpack, hframe, hexec⟩ := exec_ditherPack_of_exec_dither hready hdither
  exact ⟨_, out, hdither, hpack, hframe, hexec⟩

/-! ### The step and its next event -/

section

variable {s : State} {e : Event} {run : Block → Host.Outcome Block Fault Refusal}

/-- With no fault recorded, an event of the engine is the engine's turn at its grain. -/
theorem takeTurn_grain (hg : e.grain? = some run) (hf : s.fault = none) :
    takeTurn e s = s.onBlock (engineTurn run s.toBlock) := by
  cases e <;> cases hg <;> simp [takeTurn, State.heard, Block.turn, unlessFaulted, hf]

/-- The engine's turn of a running command, where a fault that it meets is recorded (R170). -/
theorem takeTurn_grain_of_run (hg : e.grain? = some run) (hf : s.fault = none) (hrun : s.phase = .run) :
    takeTurn e s = s.onBlock (orRecorded s.toBlock (run s.toBlock)) := by
  rw [takeTurn_grain hg hf, engineTurn_eq, if_pos ((Block.busy_iff _).2 hrun)]

/-- The engine's turn does nothing to an idle block (60_exceptions.md R225). -/
theorem takeTurn_grain_of_idle (hg : e.grain? = some run) (hf : s.fault = none) (hidle : s.phase = .idle) :
    takeTurn e s = .next s := by
  rw [takeTurn_grain hg hf, engineTurn_eq, (Block.busy_eq_false_iff _).2 hidle]
  rfl

end

/-- Settles O5: a step is the turn of the event it takes, and each event's turn is known where no fault is recorded. -/
theorem stepTakesTheScheduledTurn : Obligations.StepTakesTheScheduledTurn := by
  refine ⟨fun s rest hf => ?_, fun _ _ _ _ => ⟨rfl, rfl, rfl, rfl⟩⟩
  refine ⟨fun t hs => ?_, fun a x hs => ?_, fun hs hrun => ?_, fun hs hrun => ?_, fun hs hrun => ?_,
    fun e he hs hidle => ?_, fun hs hrun => ?_, fun hs hidle => ?_⟩
  · exact (step_of_cons hs).trans (takeTurn_host t hf)
  · exact (step_of_cons hs).trans (takeTurn_system a x hf)
  · exact (step_of_cons hs).trans (takeTurn_grain_of_run rfl hf hrun)
  · exact (step_of_cons hs).trans (takeTurn_grain_of_run rfl hf hrun)
  · exact (step_of_cons hs).trans (takeTurn_grain_of_run rfl hf hrun)
  · rw [step_of_cons hs]
    rcases he with rfl | rfl | rfl <;> exact takeTurn_grain_of_idle rfl hf hidle
  · exact (step_of_nil hs).trans (takeTurn_grain_of_run rfl hf hrun)
  · exact (step_of_nil hs).trans (takeTurn_grain_of_idle rfl hf hidle)

/-- Settles O6: the turn of a faulted block answers the fault, but a reset keeps it. -/
theorem faultedStateStaysFaulted : Obligations.FaultedStateStaysFaulted := by
  intro s r hf
  obtain ⟨e, s', he, hstep⟩ := step_eq_onBlock s
  refine ⟨fun hne => ?_, fun hreset => ?_⟩
  · have hturn : e ≠ .reset := by
      rintro rfl
      exact hne (State.takes_scheduled he (by simp))
    rw [hstep, Block.turn_of_fault hf hturn, State.onBlock_fault]
  · obtain rfl : e = .reset := by
      rcases he with he | ⟨hnil, -⟩
      · exact Option.some.inj (he.symm.trans hreset)
      · simp [hnil] at hreset
    exact ⟨_, hstep, hf, rfl⟩

end Sys2Proof.Machine
end

section
/-! The stages of a running command (42_command_sequencing.md R169, R170): every command ends, the atomic command is the staged one, and the finest grain gives the same result. -/

namespace Sys2Proof.Machine

/-! ### Going on while busy -/

/-- An outcome of the engine, and from a block that is still busy the rest of the command by `run`. -/
def goOn (run : Block → Host.Outcome Block Fault Refusal) :
    Host.Outcome Block Fault Refusal → Host.Outcome Block Fault Refusal
  | .next t => if t.busy then run t else .next t
  | .fault r => .fault r
  | .refused r => .refused r

section

variable {run : Block → Host.Outcome Block Fault Refusal}

theorem goOn_of_busy {t : Block} (h : t.busy = true) : goOn run (.next t) = run t := if_pos h

theorem goOn_of_idle {t : Block} (h : t.busy = false) : goOn run (.next t) = .next t := by simp [goOn, h]

/-- Leaving a stage of a busy block goes on in the stage after it. -/
theorem goOn_leaveStage {st next : Stage} {t : Block} (hnext : nextStage t.op st = some next) (hb : t.busy = true) :
    goOn run (leaveStage st (some t)) = run (t.enter next) := by
  simp [leaveStage, hnext, goOn, hb]

end

theorem runStages_succ (cap fuel : Nat) (s : Block) :
    runStages cap (fuel + 1) s = goOn (runStages cap fuel) (stageRest cap s) := by
  rw [runStages]
  cases stageRest cap s <;> rfl

theorem runVisits_succ (cap fuel : Nat) (s : Block) :
    runVisits cap (fuel + 1) s = goOn (runVisits cap fuel) (visitStep cap s) := by
  rw [runVisits]
  cases visitStep cap s <;> rfl

/-! ### The stages in their fixed order -/

/-- How many stages a command can have from a stage on, this one among them (R169). -/
def Stage.left : Stage → Nat
  | .validate => 5
  | .copy => 4
  | .scan => 3
  | .pack => 2
  | .finish => 1

theorem Stage.left_pos (st : Stage) : 0 < st.left := by
  cases st <;> decide

theorem Stage.left_le_five (st : Stage) : st.left ≤ 5 := by
  cases st <;> decide

/-- No command goes back to a stage, or stays in one. -/
theorem nextStage_left {op : Op} {st next : Stage} (h : nextStage op st = some next) : next.left < st.left := by
  cases op <;> cases st <;> cases h <;> decide

section

variable {cap : Nat} {s t : Block}

theorem leaveStage_left {st : Stage} {r : Option Block} (h : leaveStage st r = .next t) : t.stage.left < st.left := by
  rcases leaveStage_cases st r with ⟨-, he⟩ | ⟨u, next, -, hnext, he⟩ | ⟨u, -, -, he⟩ <;> rw [he] at h <;> cases h
  exact nextStage_left hnext

/-- A stage that does not end the command leaves it in a later stage. -/
theorem stageRest_left (h : stageRest cap s = .next t) (hb : t.busy = true) : t.stage.left < s.stage.left := by
  unfold stageRest at h
  cases hs : s.stage <;> simp only [hs] at h
  case validate =>
    rcases validateStage_cases cap s with ⟨e, -, he⟩ | ⟨st, -, hnext, he⟩ <;> rw [he] at h <;> cases h
    · simp at hb
    · exact nextStage_left hnext
  case finish =>
    unfold finishStage at h
    split at h <;> cases h
    simp at hb
  all_goals exact leaveStage_left h

/-- Everything a stage leaves: an ended command, or the same command still running on the same input. -/
theorem stageRest_next_cases (h : stageRest cap s = .next t) :
    (t.phase = .idle ∧ t.done = true) ∨
    (t.busy = s.busy ∧ t.inBuf = s.inBuf ∧ t.pixels = s.pixels ∧ (t.Validated cap ↔ s.Validated cap)) := by
  cases stageRest_move h with
  | raised e => exact .inl ⟨rfl, rfl⟩
  | completed len => exact .inl ⟨rfl, rfl⟩
  | moved mono out st i j d => exact .inr ⟨rfl, rfl, rfl, .rfl⟩

end

/-! ### Every running command ends -/

/-- Checks that pass do so in a block that is just large enough for the image. -/
theorem Block.Validated.at_pixels {cap : Nat} {s : Block} (hv : s.Validated cap) : s.Validated s.pixels := by
  obtain ⟨hop, hw, hh, hlen, -, h8⟩ := validate_eq_none hv
  have hfit : s.imgW * s.imgH ≤ (s.pixels : Int) := Int.self_le_toNat _
  unfold Block.Validated
  cases ho : s.op with
  | dither => exact (validateDither_eq_none_iff _ _ _ _).2 ⟨hw, hh, hlen, hfit⟩
  | pack | ditherPack => exact (validatePack_eq_none_iff _ _ _ _).2 ⟨hw, hh, hlen, hfit, h8 (by simp [ho])⟩
  | illegal => exact absurd ho hop

/-- Written input has no unwritten byte. -/
theorem Block.not_inputUnwritten {s : Block} {n : Nat} (h : s.inBuf.covers n) : ¬s.InputUnwritten n := by
  rintro ⟨k, hk, hnone⟩
  simpa [hnone] using h k hk

theorem leaveStage_ne_fault {st : Stage} {q : Option Block} (h : q ≠ none) (r : Fault) :
    leaveStage st q ≠ .fault r := by
  rcases leaveStage_cases st q with ⟨hq, -⟩ | ⟨u, next, -, -, he⟩ | ⟨u, -, -, he⟩
  · exact absurd hq h
  · simp [he]
  · simp [he]

section

variable {cap : Nat} {s : Block} (h : s.Inv cap) (hb : s.busy = true)
include h hb

/-- No stage faults where the input bytes of an image whose checks pass have been written (20_memory.md R74). -/
theorem stageRest_ne_fault (hcov : s.Validated cap → s.inBuf.covers s.pixels) (r : Fault) :
    stageRest cap s ≠ .fault r := by
  unfold stageRest
  cases hs : s.stage <;> simp only
  case validate =>
    rcases validateStage_cases cap s with ⟨e, -, he⟩ | ⟨st, -, -, he⟩ <;> simp [he]
  case copy =>
    obtain ⟨-, hv⟩ := h.at_copy hb hs
    exact leaveStage_ne_fault
      (fun hn => Block.not_inputUnwritten (hcov hv) (Block.copyIn_eq_none_unwritten hv.at_pixels hn)) r
  case scan => exact leaveStage_ne_fault (by simp) r
  case pack =>
    obtain ⟨-, hv, hi, -⟩ := h.at_pack hb hs
    exact leaveStage_ne_fault (fun hn => Block.not_inputUnwritten (hcov hv)
      (Block.packWith_eq_none_unwritten hv.at_pixels (fun p hp => mem_groupsFrom (by omega) hp) hn)) r
  case finish =>
    rw [finishStage_of_legal (validate_eq_none (h.at_finish hb hs)).1]
    simp

/-- As many stages as the command can still have end it. -/
theorem runStages_ends {fuel : Nat} (hfuel : s.stage.left ≤ fuel)
    (hcov : s.Validated cap → s.inBuf.covers s.pixels) :
    ∃ t, runStages cap fuel s = .next t ∧ t.phase = .idle ∧ t.done = true := by
  induction fuel generalizing s with
  | zero =>
    have := s.stage.left_pos
    omega
  | succ fuel ih =>
    rw [runStages_succ]
    have hallowed := stageRest_allowed h hb
    cases hr : stageRest cap s with
    | refused r => rw [hr] at hallowed; exact hallowed.elim
    | fault r => exact absurd hr (stageRest_ne_fault h hb hcov r)
    | next t =>
      rw [hr] at hallowed
      rcases stageRest_next_cases hr with ⟨hidle, hdone⟩ | ⟨hbusy, hin, hpx, hv⟩
      · exact ⟨t, goOn_of_idle ((Block.busy_eq_false_iff _).2 hidle), hidle, hdone⟩
      · have ht : t.busy = true := hbusy.trans hb
        have hleft := stageRest_left hr ht
        rw [goOn_of_busy ht]
        exact ih hallowed ht (by omega) fun hvt => by rw [hin, hpx]; exact hcov (hv.1 hvt)

end

/-- Settles O55: a command has at most five stages, each of which leaves an ended command or a later stage. -/
theorem runningCommandEnds : Obligations.RunningCommandEnds := fun s h hrun hcov =>
  runStages_ends h ((Block.busy_iff s).2 hrun) s.stage.left_le_five hcov

/-! ### The position of the engine -/

/-- The block with the engine at another position, of another stage (10_state.md R40). -/
def Block.moveTo (s : Block) (st : Stage) (i : Nat) (j : Int) (d : Dir) : Block :=
  { s with stage := st, i := i, j := j, dir := d }

section

variable (s : Block) (st : Stage) (i : Nat) (j : Int) (d : Dir)

theorem Block.enter_eq_moveTo : s.enter st = s.moveTo st 0 0 .forward := rfl

/-- COPY does not depend on the position. -/
theorem Block.copyIn_moveTo : (s.moveTo st i j d).copyIn = s.copyIn.map (·.moveTo st i j d) := by
  have hrun : readRun (Memory.read? (s.moveTo st i j d).inBuf) 0 (s.moveTo st i j d).pixels =
      readRun (Memory.read? s.inBuf) 0 s.pixels := rfl
  unfold Block.copyIn
  rw [hrun]
  cases readRun (Memory.read? s.inBuf) 0 s.pixels <;> rfl

/-- Packing depends on the given groups and not on the position. -/
theorem Block.packWith_moveTo (op : Op) (ps : List (Nat × Nat)) :
    (s.moveTo st i j d).packWith op ps = (s.packWith op ps).map (·.moveTo st i j d) := by
  have hgroups : packGroups ((s.moveTo st i j d).packSrc op) (s.moveTo st i j d).imgW.toNat ps
      (s.moveTo st i j d).outBuf = packGroups (s.packSrc op) s.imgW.toNat ps s.outBuf := rfl
  unfold Block.packWith
  rw [hgroups]
  cases packGroups (s.packSrc op) s.imgW.toNat ps s.outBuf <;> rfl

/-- The next stage begins at its own position. -/
theorem leaveStage_map_moveTo (left : Stage) (q : Option Block) :
    leaveStage left (q.map (·.moveTo st i j d)) = leaveStage left q := by
  cases q <;> rfl

end

section

variable (cap : Nat) (s : Block) (i : Nat) (j : Int) (d : Dir)

theorem stageRest_moveTo_copy : stageRest cap (s.moveTo .copy i j d) = leaveStage .copy s.copyIn := by
  show leaveStage .copy (s.moveTo .copy i j d).copyIn = _
  rw [Block.copyIn_moveTo, leaveStage_map_moveTo]

theorem stageRest_moveTo_scan :
    stageRest cap (s.moveTo .scan i j d) = leaveStage .scan (some (s.scan (visitsFrom d s.imgW s.imgH j i))) := rfl

theorem stageRest_moveTo_pack :
    stageRest cap (s.moveTo .pack i j d) =
      leaveStage .pack (s.packWith s.op (groupsFrom s.imgW.toNat s.imgH.toNat (j / 8).toNat i)) := by
  show leaveStage .pack ((s.moveTo .pack i j d).packWith s.op _) = _
  rw [Block.packWith_moveTo, leaveStage_map_moveTo]
  rfl

end

/-! ### The stages of a command from its acceptance -/

/-- COPY changes MONO alone, and nothing of the command. -/
theorem Block.copyIn_keeps {s t : Block} (h : s.copyIn = some t) :
    t.busy = s.busy ∧ t.imgH = s.imgH ∧ t.op = s.op := by
  obtain ⟨bs, -, rfl⟩ := Block.copyIn_eq_some h
  exact ⟨rfl, rfl, rfl⟩

theorem Block.ditherScan_op {s t : Block} (h : s.ditherScan = some t) : t.op = s.op := by
  obtain ⟨m, rfl⟩ := Block.ditherScan_eq_some_mono h
  rfl

theorem Block.packAll_op {s t : Block} {op : Op} (h : s.packAll op = some t) : t.op = s.op := by
  obtain ⟨m, -, rfl⟩ := Block.packWith_eq_some h
  rfl

/-- The completion of a command with its result: UNINIT_INPUT where it has none (20_memory.md R74). -/
def completed : Option Block → Host.Outcome Block Fault Refusal
  | none => .fault .uninitInput
  | some t => .next ((t.enter .finish).complete t.outputLen)

section

variable {cap fuel : Nat} {s : Block}

/-- Leaving the last stage before FINISH completes the command. -/
theorem goOn_leaveStage_finish {st : Stage} {q : Option Block}
    (hq : ∀ t, q = some t → t.busy = true ∧ nextStage t.op st = some .finish) :
    goOn (runStages cap (fuel + 1)) (leaveStage st q) = completed q := by
  cases q with
  | none => rfl
  | some t =>
    obtain ⟨hb, hnext⟩ := hq t rfl
    have hop : t.op ≠ .illegal := by
      intro hop
      rw [hop] at hnext
      cases hnext
    rw [goOn_leaveStage hnext hb, runStages_succ]
    show goOn _ (finishStage (t.enter .finish)) = _
    rw [finishStage_of_legal (s := t.enter .finish) hop]
    rfl

variable (hb : s.busy = true) (hh : 0 < s.imgH)
include hb hh

/-- From PACK on, a command completes with the packing of its image. -/
theorem runStages_enter_pack (hop : s.op = .pack ∨ s.op = .ditherPack) :
    runStages cap (fuel + 2) (s.enter .pack) = completed (s.packAll s.op) := by
  rw [runStages_succ, Block.enter_eq_moveTo, stageRest_moveTo_pack, Block.packAll,
    groupOrder_eq_groupsFrom (show 0 < s.imgH.toNat by omega)]
  refine goOn_leaveStage_finish fun t ht => ?_
  obtain ⟨m, -, rfl⟩ := Block.packWith_eq_some ht
  refine ⟨hb, ?_⟩
  rcases hop with hop | hop <;> simp only [hop] <;> rfl

/-- From SCAN on, DITHER completes with the scan. -/
theorem runStages_enter_scan_dither (hop : s.op = .dither) :
    runStages cap (fuel + 2) (s.enter .scan) = completed (some (s.scan (visitOrder s.imgW s.imgH))) := by
  rw [runStages_succ, Block.enter_eq_moveTo, stageRest_moveTo_scan, ← visitOrder_eq_visitsFrom hh]
  refine goOn_leaveStage_finish fun t ht => ?_
  cases ht
  exact ⟨hb, by simp [hop, nextStage]⟩

/-- From SCAN on, DITHER_PACK completes with the packing of the scan. -/
theorem runStages_enter_scan_ditherPack (hop : s.op = .ditherPack) :
    runStages cap (fuel + 3) (s.enter .scan) =
      completed ((s.scan (visitOrder s.imgW s.imgH)).packAll .ditherPack) := by
  rw [runStages_succ, Block.enter_eq_moveTo, stageRest_moveTo_scan, ← visitOrder_eq_visitsFrom hh,
    goOn_leaveStage (t := s.scan (visitOrder s.imgW s.imgH)) (next := .pack) (by simp [hop, nextStage]) hb,
    runStages_enter_pack (s := s.scan (visitOrder s.imgW s.imgH)) hb hh (.inr hop), Block.scan_op, hop]

/-- From COPY on, DITHER completes with the dither scan. -/
theorem runStages_enter_copy_dither (hop : s.op = .dither) :
    runStages cap (fuel + 3) (s.enter .copy) = completed s.ditherScan := by
  rw [runStages_succ, Block.enter_eq_moveTo, stageRest_moveTo_copy, Block.ditherScan]
  cases hc : s.copyIn with
  | none => rfl
  | some t =>
    obtain ⟨hbt, hht, hopt⟩ := Block.copyIn_keeps hc
    rw [← hbt] at hb
    rw [← hht] at hh
    rw [← hopt] at hop
    rw [goOn_leaveStage (next := .scan) (by rw [hop]; rfl) hb, runStages_enter_scan_dither hb hh hop]

/-- From COPY on, DITHER_PACK completes with the packing of the dither scan. -/
theorem runStages_enter_copy_ditherPack (hop : s.op = .ditherPack) :
    runStages cap (fuel + 4) (s.enter .copy) = completed (s.ditherScan.bind (·.packAll .ditherPack)) := by
  rw [runStages_succ, Block.enter_eq_moveTo, stageRest_moveTo_copy, Block.ditherScan]
  cases hc : s.copyIn with
  | none => rfl
  | some t =>
    obtain ⟨hbt, hht, hopt⟩ := Block.copyIn_keeps hc
    rw [← hbt] at hb
    rw [← hht] at hh
    rw [← hopt] at hop
    rw [goOn_leaveStage (next := .scan) (by rw [hop]; rfl) hb, runStages_enter_scan_ditherPack hb hh hop]
    rfl

end

/-! ### The atomic command and the staged one -/

section

variable {cap : Nat} {s : Block} (hs : s.stage = .validate)
include hs

/-- A command whose checks fail ends with their error. -/
theorem commandRest_of_error {e : CommandError} (hv : validate cap s.op s.imgW s.imgH s.imgLen = some e) :
    commandRest cap s = .next (s.raiseError e) := by
  rw [commandRest, runStages_succ]
  simp [stageRest, hs, validateStage, hv, goOn]

/-- A command whose checks pass goes on with the stage after VALIDATE. -/
theorem commandRest_of_validated {st : Stage} (hb : s.busy = true)
    (hv : validate cap s.op s.imgW s.imgH s.imgLen = none) (hnext : nextStage s.op .validate = some st) :
    commandRest cap s = runStages cap 4 (s.enter st) := by
  rw [commandRest, runStages_succ]
  simp [stageRest, hs, validateStage, hv, hnext, goOn, hb]

variable (hb : s.busy = true)
include hb

theorem runDither_eq_commandRest (hop : s.op = .dither) : runDither cap s = commandRest cap s := by
  have hval : validate cap s.op s.imgW s.imgH s.imgLen = validateDither cap s.imgW s.imgH s.imgLen := by rw [hop]; rfl
  unfold runDither
  cases hv : validateDither cap s.imgW s.imgH s.imgLen with
  | some e => exact (commandRest_of_error hs (hval.trans hv)).symm
  | none =>
    obtain ⟨-, hh, -⟩ := (validateDither_eq_none_iff _ _ _ _).1 hv
    rw [commandRest_of_validated (st := .copy) hs hb (hval.trans hv) (by rw [hop]; rfl),
      runStages_enter_copy_dither hb hh hop]
    cases hd : s.ditherScan with
    | none => rfl
    | some t => simp only [completed, Block.outputLen, Block.ditherScan_op hd, hop]

theorem runPack_eq_commandRest (hop : s.op = .pack) : runPack cap s = commandRest cap s := by
  have hval : validate cap s.op s.imgW s.imgH s.imgLen = validatePack cap s.imgW s.imgH s.imgLen := by rw [hop]; rfl
  unfold runPack
  cases hv : validatePack cap s.imgW s.imgH s.imgLen with
  | some e => exact (commandRest_of_error hs (hval.trans hv)).symm
  | none =>
    obtain ⟨-, hh, -⟩ := (validatePack_eq_none_iff _ _ _ _).1 hv
    rw [commandRest_of_validated (st := .pack) hs hb (hval.trans hv) (by rw [hop]; rfl),
      runStages_enter_pack hb hh (.inl hop), hop]
    cases hp : s.packAll .pack with
    | none => rfl
    | some t => simp only [completed, Block.outputLen, Block.packAll_op hp, hop]

theorem runDitherPack_eq_commandRest (hop : s.op = .ditherPack) : runDitherPack cap s = commandRest cap s := by
  have hval : validate cap s.op s.imgW s.imgH s.imgLen = validatePack cap s.imgW s.imgH s.imgLen := by rw [hop]; rfl
  unfold runDitherPack
  cases hv : validatePack cap s.imgW s.imgH s.imgLen with
  | some e => exact (commandRest_of_error hs (hval.trans hv)).symm
  | none =>
    obtain ⟨-, hh, -⟩ := (validatePack_eq_none_iff _ _ _ _).1 hv
    rw [commandRest_of_validated (st := .copy) hs hb (hval.trans hv) (by rw [hop]; rfl),
      runStages_enter_copy_ditherPack hb hh hop]
    cases hd : s.ditherScan with
    | none => rfl
    | some t =>
      simp only [Option.bind_some]
      cases hp : t.packAll .ditherPack with
      | none => rfl
      | some u => simp only [completed, Block.outputLen, Block.packAll_op hp, Block.ditherScan_op hd, hop]

end

/-- A command of an idle block is the rest of the accepted one (R169). -/
theorem Block.command_eq_commandRest {s : Block} (i : Instr) (hb : s.busy = false) :
    s.command i = commandRest Config.maxPixels (s.accept (Op.of i)) := by
  cases i with
  | dither =>
    simp only [Block.command, Block.commandDither, hb]
    exact runDither_eq_commandRest rfl rfl rfl
  | pack =>
    simp only [Block.command, Block.commandPack, hb]
    exact runPack_eq_commandRest rfl rfl rfl
  | ditherPack =>
    simp only [Block.command, Block.commandDitherPack, hb]
    exact runDitherPack_eq_commandRest rfl rfl rfl
  | illegal w => exact (Block.commandIllegal_of_idle hb w).trans (commandRest_of_error rfl rfl).symm

/-- Settles O56: `exec` is the command of the block, and that is the rest of the accepted command. -/
theorem atomicCommandIsTheStagedCommand : Obligations.AtomicCommandIsTheStagedCommand := by
  intro i s hidle
  rw [exec_eq_command, Block.command_eq_commandRest i ((Block.busy_eq_false_iff _).2 hidle)]

/-! ### Visit by visit -/

section

variable {d : Dir} {w h j : Int} {i : Nat}

/-- The columns still to visit begin with the one that is visited next (R104). -/
theorem colsFrom_eq_cons (h0 : 0 ≤ j) (h1 : j < w) : colsFrom d w j = j :: colsFrom d w (j + d.step) := by
  cases d with
  | forward =>
    obtain ⟨n, hn⟩ : ∃ n, (w - j).toNat = n + 1 := ⟨(w - j).toNat - 1, by omega⟩
    have hn' : (w - (j + 1)).toNat = n := by omega
    simp only [colsFrom, Dir.step, hn, hn', List.range_succ_eq_map, List.map_cons, List.map_map]
    refine List.cons_eq_cons.2 ⟨by simp, List.map_congr_left fun k _ => ?_⟩
    simp only [Function.comp_apply]
    omega
  | reverse =>
    obtain ⟨n, hn⟩ : ∃ n, (j + 1).toNat = n + 1 := ⟨(j + 1).toNat - 1, by omega⟩
    have hn' : (j + -1 + 1).toNat = n := by omega
    simp only [colsFrom, Dir.step, hn, hn', List.range_succ_eq_map, List.map_cons, List.map_map]
    refine List.cons_eq_cons.2 ⟨by simp, List.map_congr_left fun k _ => ?_⟩
    simp only [Function.comp_apply]
    omega

/-- Past the edge of the row no column is left. -/
theorem colsFrom_eq_nil (h0 : 0 ≤ j) (h1 : j < w) (hedge : ¬(0 ≤ j + d.step ∧ j + d.step < w)) :
    colsFrom d w (j + d.step) = [] := by
  cases d with
  | forward =>
    simp only [Dir.step] at hedge
    simp only [colsFrom, Dir.step, show (w - (j + 1)).toNat = 0 by omega, List.range_zero, List.map_nil]
  | reverse =>
    simp only [Dir.step] at hedge
    simp only [colsFrom, Dir.step, show (j + -1 + 1).toNat = 0 by omega, List.range_zero, List.map_nil]

theorem visitsFrom_eq_cons (h0 : 0 ≤ j) (h1 : j < w) :
    visitsFrom d w h j i = (j, i) :: visitsFrom d w h (j + d.step) i := by
  simp [visitsFrom, rowVisits, colsFrom_eq_cons h0 h1]

/-- Past the edge of a row the visits go on with the next row, if there is one. -/
theorem visitsFrom_next_row (h0 : 0 ≤ j) (h1 : j < w) (hedge : ¬(0 ≤ j + d.step ∧ j + d.step < w))
    (hrow : (i + 1 : Int) < h) :
    visitsFrom d w h (j + d.step) i = visitsFrom (dirOf (i + 1)) w h ((dirOf (i + 1)).start w) (i + 1) := by
  obtain ⟨n, hn⟩ : ∃ n, h.toNat - (i + 1) = n + 1 := ⟨h.toNat - (i + 1) - 1, by omega⟩
  have hn' : h.toNat - (i + 1 + 1) = n := by omega
  simp [visitsFrom, rowVisits, colsFrom_eq_nil h0 h1 hedge, hn, hn', rowsVisits]

theorem visitsFrom_last_row (h0 : 0 ≤ j) (h1 : j < w) (hedge : ¬(0 ≤ j + d.step ∧ j + d.step < w))
    (hrow : ¬(i + 1 : Int) < h) : visitsFrom d w h (j + d.step) i = [] := by
  have hn : h.toNat - (i + 1) = 0 := by omega
  simp [visitsFrom, rowVisits, colsFrom_eq_nil h0 h1 hedge, hn, rowsVisits]

end

section

variable {w h g i : Nat}

/-- The groups still to pack begin with the one that is packed next (41_bit_packer.md R141). -/
theorem groupsFrom_eq_cons (hg : g < w / 8) : groupsFrom w h g i = (i, g) :: groupsFrom w h (g + 1) i := by
  obtain ⟨n, hn⟩ : ∃ n, w / 8 - g = n + 1 := ⟨w / 8 - g - 1, by omega⟩
  have hn' : w / 8 - (g + 1) = n := by omega
  simp [groupsFrom, rowGroups, hn, hn', List.range'_succ]

/-- Past the last group of a row the packing goes on with the next row, if there is one. -/
theorem groupsFrom_next_row (hg : w / 8 ≤ g) (hrow : i + 1 < h) : groupsFrom w h g i = groupsFrom w h 0 (i + 1) := by
  obtain ⟨n, hn⟩ : ∃ n, h - (i + 1) = n + 1 := ⟨h - (i + 1) - 1, by omega⟩
  have hn' : h - (i + 1 + 1) = n := by omega
  simp [groupsFrom, rowGroups, Nat.sub_eq_zero_of_le hg, hn, hn', rowsGroups]

theorem groupsFrom_last_row (hg : w / 8 ≤ g) (hrow : h ≤ i + 1) : groupsFrom w h g i = [] := by
  simp [groupsFrom, rowGroups, Nat.sub_eq_zero_of_le hg, Nat.sub_eq_zero_of_le hrow, rowsGroups]

end

/-- Packing a sequence of groups is packing the first one and then the others. -/
theorem Block.packWith_cons (s : Block) (op : Op) (p : Nat × Nat) (ps : List (Nat × Nat)) :
    s.packWith op (p :: ps) = (s.packWith op [p]).bind (·.packWith op ps) := by
  unfold Block.packWith
  simp only [packGroups]
  cases packGroup (s.packSrc op) s.imgW.toNat s.outBuf p <;> rfl

/-- How many visits or groups the running stage still has, where it is a stage of visits or of groups. -/
def Block.visitsLeft (s : Block) : Nat :=
  match s.stage with
  | .scan => (visitsFrom s.dir s.imgW s.imgH s.j s.i).length
  | .pack => (groupsFrom s.imgW.toNat s.imgH.toNat (s.j / 8).toNat s.i).length
  | _ => 0

/-- The block `t` has the rest of the running stage of `s` before it, with fewer visits left. -/
structure Block.VisitTo (cap : Nat) (s t : Block) : Prop where
  busy : t.busy = s.busy
  fewer : t.visitsLeft < s.visitsLeft
  rest : stageRest cap t = stageRest cap s

section

variable {cap : Nat} {s : Block}

theorem stageRest_of_scan (hs : s.stage = .scan) :
    stageRest cap s = leaveStage .scan (some (s.scan (visitsFrom s.dir s.imgW s.imgH s.j s.i))) := by
  simp only [stageRest, hs]

theorem stageRest_of_pack (hs : s.stage = .pack) :
    stageRest cap s =
      leaveStage .pack (s.packWith s.op (groupsFrom s.imgW.toNat s.imgH.toNat (s.j / 8).toNat s.i)) := by
  simp only [stageRest, hs]

/-- A visit made, and the position moved to one from where the others are to make. -/
theorem Block.visitTo_of_scan (hs : s.stage = .scan) {ps : List (Int × Nat)} {i : Nat} {j : Int} {d : Dir}
    (hcons : visitsFrom s.dir s.imgW s.imgH s.j s.i = (s.j, s.i) :: ps)
    (hrest : ps = visitsFrom d s.imgW s.imgH j i) :
    s.VisitTo cap ((s.scan [(s.j, s.i)]).moveTo .scan i j d) := by
  subst hrest
  refine ⟨rfl, ?_, ?_⟩
  · have hleft : s.visitsLeft = (visitsFrom s.dir s.imgW s.imgH s.j s.i).length := by simp only [Block.visitsLeft, hs]
    rw [hleft, hcons]
    exact Nat.lt_succ_self _
  · rw [stageRest_of_scan hs, hcons, stageRest_moveTo_scan]
    rfl

/-- A group packed, and the position moved to one from where the others are to pack. -/
theorem Block.visitTo_of_pack (hs : s.stage = .pack) {m : Memory} {ps : List (Nat × Nat)} {i : Nat} {j : Int} {d : Dir}
    (hp : s.packWith s.op [(s.i, (s.j / 8).toNat)] = some { s with outBuf := m })
    (hcons : groupsFrom s.imgW.toNat s.imgH.toNat (s.j / 8).toNat s.i = (s.i, (s.j / 8).toNat) :: ps)
    (hrest : ps = groupsFrom s.imgW.toNat s.imgH.toNat (j / 8).toNat i) :
    s.VisitTo cap (Block.moveTo { s with outBuf := m } .pack i j d) := by
  subst hrest
  refine ⟨rfl, ?_, ?_⟩
  · have hleft : s.visitsLeft = (groupsFrom s.imgW.toNat s.imgH.toNat (s.j / 8).toNat s.i).length := by
      simp only [Block.visitsLeft, hs]
    rw [hleft, hcons]
    exact Nat.lt_succ_self _
  · rw [stageRest_of_pack hs, hcons, Block.packWith_cons, hp, stageRest_moveTo_pack]
    rfl

variable (h : s.Inv cap) (hb : s.busy = true)
include h hb

/-- A visit of SCAN is the stage's last one, or leaves the others to make. -/
theorem scanVisit_cases (hs : s.stage = .scan) :
    scanVisit s = stageRest cap s ∨ ∃ t, scanVisit s = .next t ∧ s.VisitTo cap t := by
  obtain ⟨-, -, -, h0, h1, -⟩ := h.at_scan hb hs
  have hcons := visitsFrom_eq_cons (d := s.dir) (h := s.imgH) (i := s.i) h0 h1
  simp only [scanVisit]
  split
  · exact .inr ⟨_, rfl, hs ▸ Block.visitTo_of_scan hs hcons rfl⟩
  · rename_i hedge
    split
    · rename_i hrow
      exact .inr ⟨_, rfl, hs ▸ Block.visitTo_of_scan hs hcons (visitsFrom_next_row h0 h1 hedge hrow)⟩
    · rename_i hrow
      rw [stageRest_of_scan hs, hcons, visitsFrom_last_row h0 h1 hedge hrow]
      exact .inl rfl

/-- A group of PACK is the stage's last one or meets an unwritten byte, or leaves the others to pack. -/
theorem packVisit_cases (hs : s.stage = .pack) :
    packVisit s = stageRest cap s ∨ ∃ t, packVisit s = .next t ∧ s.VisitTo cap t := by
  obtain ⟨hop, hv, hi, h0, h1, h8, -⟩ := h.at_pack hb hs
  obtain ⟨-, hw, hh, -, -, hw8⟩ := validate_eq_none hv
  have hw8 : s.imgW % 8 = 0 := hw8 (by rcases hop with hop | hop <;> simp [hop])
  have hcons := groupsFrom_eq_cons (h := s.imgH.toNat) (i := s.i) (show (s.j / 8).toNat < s.imgW.toNat / 8 by omega)
  unfold packVisit
  cases hp : s.packWith s.op [(s.i, (s.j / 8).toNat)] with
  | none =>
    rw [stageRest_of_pack hs, hcons, Block.packWith_cons, hp]
    exact .inl rfl
  | some t =>
    obtain ⟨m, -, rfl⟩ := Block.packWith_eq_some hp
    simp only
    split
    · have hnext : (s.j / 8).toNat + 1 = ((s.j + 8) / 8).toNat := by omega
      exact .inr ⟨_, rfl, hs ▸ Block.visitTo_of_pack hs hp hcons (by rw [hnext])⟩
    · rename_i hedge
      have hg : s.imgW.toNat / 8 ≤ (s.j / 8).toNat + 1 := by omega
      split
      · exact .inr ⟨_, rfl, hs ▸ Block.visitTo_of_pack hs hp hcons (groupsFrom_next_row hg (by omega))⟩
      · rw [stageRest_of_pack hs, hcons, Block.packWith_cons, hp, groupsFrom_last_row hg (by omega)]
        exact .inl rfl

/-- The engine's smallest step ends its stage as the rest of the stage does, or is a visit of it. -/
theorem visitStep_cases : visitStep cap s = stageRest cap s ∨ ∃ t, visitStep cap s = .next t ∧ s.VisitTo cap t := by
  unfold visitStep
  cases hs : s.stage with
  | scan =>
    have hstage : (nextStage s.op .scan).isSome = true := by
      rcases (h.at_scan hb hs).1 with hop | hop <;> rw [hop] <;> rfl
    simp only [hstage, if_true]
    exact scanVisit_cases h hb hs
  | pack =>
    have hstage : (nextStage s.op .pack).isSome = true := by
      rcases (h.at_pack hb hs).1 with hop | hop <;> rw [hop] <;> rfl
    simp only [hstage, if_true]
    exact packVisit_cases h hb hs
  | _ => exact .inl rfl

/-- Visit by visit the engine comes to the end of the running stage, and goes on from there. -/
theorem runVisits_stageRest :
    ∃ n, ∀ fuel, runVisits cap (fuel + n + 1) s = goOn (runVisits cap fuel) (stageRest cap s) := by
  induction hk : s.visitsLeft using Nat.strong_induction_on generalizing s with
  | h k ih =>
    rcases visitStep_cases h hb with hlast | ⟨t, hvisit, htb, hfewer, hrest⟩
    · exact ⟨0, fun fuel => by rw [runVisits_succ, hlast]⟩
    · have hinv : s.Allows cap (.next t) := hvisit ▸ visitStep_allowed h hb
      have ht : t.busy = true := htb.trans hb
      obtain ⟨n, hn⟩ := ih _ (hk ▸ hfewer) hinv ht rfl
      refine ⟨n + 1, fun fuel => ?_⟩
      rw [runVisits_succ, hvisit, goOn_of_busy ht, ← hrest]
      exact hn fuel

/-- Stage by stage and visit by visit the engine comes to the same end. -/
theorem runVisits_eq_runStages {k : Nat} (hk : s.stage.left ≤ k) :
    ∃ n, ∀ fuel, n ≤ fuel → runVisits cap fuel s = runStages cap k s := by
  induction k generalizing s with
  | zero =>
    have := s.stage.left_pos
    omega
  | succ k ih =>
    obtain ⟨n, hn⟩ := runVisits_stageRest h hb
    have hstage : ∃ n', ∀ fuel, n' ≤ fuel →
        goOn (runVisits cap fuel) (stageRest cap s) = goOn (runStages cap k) (stageRest cap s) := by
      have hallowed := stageRest_allowed h hb
      cases hr : stageRest cap s with
      | fault r => exact ⟨0, fun _ _ => rfl⟩
      | refused r => exact ⟨0, fun _ _ => rfl⟩
      | next t =>
        rw [hr] at hallowed
        cases ht : t.busy with
        | false => exact ⟨0, fun _ _ => by rw [goOn_of_idle ht, goOn_of_idle ht]⟩
        | true =>
          simp only [goOn_of_busy ht]
          have hleft := stageRest_left hr ht
          exact ih hallowed ht (by omega)
    obtain ⟨n', hn'⟩ := hstage
    refine ⟨n' + n + 1, fun fuel hfuel => ?_⟩
    obtain ⟨f, rfl⟩ : ∃ f, fuel = f + n + 1 := ⟨fuel - n - 1, by omega⟩
    rw [hn, hn' f (by omega), runStages_succ]

end

/-- Settles O57: stage after stage, the visits come to the end of the stage, and no command has more than five. -/
theorem visitGrainGivesTheSameResult : Obligations.VisitGrainGivesTheSameResult := fun s h hrun =>
  runVisits_eq_runStages h ((Block.busy_iff s).2 hrun) s.stage.left_le_five

end Sys2Proof.Machine
end

section
/-! The errors a command ends with, the sizes of MONO and OUT, and the interrupt output (60_exceptions.md R201, R202, R210). -/

namespace Sys2Proof.Machine

/-! ### The image in MONO and its packing in OUT -/

/-- Where a row and the capacity are whole bytes, the pixels fit exactly when the packed bytes do: both counts are
8 times as large. -/
theorem mul_le_cap_iff_packed_le_outSize {cap : Nat} {w h : Int} (hcap : cap % 8 = 0) (h8 : w % 8 = 0) :
    w * h ≤ (cap : Int) ↔ w / 8 * h ≤ (Config.outSize cap : Int) := by
  obtain ⟨q, rfl⟩ := Int.dvd_of_emod_eq_zero h8
  rw [Int.mul_ediv_cancel_left q (by decide), Int.mul_assoc, Config.outSize]
  omega

/-- Settles O14: MAX_PIXELS is a multiple of 8. -/
theorem packFitsInOutExactlyWhenInMono : Obligations.PackFitsInOutExactlyWhenInMono :=
  fun _ _ _ _ h8 => mul_le_cap_iff_packed_le_outSize Config.maxPixels_mod_eight h8

/-! ### The checks that fail -/

section

variable {cap : Nat} {w h : Int} {len : Nat}

/-- On a width of whole bytes the checks of the packing commands are those of DITHER (42_command_sequencing.md R163,
R164). -/
theorem validatePack_eq_validateDither (h8 : w % 8 = 0) : validatePack cap w h len = validateDither cap w h len := by
  simp [validatePack, validateDither, h8]

theorem validateDither_of_invalid (hbad : w ≤ 0 ∨ h ≤ 0 ∨ (len : Int) ≠ w * h) :
    validateDither cap w h len = some .invalidDimension := by
  unfold validateDither
  split
  · rfl
  · rename_i hpos
    exact if_pos (by tauto)

theorem validateDither_of_tooLarge (hw : 0 < w) (hh : 0 < h) (hlen : (len : Int) = w * h) (hcap : (cap : Int) < w * h) :
    validateDither cap w h len = some .allocationFailure := by
  rw [validateDither, if_neg (by omega), if_neg (not_not.2 hlen), if_pos hcap]

theorem validatePack_of_invalid (hbad : w ≤ 0 ∨ w % 8 ≠ 0 ∨ h ≤ 0 ∨ (len : Int) ≠ w * h) :
    validatePack cap w h len = some .invalidDimension := by
  by_cases h8 : w % 8 = 0
  · rw [validatePack_eq_validateDither h8]
    exact validateDither_of_invalid (hbad.imp_right (·.resolve_left (not_not.2 h8)))
  · exact validatePack_of_width h8

end

/-! ### Commands that end with an error -/

/-- A command whose checks fail while the block is idle ends in VALIDATE with their error (42_command_sequencing.md
R166). -/
theorem exec_of_error (i : Instr) {s : State} {e : CommandError} (hidle : s.phase = .idle)
    (hv : validate Config.maxPixels (Op.of i) s.regW s.regH s.inLen.toNat = some e) :
    exec i s = .next (s.endedWith (Op.of i) .validate e.code 0) := by
  rw [exec_eq_command, Block.command_eq_commandRest i ((Block.busy_eq_false_iff _).2 hidle),
    commandRest_of_error (s := s.accept (Op.of i)) rfl hv]
  rfl

/-- Settles O11: the dimensions fail the command's checks. -/
theorem invalidDimensionEndsTheCommand : Obligations.InvalidDimensionEndsTheCommand := fun _ hidle =>
  ⟨fun hbad => exec_of_error .dither hidle (validateDither_of_invalid hbad),
    fun hbad => ⟨exec_of_error .pack hidle (validatePack_of_invalid hbad),
      exec_of_error .ditherPack hidle (validatePack_of_invalid hbad)⟩⟩

/-- Settles O12: the image fails the last of the command's checks. -/
theorem allocationFailureEndsTheCommand : Obligations.AllocationFailureEndsTheCommand := by
  intro s hidle hw hh hlen hcap
  have hv := validateDither_of_tooLarge hw hh hlen hcap
  refine ⟨exec_of_error .dither hidle hv, fun h8 => ?_⟩
  have hvp := (validatePack_eq_validateDither h8).trans hv
  exact ⟨exec_of_error .pack hidle hvp, exec_of_error .ditherPack hidle hvp⟩

/-! ### The interrupt output -/

/-- The interrupt output is low where DONE is clear (60_exceptions.md R210). -/
theorem Block.irq_of_not_done {s : Block} (h : s.done = false) : s.irq = false := by
  rw [Block.irq, h, Bool.false_and]

/-- The interrupt output follows DONE_IE where DONE is set (60_exceptions.md R210). -/
theorem Block.irq_of_done {s : Block} (h : s.done = true) : s.irq = s.doneIe := by
  rw [Block.irq, h, Bool.true_and]

/-- Settles O41: a command that ends sets DONE, an acceptance and an acknowledgement clear it, and a dropped command
leaves it. -/
theorem interruptFollowsCompletion : Obligations.InterruptFollowsCompletion := by
  refine ⟨fun i s t hidle ht => ?_, fun s w hidle => ?_, fun s v hv => ?_, fun i s t hrun ht => ?_⟩
  · obtain ⟨⟨hie, -⟩, -, hdone, -⟩ := Block.command_ends ((Block.busy_eq_false_iff _).2 hidle) (exec_eq_next ht).1
    exact (Block.irq_of_done hdone).trans hie
  · rw [cmdWriteWhileIdleIsAccepted s w hidle]
    exact Block.irq_of_not_done rfl
  · rw [statusWriteClearsDoneAndOvrOnly s v]
    exact Block.irq_of_not_done (if_pos hv)
  · rw [(commandWhileBusyIsDropped s hrun).2 i] at ht
    cases ht
    rfl

end Sys2Proof.Machine
end

section
/-! The reset (70_reset_and_hazards.md R240, R241, R242). -/

namespace Sys2Proof.Machine

/-! ### The reset block as the host reads it -/

section

variable (s : Block)

/-- STATUS reads zero after a reset, so DONE is clear: an abandoned command does not complete
(70_reset_and_hazards.md R241). -/
@[simp] theorem Block.resetBlock_statusWord : s.resetBlock.statusWord = 0#32 := by
  simp [Block.statusWord, Block.reset]

@[simp] theorem Block.resetBlock_irqEnWord : s.resetBlock.irqEnWord = 0#32 := by
  simp [Block.irqEnWord_eq, Block.reset]

/-- Every register but CAPACITY reads zero after a reset, and CAPACITY reads as ever (70_reset_and_hazards.md R240). -/
theorem readReg_resetBlock (cap : Nat) (r : Reg) :
    readReg cap s.resetBlock r = if r = .capacity then BitVec.ofNat 32 cap else 0#32 := by
  cases r <;> simp [readReg, Block.reset]

end

/-! ### The step of a reset -/

/-- A scheduled reset is taken in every state, a faulted one and a busy one among them. -/
theorem step_reset {s : State} {rest : List Event} (hs : s.sched = .reset :: rest) :
    step s = .next { s with toBlock := s.resetBlock, resp := none, sched := rest } :=
  step_of_cons hs

/-- Settles O7: the step is the reset of the block, whose registers read their reset values and whose buffers are
empty. -/
theorem resetGivesResetValues : Obligations.ResetGivesResetValues := by
  intro s rest hs
  have hreg := readReg_resetBlock s.toBlock Config.maxPixels
  exact ⟨_, step_reset hs, hreg .status, hreg .irqEn, hreg .width, hreg .height, hreg .inLen, hreg .outLen,
    hreg .capacity, rfl, rfl, rfl, rfl, rfl, rfl, Block.irq_of_not_done rfl, fun _ => ⟨rfl, rfl, rfl⟩, rfl, rfl⟩

end Sys2Proof.Machine
end
